-- ==== Sys2Proof/Word.lean ====
section
/-! DEFINITION. The word types of the block: bytes, 32-bit registers and bus words, 22-bit
offsets and 4-bit write strobes (spec/00_scope.md R11, R12, spec/20_memory.md R80, R82). -/

namespace Sys2Proof

/-- One byte of a buffer or of a cryptographic value. -/
abbrev Byte := BitVec 8

/-- A u32: a register, a bus word, a command word, a SHA-256 word. -/
abbrev Word := BitVec 32

/-- A byte offset in the block's 4 MiB space: the only bits of an address that reach SVD (R80). -/
abbrev Offset := BitVec 22

/-- The four write strobes of a bus write, bit k for byte lane k (R82). -/
abbrev Strobe := BitVec 4

end Sys2Proof
end

