-- ==== Sys2Proof/Config.lean ====
section
/-! DEFINITION. What an implementation fixes: the constants every SVD has (spec/00_scope.md R8) and
the open build parameters (R9).  The spec leaves no value undefined, so there is no free value here. -/

namespace Sys2Proof

namespace Config

/-- Length of the salt in bytes (R8). -/
def saltLen : Nat := 32

/-- Length of the initialization vector in bytes (R8). -/
def ivLen : Nat := 16

/-- HDR_LEN = SALT_LEN + IV_LEN, the least length of a decoded container (R8). -/
def hdrLen : Nat := 48

/-- Length of the derived key in bytes (R8). -/
def keyLen : Nat := 32

/-- The cipher's block size in bytes (R8). -/
def block : Nat := 16

/-- The PBKDF2 iteration count ITER (R8). -/
def iter : Nat := 100000

/-- The constant of the ID register: "SV", major version 1, minor version 0 (10_state R33). -/
def idWord : Word := 0x53560100#32

/-- CFG0: SALT_LEN, IV_LEN, KEY_LEN and BLOCK from the low byte up (10_state R34). -/
def cfg0Word : Word := 0x10201020#32

/-- CFG1: the iteration count as a register word (10_state R35). -/
def cfg1Word : Word := 0x000186A0#32

end Config

/-- The open parameters of a build (R9).  Fixed for one machine: no event of the machine changes
them.  `baseAddr` is the platform's and no rule of SVD reads it (R80, 92 D39). -/
structure Build where
  /-- MAX_B64_LEN: capacity in bytes of the IN window. -/
  maxB64Len : Nat
  /-- MAX_PASS_LEN: capacity in bytes of the PASS window. -/
  maxPassLen : Nat
  /-- KEY_READBACK_EN: whether the host can read the derived key. -/
  keyReadbackEn : Bool
  /-- BASE_ADDR: where the platform places the offset space. -/
  baseAddr : Nat
deriving DecidableEq, Repr

/-- MAX_DEC_LEN = 3 · MAX_B64_LEN / 4 (R9). -/
def Build.maxDecLen (b : Build) : Nat := 3 * b.maxB64Len / 4

/-- MAX_CT_LEN = MAX_DEC_LEN - HDR_LEN (R9). -/
def Build.maxCtLen (b : Build) : Nat := b.maxDecLen - Config.hdrLen

namespace Config

/-- TC, the test configuration of R9. -/
def tc : Build := { maxB64Len := 65536, maxPassLen := 1024, keyReadbackEn := false, baseAddr := 0 }

end Config

end Sys2Proof
end

