-- ==== Sys2Proof/Syntax.lean ====
section
/-! DEFINITION. The commands (spec/30_encoding.md R120 to R122, one constructor per row of
spec/opcode_table.json), the fields of a command word, the events of the machine's one total order
(spec/20_memory.md R94), and the host assembly (R127, R128). -/

namespace Sys2Proof

/-- The five commands.  None has an operand field: every operand is a fixed register or window
(R121). -/
inductive Instr where
  /-- DECODE, 0x00000001 (41_container_decoder R160). -/
  | decode
  /-- DERIVE, 0x00000002 (42_key_derivation R200). -/
  | derive
  /-- DECRYPT, 0x00000003 (43_cipher_engine R300). -/
  | decrypt
  /-- RUN, 0x00000004 (44_pipeline_control R335). -/
  | run
  /-- CLEAR, 0x00000005 (44_pipeline_control R340). -/
  | clear
deriving DecidableEq, Repr

/-- The fields of a word in the format CMD32 (R120). -/
structure CmdFields where
  /-- OPCODE, bits [7:0]. -/
  opcode : BitVec 8
  /-- PAD_POLICY, bit [8]. -/
  padPolicy : BitVec 1
  /-- RSV, bits [31:9]. -/
  rsv : BitVec 23
deriving DecidableEq, Repr

/-- One event of the machine's total order (20_memory R94): a host transaction, a turn of the
engine, or the reset input. -/
inductive Event where
  /-- `HostRead32(a)` (20_memory R81). -/
  | read (a : Offset)
  /-- `HostWrite32(a, v, strb)` (20_memory R82). -/
  | write (a : Offset) (v : Word) (strb : Strobe)
  /-- A turn of the engine: Complete, where it is enabled (44_pipeline_control R331). -/
  | engine
  /-- The reset input (70_reset R400). -/
  | reset
deriving DecidableEq, Repr

/-- A base instruction of the host assembly: one bus transaction (30_encoding R127). -/
inductive HostInstr where
  /-- `rd OFF -> name`. -/
  | rd (off : Offset)
  /-- `wr OFF, V`. -/
  | wr (off : Offset) (v : Word)
  /-- `wrs OFF, V, S`. -/
  | wrs (off : Offset) (v : Word) (s : Strobe)
deriving DecidableEq, Repr

/-- A pseudo-instruction of the host assembly (30_encoding R128). -/
inductive HostPseudo where
  /-- `cmd NAME`. -/
  | cmd (i : Instr)
  /-- `wait`: read STATUS while BUSY. -/
  | wait
  /-- `poll OFF, M, X`: read OFF while the masked value differs from X. -/
  | poll (off : Offset) (m x : Word)
  /-- `loadin "text"`. -/
  | loadin (text : List Byte)
  /-- `loadpass "text"`. -/
  | loadpass (text : List Byte)
  /-- `ack`: clear DONE, ERR and WERR. -/
  | ack
  /-- `readout -> B`. -/
  | readout
deriving DecidableEq, Repr

end Sys2Proof
end

