-- ==== Sys2Proof/WellFormed.lean ====
section
/-! DEFINITION. Well-formedness of a command word's fields (spec/30_encoding.md R123 to R125) and
of a build (spec/00_scope.md R9). -/

namespace Sys2Proof

/-- The OPCODE byte of each command (R122). -/
def Instr.opcode : Instr → BitVec 8
  | .decode  => 0x01
  | .derive  => 0x02
  | .decrypt => 0x03
  | .run     => 0x04
  | .clear   => 0x05

/-- The fields of a command's word: PAD_POLICY 0 (TrustedLastByteTruncation) and RSV 0 (R122). -/
def Instr.fields (i : Instr) : CmdFields := { opcode := i.opcode, padPolicy := 0, rsv := 0 }

/-- The fields of a legal word: RSV is 0, PAD_POLICY is 0, and OPCODE is one of the five (R125). -/
def CmdFields.wellFormed (f : CmdFields) : Bool :=
  f.rsv == 0 && f.padPolicy == 0 && (1 ≤ f.opcode.toNat && f.opcode.toNat ≤ 5)

/-- A command is well-formed when the fields of its word are.  Every command is: a command has no
operand that could be out of range (R121). -/
def Instr.wellFormed (i : Instr) : Bool := i.fields.wellFormed

/-- The constraints R9 puts on the parameters of a build. -/
def Build.ok (b : Build) : Bool :=
  b.maxB64Len % 4 == 0 && (64 ≤ b.maxB64Len && b.maxB64Len ≤ 1048576)
    && (1 ≤ b.maxPassLen && b.maxPassLen ≤ 65536)

end Sys2Proof
end

