-- ==== Sys2Proof/Decode.lean ====
section
/-! DEFINITION. Decoding a command word (spec/30_encoding.md R123), total on every 32-bit word and
rejecting by name, and the encoder of the five commands (R120, R122). -/

namespace Sys2Proof

/-- Why a word is ILLEGAL (R123 to R125).  The three checks run in this order. -/
inductive DecodeError where
  /-- RSV, bits [31:9], is not 0. -/
  | reservedBits
  /-- PAD_POLICY is 1: reserved for a stricter mode no source defines (R124). -/
  | padPolicyReserved
  /-- OPCODE is none of 0x01 to 0x05. -/
  | unknownOpcode
deriving DecidableEq, Repr

/-- The three fields of a command word (R120). -/
def fieldsOfWord (w : Word) : CmdFields :=
  { opcode := w.extractLsb' 0 8, padPolicy := w.extractLsb' 8 1, rsv := w.extractLsb' 9 23 }

/-- A command word from its three fields (R120). -/
def wordOfFields (f : CmdFields) : Word :=
  f.opcode.setWidth 32 ||| (f.padPolicy.setWidth 32 <<< 8) ||| (f.rsv.setWidth 32 <<< 9)

/-- The command an OPCODE byte selects (R122). -/
def opcodeInstr (op : BitVec 8) : Option Instr :=
  if op = 0x01 then some .decode
  else if op = 0x02 then some .derive
  else if op = 0x03 then some .decrypt
  else if op = 0x04 then some .run
  else if op = 0x05 then some .clear
  else none

/-- `Decode(w)` (R123): the command of a word, or why the word is ILLEGAL. -/
def decode (w : Word) : Except DecodeError Instr :=
  let f := fieldsOfWord w
  if f.rsv ≠ 0 then .error .reservedBits
  else if f.padPolicy ≠ 0 then .error .padPolicyReserved
  else match opcodeInstr f.opcode with
    | some i => .ok i
    | none => .error .unknownOpcode

/-- The command word of a command (R122). -/
def encode (i : Instr) : Word := wordOfFields i.fields

/-- The command the decoder reads from a table word of `nbits` bits.  A command is one 32-bit word
written whole to CMD (R126), so no byte order enters; a value that needs more than 32 bits is no
command word. -/
def decodeTableWord (nbits w : Nat) : Option Instr :=
  let v := w % 2 ^ nbits
  if v < 2 ^ 32 then
    match decode (BitVec.ofNat 32 v) with
    | .ok i => some i
    | .error _ => none
  else none

end Sys2Proof
end

