-- ==== Sys2Proof/Machine/State.lean ====
section
/-! DEFINITION. The state of the block as plain data (spec/10_state.md R31 to R66), the reasons a
step can stop, and the state after reset (R70). -/

namespace Sys2Proof.Machine

/-- ENGINE_PHASE (10_state R31). -/
inductive Phase where
  | idle
  | busy
deriving DecidableEq, Repr

/-- The bus response of a host transaction (20_memory R81 to R83). -/
inductive Resp where
  | okay
  | slverr
deriving DecidableEq, Repr

/-- What a host transaction returns: read data with a response, or a response alone
(20_memory R81, R82). -/
inductive Reply where
  | data (d : Word) (r : Resp)
  | written (r : Resp)
deriving DecidableEq, Repr

/-- The bytes of one buffer, keyed by their offset in the buffer's window: offsets strictly rising,
no zero byte listed, and an unlisted byte reads 0, the contents after reset, CLEAR and a group
clear (10_state R61, R62, R70; 44_pipeline_control R330, R340). -/
abbrev Memory := List Host.Cell

/-- The errors of a command (60_exceptions R361), by name. -/
inductive ErrorCode where
  | malformedContainer
  | invalidCiphertextLength
  | paddingTruncationOutOfRange
  | textDecodingFailure
  | illegalCommand
  | containerNotValid
  | keyNotValid
  | lengthOutOfRange
deriving DecidableEq, Repr

/-- `raise E(info)` (00_scope R14): an error and its ERR_INFO word. -/
structure Raise where
  code : ErrorCode
  info : Word
deriving DecidableEq, Repr

/-- The state.  `build` holds the parameters no event changes; `pending` and `reply` are the
model's own fields (log 2, log 5); every other field is the spec's (INVENTORY.md, State). -/
structure State where
  /-- The build parameters (00_scope R9), visible as CFG2, CFG3, CFG4 (10_state R36 to R38). -/
  build : Build
  /-- ENGINE_PHASE (10_state R31); STATUS.BUSY is its view (R42). -/
  phase : Phase
  /-- PEND_CMD, the last word accepted while IDLE (10_state R31, R40). -/
  pendCmd : Word
  /-- CTRL.IE (10_state R39). -/
  ie : Bool
  /-- STATUS.DONE (10_state R43). -/
  done : Bool
  /-- STATUS.ERR (10_state R44). -/
  err : Bool
  /-- STATUS.WERR (10_state R45). -/
  werr : Bool
  /-- STATUS.CONT_VALID (10_state R46). -/
  contValid : Bool
  /-- STATUS.KEY_VALID (10_state R47). -/
  keyValid : Bool
  /-- STATUS.OUT_VALID (10_state R48). -/
  outValid : Bool
  /-- ERR_CODE[7:0] (10_state R49). -/
  errCode : Byte
  /-- ERR_INFO (10_state R50). -/
  errInfo : Word
  /-- IN_LEN (10_state R51). -/
  inLen : Word
  /-- PASS_LEN (10_state R52). -/
  passLen : Word
  /-- DEC_LEN (10_state R53). -/
  decLen : Word
  /-- CT_LEN (10_state R54). -/
  ctLen : Word
  /-- OUT_LEN (10_state R55). -/
  outLen : Word
  /-- PAD_VAL[7:0] (10_state R56). -/
  padVal : Byte
  /-- The KEY register (10_state R65). -/
  key : Vector Byte 32
  /-- The IN buffer (10_state R61). -/
  inBuf : Memory
  /-- The PASS buffer (10_state R62). -/
  passBuf : Memory
  /-- The DEC buffer (10_state R63). -/
  decBuf : Memory
  /-- The OUT buffer (10_state R64). -/
  outBuf : Memory
  /-- The schedule: the events still to come, in the total order of 20_memory R94 (log 2). -/
  pending : List Event
  /-- What the last host transaction returned (log 5). -/
  reply : Option Reply
deriving DecidableEq, Repr

/-- The reasons the machine stops.  The errors of a command are no faults: they are completions
(60_exceptions R360). -/
inductive Fault where
  /-- Raised by the engine's turn (`engineTurn`) when it is BUSY with a PEND_CMD that is none of
  DECODE, DERIVE, DECRYPT, RUN: 44_pipeline_control R331 gives Complete no such command, and no
  reachable state has one.  Safe: the machine stops where the spec has no step (log 8). -/
  | engineWithoutCommand
deriving DecidableEq, Repr

/-- The reasons an instruction has no meaning. -/
inductive Refusal where
  /-- Raised by an arm of `exec` that has no meaning yet; no arm is one.  Safe: nothing is claimed
  of such an instruction. -/
  | notModelled (mnemonic : String)
deriving DecidableEq, Repr

/-- The state after reset of a machine with the build `b` (10_state R70, 70_reset R400). -/
def State.resetOf (b : Build) : State where
  build := b
  phase := .idle
  pendCmd := 0
  ie := false
  done := false
  err := false
  werr := false
  contValid := false
  keyValid := false
  outValid := false
  errCode := 0
  errInfo := 0
  inLen := 0
  passLen := 0
  decLen := 0
  ctLen := 0
  outLen := 0
  padVal := 0
  key := Vector.replicate 32 0
  inBuf := []
  passBuf := []
  decBuf := []
  outBuf := []
  pending := []
  reply := none

/-- The machine right after reset, in the test configuration TC of 00_scope R9 (log 1), with
nothing scheduled (log 2). -/
def State.reset : State := State.resetOf Config.tc

end Sys2Proof.Machine
end

