-- ==== Sys2Proof/Machine/Bytes.lean ====
section
/-! DEFINITION. Byte sequences and byte orders (spec/00_scope.md R13, spec/20_memory.md R84, R89). -/

namespace Sys2Proof.Machine

/-- `BE32(x)`: the four bytes of a u32, most significant first (R13). -/
def be32 (x : Word) : List Byte :=
  [x.extractLsb' 24 8, x.extractLsb' 16 8, x.extractLsb' 8 8, x.extractLsb' 0 8]

/-- `BE64(x)`: the eight bytes of a 64-bit value, most significant first (R13). -/
def be64 (x : BitVec 64) : List Byte :=
  be32 (x.extractLsb' 32 32) ++ be32 (x.extractLsb' 0 32)

/-- Byte-wise exclusive-or of two byte sequences of equal length (R11). -/
def xorBytes (a b : List Byte) : List Byte := List.zipWith (· ^^^ ·) a b

/-- The word of four bytes in lane order, byte 0 in bits [7:0] (R84). -/
def wordOfLanes (b0 b1 b2 b3 : Byte) : Word :=
  b0.setWidth 32 ||| (b1.setWidth 32 <<< 8) ||| (b2.setWidth 32 <<< 16) ||| (b3.setWidth 32 <<< 24)

/-- `fromBE32`: the u32 of four bytes, most significant first (R13). -/
def fromBE32 (b0 b1 b2 b3 : Byte) : Word := wordOfLanes b3 b2 b1 b0

/-- Byte lane `k` of a word, bits [8k+7 : 8k] (R84). -/
def lane (v : Word) (k : Nat) : Byte := v.extractLsb' (8 * k) 8

/-- The KEY register of a 32-byte sequence, KEY[j] = DK[j] (42_key_derivation R233). -/
def keyOfBytes (dk : List Byte) : Vector Byte 32 := Vector.ofFn fun j => dk.getD j.val 0

/-- The 32 bytes of the KEY register in order (43_cipher_engine R262). -/
def keyBytes (k : Vector Byte 32) : List Byte := k.toList

end Sys2Proof.Machine
end

