-- ==== Sys2Proof/Machine/Ops.lean ====
section
/-! DEFINITION. The named operations over the buffers and the result groups, command acceptance
(spec/44_pipeline_control.md R330), and the two ways a command completes: with a result (R331) or
with an error, the block's only exception (spec/60_exceptions.md R362). -/

namespace Sys2Proof.Machine

/-! ### Buffers -/

/-- The byte at an offset of a buffer: an unlisted byte reads 0 (10_state R61 to R64, R70). -/
def Memory.read : Memory → Nat → Byte
  | [], _ => 0#8
  | (a', b) :: m, a => if a = a' then b else Memory.read m a

/-- Write one byte of a buffer, keeping the list sorted and listing no zero byte. -/
def Memory.write : Memory → Nat → Byte → Memory
  | [], a, b => if b = 0#8 then [] else [(a, b)]
  | (a', b') :: m, a, b =>
    if a < a' then (if b = 0#8 then (a', b') :: m else (a, b) :: (a', b') :: m)
    else if a = a' then (if b = 0#8 then m else (a, b) :: m)
    else (a', b') :: Memory.write m a b

/-- The canonical form of a buffer: offsets strictly rising and no zero byte listed. -/
def Memory.wf : Memory → Bool
  | [] => true
  | (a, b) :: m => b != 0#8 && m.all (fun c => decide (a < c.1)) && Memory.wf m

/-- `MemRead(W, o, n)` (20_memory R102): the `n` bytes from offset `o`. -/
def Memory.readN (m : Memory) (o n : Nat) : List Byte :=
  (List.range n).map fun i => m.read (o + i)

/-- `MemWrite(W, o, len(B), B)` (20_memory R102): the bytes `B` from offset `o` on. -/
def Memory.writeN : Memory → Nat → List Byte → Memory
  | m, _, [] => m
  | m, o, b :: bs => Memory.writeN (m.write o b) (o + 1) bs

/-! ### Result groups (10_state R66) -/

/-- Clear the CONT group: CONT_VALID, DEC, DEC_LEN, CT_LEN. -/
def clearCont (s : State) : State :=
  { s with contValid := false, decBuf := [], decLen := 0, ctLen := 0 }

/-- Clear the KEY group: KEY_VALID, KEY. -/
def clearKey (s : State) : State :=
  { s with keyValid := false, key := Vector.replicate 32 0 }

/-- Clear the OUT group: OUT_VALID, OUT, OUT_LEN, PAD_VAL. -/
def clearOut (s : State) : State :=
  { s with outValid := false, outBuf := [], outLen := 0, padVal := 0 }

/-- Whether a command's acceptance clears the CONT group (44_pipeline_control R330, R340). -/
def clearsCont : Instr → Bool
  | .decode => true
  | .derive => false
  | .decrypt => false
  | .run => true
  | .clear => true

/-- Whether a command's acceptance clears the KEY group (44_pipeline_control R330, R340). -/
def clearsKey : Instr → Bool
  | .decode => true
  | .derive => true
  | .decrypt => false
  | .run => true
  | .clear => true

/-- `ClearGroups(op)` (44_pipeline_control R330): every command clears the OUT group. -/
def clearGroups (i : Instr) (s : State) : State :=
  let s1 := if clearsCont i then clearCont s else s
  let s2 := if clearsKey i then clearKey s1 else s1
  clearOut s2

/-- Write a decoded container: DEC, DEC_LEN, CT_LEN, CONT_VALID
(41_container_decoder R160, R168). -/
def writeCont (d : List Byte) (s : State) : State :=
  { s with
    decBuf := s.decBuf.writeN 0 d
    decLen := BitVec.ofNat 32 d.length
    ctLen := BitVec.ofNat 32 (d.length - Config.hdrLen)
    contValid := true }

/-- Write a derived key: KEY, KEY_VALID (42_key_derivation R200, R233). -/
def writeKey (dk : List Byte) (s : State) : State :=
  { s with key := keyOfBytes dk, keyValid := true }

/-- Write a plaintext and its truncation count: OUT, OUT_LEN, PAD_VAL, OUT_VALID
(43_cipher_engine R300). -/
def writeOut (t : List Byte) (p : Byte) (s : State) : State :=
  { s with
    outBuf := s.outBuf.writeN 0 t
    outLen := BitVec.ofNat 32 t.length
    padVal := p
    outValid := true }

/-! ### The life of a command (44_pipeline_control R330, R331) -/

/-- Whether a command is completed by the engine, BUSY in between.  CLEAR is not: it completes
inside its CMD write (44_pipeline_control R330, R333). -/
def runsInEngine : Instr → Bool
  | .decode => true
  | .derive => true
  | .decrypt => true
  | .run => true
  | .clear => false

/-- What acceptance does for every word, legal or not: PEND_CMD takes the word, and DONE, ERR,
ERR_CODE and ERR_INFO are cleared (44_pipeline_control R330). -/
def acceptHead (w : Word) (s : State) : State :=
  { s with pendCmd := w, done := false, err := false, errCode := 0, errInfo := 0 }

/-- Acceptance of a command the engine completes: its groups are cleared and the engine is BUSY
(44_pipeline_control R330). -/
def acceptEngine (i : Instr) (s : State) : State :=
  { clearGroups i (acceptHead (encode i) s) with phase := .busy }

/-- A host write dropped while BUSY: only STATUS.WERR changes (20_memory R96). -/
def dropWrite (s : State) : State := { s with werr := true }

/-- The numeric code of an error (60_exceptions R361). -/
def ErrorCode.code : ErrorCode → Byte
  | .malformedContainer => 0x01
  | .invalidCiphertextLength => 0x02
  | .paddingTruncationOutOfRange => 0x03
  | .textDecodingFailure => 0x04
  | .illegalCommand => 0x10
  | .containerNotValid => 0x11
  | .keyNotValid => 0x12
  | .lengthOutOfRange => 0x13

/-- Record an error: ERR_CODE, ERR_INFO, STATUS.ERR (60_exceptions R362, 44_pipeline_control
R345). -/
def recordError (e : Raise) (s : State) : State :=
  { s with errCode := e.code.code, errInfo := e.info, err := true }

/-- Taking the block's exception: `ErrorComplete(op, E, info)`, and the engine is IDLE again
(60_exceptions R362, 44_pipeline_control R331).  RUN discards the results of its earlier stages;
the other commands wrote nothing. -/
def errorComplete (i : Instr) (e : Raise) (s : State) : State :=
  let s1 := match i with
    | .run => clearGroups .run s
    | .decode | .derive | .decrypt | .clear => s
  { recordError e s1 with phase := .idle }

/-- A successful completion: STATUS.DONE is 1 and the engine is IDLE (44_pipeline_control R331). -/
def doneComplete (s : State) : State := { s with done := true, phase := .idle }

/-- `Complete` for a command whose completion pseudocode either gives a state with its results
written or raises (44_pipeline_control R331). -/
def complete (i : Instr) (r : Except Raise State) (s : State) : State :=
  match r with
  | .ok s' => doneComplete s'
  | .error e => errorComplete i e s

/-- The whole of an illegal word's acceptance and completion: IllegalCommand with the word, and no
result group cleared (44_pipeline_control R330, R345). -/
def illegalComplete (w : Word) (s : State) : State :=
  recordError { code := .illegalCommand, info := w } (acceptHead w s)

/-- The reset input: every field of the block takes its reset value; the build and the events still
to come are not the block's (70_reset R400, log 11). -/
def resetEvent (s : State) : State := { State.resetOf s.build with pending := s.pending }

end Sys2Proof.Machine
end

