-- ==== Sys2Proof/Machine/Operands.lean ====
section
/-! DEFINITION. The operand forms: a command's implicit operands (spec/30_encoding.md R121), and
the lanes and strobes of a bus write (spec/20_memory.md R86, R87). -/

namespace Sys2Proof.Machine

/-- IN[0 : IN_LEN], the Base64 text DECODE and RUN read (41_container_decoder R160). -/
def opText (s : State) : List Byte := s.inBuf.readN 0 s.inLen.toNat

/-- PASS[0 : PASS_LEN], the passphrase bytes as written (42_key_derivation R201). -/
def opPass (s : State) : List Byte := s.passBuf.readN 0 s.passLen.toNat

/-- SALT = DEC[0 : 32] (42_key_derivation R200). -/
def opSalt (s : State) : List Byte := s.decBuf.readN 0 Config.saltLen

/-- IV = DEC[32 : 48] (43_cipher_engine R300). -/
def opIv (s : State) : List Byte := s.decBuf.readN Config.saltLen Config.ivLen

/-- CT = DEC[48 : 48 + CT_LEN] (43_cipher_engine R300). -/
def opCipher (s : State) : List Byte := s.decBuf.readN Config.hdrLen s.ctLen.toNat

/-- The cipher key, the KEY register's bytes in order (43_cipher_engine R262). -/
def opKey (s : State) : List Byte := keyBytes s.key

/-- `Merge(r, v, strb)` (20_memory R86): the strobed lanes of `v` over `r`. -/
def merge (r v : Word) (strb : Strobe) : Word :=
  wordOfLanes (if strb.getLsbD 0 then lane v 0 else lane r 0)
    (if strb.getLsbD 1 then lane v 1 else lane r 1)
    (if strb.getLsbD 2 then lane v 2 else lane r 2)
    (if strb.getLsbD 3 then lane v 3 else lane r 3)

/-- `Mask(v, strb)` (20_memory R87): the strobed lanes of `v` over 0. -/
def mask (v : Word) (strb : Strobe) : Word := merge 0 v strb

/-- Write lane `j` of a bus word to byte `o + j` of a buffer of `cap` bytes, where strobe `j` is set
and the byte exists (20_memory R82). -/
def writeLane (m : Memory) (cap o : Nat) (v : Word) (strb : Strobe) (j : Nat) : Memory :=
  if strb.getLsbD j && decide (o + j < cap) then m.write (o + j) (lane v j) else m

/-- Write the strobed lanes of a bus word to the bytes `o .. o+3` of a buffer (20_memory R82). -/
def writeLanes (m : Memory) (cap o : Nat) (v : Word) (strb : Strobe) : Memory :=
  let m1 := writeLane m cap o v strb 0
  let m2 := writeLane m1 cap o v strb 1
  let m3 := writeLane m2 cap o v strb 2
  writeLane m3 cap o v strb 3

end Sys2Proof.Machine
end

