-- ==== Sys2Proof/Machine/Flags.lean ====
section
/-! DEFINITION. The flags: the STATUS and CTRL words as views of the state, write-one-to-clear, and
the IRQ output (spec/10_state.md R39, R41, spec/60_exceptions.md R370). -/

namespace Sys2Proof.Machine

/-- A register word with one flag, at bit `k`. -/
def bitAt (b : Bool) (k : Nat) : Word := if b then 1#32 <<< k else 0#32

/-- STATUS.BUSY (10_state R42). -/
def busy (s : State) : Bool := s.phase == .busy

/-- The STATUS word: bits 0 to 6 are BUSY, DONE, ERR, WERR, CONT_VALID, KEY_VALID, OUT_VALID and
bits [31:7] are 0 (10_state R41). -/
def statusWord (s : State) : Word :=
  bitAt (busy s) 0 ||| bitAt s.done 1 ||| bitAt s.err 2 ||| bitAt s.werr 3
    ||| bitAt s.contValid 4 ||| bitAt s.keyValid 5 ||| bitAt s.outValid 6

/-- The CTRL word: bit 0 is IE and bits [31:1] are 0 (10_state R39). -/
def ctrlWord (s : State) : Word := bitAt s.ie 0

/-- A STATUS write with the masked value `v`: bits 1, 2 and 3 clear DONE, ERR and WERR
(10_state R41, 20_memory R87). -/
def writeOneToClear (v : Word) (s : State) : State :=
  { s with
    done := s.done && !v.getLsbD 1
    err := s.err && !v.getLsbD 2
    werr := s.werr && !v.getLsbD 3 }

/-- IRQ = CTRL.IE & (STATUS.DONE | STATUS.ERR) (60_exceptions R370). -/
def irq (s : State) : Bool := s.ie && (s.done || s.err)

end Sys2Proof.Machine
end

