-- ==== Sys2Proof/Machine/Aes.lean ====
section
/-! DEFINITION. The AES-256 inverse cipher and CBC decryption (spec/43_cipher_engine.md R250 to
R262, R270). -/

namespace Sys2Proof.Machine

/-- Four bytes: a column of the AES state, rows 0 to 3, or a round key word w[i][0..3] (R250). -/
structure Col where
  r0 : Byte
  r1 : Byte
  r2 : Byte
  r3 : Byte
deriving DecidableEq, Repr

/-- The AES state s[r, c], by columns (R250). -/
structure Aes where
  c0 : Col
  c1 : Col
  c2 : Col
  c3 : Col
deriving DecidableEq, Repr

/-! ### Bytes -/

/-- `xtime(a)` (R251). -/
def xtime (a : Byte) : Byte := (a <<< 1) ^^^ (if a.getLsbD 7 then 0x1B else 0x00)

/-- `xtime^i(a)` (R251). -/
def xtimeN : Nat → Byte → Byte
  | 0, a => a
  | n + 1, a => xtime (xtimeN n a)

/-- `a · b`: the sum of xtime^i(a) over the set bits i of b (R251). -/
def gmul (a b : Byte) : Byte :=
  (List.range 8).foldl (fun acc i => acc ^^^ (if b.getLsbD i then xtimeN i a else 0)) 0

/-- The entry of a 16 × 16 table: row x[7:4], column x[3:0] (R252). -/
def tableAt (rows : List (List Byte)) (x : Byte) : Byte :=
  (rows.getD (x.toNat / 16) []).getD (x.toNat % 16) 0

/-- Rows 0 to 3 of the forward S-box (R252). -/
def sbox0 : List (List Byte) :=
  [[0x63, 0x7c, 0x77, 0x7b, 0xf2, 0x6b, 0x6f, 0xc5, 0x30, 0x01, 0x67, 0x2b, 0xfe, 0xd7, 0xab, 0x76],
   [0xca, 0x82, 0xc9, 0x7d, 0xfa, 0x59, 0x47, 0xf0, 0xad, 0xd4, 0xa2, 0xaf, 0x9c, 0xa4, 0x72, 0xc0],
   [0xb7, 0xfd, 0x93, 0x26, 0x36, 0x3f, 0xf7, 0xcc, 0x34, 0xa5, 0xe5, 0xf1, 0x71, 0xd8, 0x31, 0x15],
   [0x04, 0xc7, 0x23, 0xc3, 0x18, 0x96, 0x05, 0x9a, 0x07, 0x12, 0x80, 0xe2, 0xeb, 0x27, 0xb2, 0x75]]

/-- Rows 4 to 7 of the forward S-box (R252). -/
def sbox1 : List (List Byte) :=
  [[0x09, 0x83, 0x2c, 0x1a, 0x1b, 0x6e, 0x5a, 0xa0, 0x52, 0x3b, 0xd6, 0xb3, 0x29, 0xe3, 0x2f, 0x84],
   [0x53, 0xd1, 0x00, 0xed, 0x20, 0xfc, 0xb1, 0x5b, 0x6a, 0xcb, 0xbe, 0x39, 0x4a, 0x4c, 0x58, 0xcf],
   [0xd0, 0xef, 0xaa, 0xfb, 0x43, 0x4d, 0x33, 0x85, 0x45, 0xf9, 0x02, 0x7f, 0x50, 0x3c, 0x9f, 0xa8],
   [0x51, 0xa3, 0x40, 0x8f, 0x92, 0x9d, 0x38, 0xf5, 0xbc, 0xb6, 0xda, 0x21, 0x10, 0xff, 0xf3, 0xd2]]

/-- Rows 8 to b of the forward S-box (R252). -/
def sbox2 : List (List Byte) :=
  [[0xcd, 0x0c, 0x13, 0xec, 0x5f, 0x97, 0x44, 0x17, 0xc4, 0xa7, 0x7e, 0x3d, 0x64, 0x5d, 0x19, 0x73],
   [0x60, 0x81, 0x4f, 0xdc, 0x22, 0x2a, 0x90, 0x88, 0x46, 0xee, 0xb8, 0x14, 0xde, 0x5e, 0x0b, 0xdb],
   [0xe0, 0x32, 0x3a, 0x0a, 0x49, 0x06, 0x24, 0x5c, 0xc2, 0xd3, 0xac, 0x62, 0x91, 0x95, 0xe4, 0x79],
   [0xe7, 0xc8, 0x37, 0x6d, 0x8d, 0xd5, 0x4e, 0xa9, 0x6c, 0x56, 0xf4, 0xea, 0x65, 0x7a, 0xae, 0x08]]

/-- Rows c to f of the forward S-box (R252). -/
def sbox3 : List (List Byte) :=
  [[0xba, 0x78, 0x25, 0x2e, 0x1c, 0xa6, 0xb4, 0xc6, 0xe8, 0xdd, 0x74, 0x1f, 0x4b, 0xbd, 0x8b, 0x8a],
   [0x70, 0x3e, 0xb5, 0x66, 0x48, 0x03, 0xf6, 0x0e, 0x61, 0x35, 0x57, 0xb9, 0x86, 0xc1, 0x1d, 0x9e],
   [0xe1, 0xf8, 0x98, 0x11, 0x69, 0xd9, 0x8e, 0x94, 0x9b, 0x1e, 0x87, 0xe9, 0xce, 0x55, 0x28, 0xdf],
   [0x8c, 0xa1, 0x89, 0x0d, 0xbf, 0xe6, 0x42, 0x68, 0x41, 0x99, 0x2d, 0x0f, 0xb0, 0x54, 0xbb, 0x16]]

/-- The rows of the forward S-box (R252). -/
def sboxRows : List (List Byte) := sbox0 ++ sbox1 ++ sbox2 ++ sbox3

/-- Rows 0 to 3 of the inverse S-box (R253). -/
def invSbox0 : List (List Byte) :=
  [[0x52, 0x09, 0x6a, 0xd5, 0x30, 0x36, 0xa5, 0x38, 0xbf, 0x40, 0xa3, 0x9e, 0x81, 0xf3, 0xd7, 0xfb],
   [0x7c, 0xe3, 0x39, 0x82, 0x9b, 0x2f, 0xff, 0x87, 0x34, 0x8e, 0x43, 0x44, 0xc4, 0xde, 0xe9, 0xcb],
   [0x54, 0x7b, 0x94, 0x32, 0xa6, 0xc2, 0x23, 0x3d, 0xee, 0x4c, 0x95, 0x0b, 0x42, 0xfa, 0xc3, 0x4e],
   [0x08, 0x2e, 0xa1, 0x66, 0x28, 0xd9, 0x24, 0xb2, 0x76, 0x5b, 0xa2, 0x49, 0x6d, 0x8b, 0xd1, 0x25]]

/-- Rows 4 to 7 of the inverse S-box (R253). -/
def invSbox1 : List (List Byte) :=
  [[0x72, 0xf8, 0xf6, 0x64, 0x86, 0x68, 0x98, 0x16, 0xd4, 0xa4, 0x5c, 0xcc, 0x5d, 0x65, 0xb6, 0x92],
   [0x6c, 0x70, 0x48, 0x50, 0xfd, 0xed, 0xb9, 0xda, 0x5e, 0x15, 0x46, 0x57, 0xa7, 0x8d, 0x9d, 0x84],
   [0x90, 0xd8, 0xab, 0x00, 0x8c, 0xbc, 0xd3, 0x0a, 0xf7, 0xe4, 0x58, 0x05, 0xb8, 0xb3, 0x45, 0x06],
   [0xd0, 0x2c, 0x1e, 0x8f, 0xca, 0x3f, 0x0f, 0x02, 0xc1, 0xaf, 0xbd, 0x03, 0x01, 0x13, 0x8a, 0x6b]]

/-- Rows 8 to b of the inverse S-box (R253). -/
def invSbox2 : List (List Byte) :=
  [[0x3a, 0x91, 0x11, 0x41, 0x4f, 0x67, 0xdc, 0xea, 0x97, 0xf2, 0xcf, 0xce, 0xf0, 0xb4, 0xe6, 0x73],
   [0x96, 0xac, 0x74, 0x22, 0xe7, 0xad, 0x35, 0x85, 0xe2, 0xf9, 0x37, 0xe8, 0x1c, 0x75, 0xdf, 0x6e],
   [0x47, 0xf1, 0x1a, 0x71, 0x1d, 0x29, 0xc5, 0x89, 0x6f, 0xb7, 0x62, 0x0e, 0xaa, 0x18, 0xbe, 0x1b],
   [0xfc, 0x56, 0x3e, 0x4b, 0xc6, 0xd2, 0x79, 0x20, 0x9a, 0xdb, 0xc0, 0xfe, 0x78, 0xcd, 0x5a, 0xf4]]

/-- Rows c to f of the inverse S-box (R253). -/
def invSbox3 : List (List Byte) :=
  [[0x1f, 0xdd, 0xa8, 0x33, 0x88, 0x07, 0xc7, 0x31, 0xb1, 0x12, 0x10, 0x59, 0x27, 0x80, 0xec, 0x5f],
   [0x60, 0x51, 0x7f, 0xa9, 0x19, 0xb5, 0x4a, 0x0d, 0x2d, 0xe5, 0x7a, 0x9f, 0x93, 0xc9, 0x9c, 0xef],
   [0xa0, 0xe0, 0x3b, 0x4d, 0xae, 0x2a, 0xf5, 0xb0, 0xc8, 0xeb, 0xbb, 0x3c, 0x83, 0x53, 0x99, 0x61],
   [0x17, 0x2b, 0x04, 0x7e, 0xba, 0x77, 0xd6, 0x26, 0xe1, 0x69, 0x14, 0x63, 0x55, 0x21, 0x0c, 0x7d]]

/-- The rows of the inverse S-box (R253). -/
def invSboxRows : List (List Byte) := invSbox0 ++ invSbox1 ++ invSbox2 ++ invSbox3

/-- SBOX[x] (R252). -/
def sbox (x : Byte) : Byte := tableAt sboxRows x

/-- INV_SBOX[x] (R253). -/
def invSbox (x : Byte) : Byte := tableAt invSboxRows x

/-! ### Key expansion -/

/-- Byte-wise exclusive-or of two words (R255, R256). -/
def Col.xor (x y : Col) : Col :=
  { r0 := x.r0 ^^^ y.r0, r1 := x.r1 ^^^ y.r1, r2 := x.r2 ^^^ y.r2, r3 := x.r3 ^^^ y.r3 }

/-- Apply a byte map to each of four bytes. -/
def Col.map (f : Byte → Byte) (x : Col) : Col :=
  { r0 := f x.r0, r1 := f x.r1, r2 := f x.r2, r3 := f x.r3 }

/-- RotWord(a0, a1, a2, a3) = (a1, a2, a3, a0) (R255). -/
def rotWord (x : Col) : Col := { r0 := x.r1, r1 := x.r2, r2 := x.r3, r3 := x.r0 }

/-- SubWord: SBOX on each of the four bytes (R255). -/
def subWord (x : Col) : Col := x.map sbox

/-- Rcon[j] = (rc_j, 0, 0, 0) with rc_1 = 1 and rc_j = xtime(rc_{j-1}) (R254). -/
def rcon (j : Nat) : Col := { r0 := xtimeN (j - 1) 0x01, r1 := 0, r2 := 0, r3 := 0 }

/-- The zero word, which no in-range index reads. -/
def Col.zero : Col := { r0 := 0, r1 := 0, r2 := 0, r3 := 0 }

/-- w[0..7], the words of a 32-byte key (R255). -/
def keyWords (k : List Byte) : List Col :=
  (List.range 8).map fun i =>
    { r0 := k.getD (4 * i) 0, r1 := k.getD (4 * i + 1) 0
      r2 := k.getD (4 * i + 2) 0, r3 := k.getD (4 * i + 3) 0 }

/-- The word `temp` that w[i - 8] is added to, from w[i - 1] (R255). -/
def keyTemp (i : Nat) (prev : Col) : Col :=
  if i % 8 = 0 then (subWord (rotWord prev)).xor (rcon (i / 8))
  else if i % 8 = 4 then subWord prev
  else prev

/-- Add the words w[i] to w[i + n - 1].  The schedule is held newest word first, so w[i - 1] is the
entry 0 and w[i - 8] the entry 7 (R255). -/
def keyExtend : Nat → Nat → List Col → List Col
  | 0, _, ws => ws
  | n + 1, i, ws =>
    keyExtend n (i + 1) (((ws.getD 7 Col.zero).xor (keyTemp i (ws.getD 0 Col.zero))) :: ws)

/-- `KeyExpansion(K)`: the 60 words w[0..59] (R255). -/
def keyExpansion (k : List Byte) : List Col := (keyExtend 52 8 (keyWords k).reverse).reverse

/-! ### The inverse cipher -/

/-- Load a 16-byte block: s[r, c] = in[r + 4c] (R250). -/
def aesLoad (b : List Byte) : Aes :=
  let col := fun c : Nat =>
    { r0 := b.getD (4 * c) 0, r1 := b.getD (4 * c + 1) 0
      r2 := b.getD (4 * c + 2) 0, r3 := b.getD (4 * c + 3) 0 : Col }
  { c0 := col 0, c1 := col 1, c2 := col 2, c3 := col 3 }

/-- The four bytes of a column. -/
def Col.bytes (x : Col) : List Byte := [x.r0, x.r1, x.r2, x.r3]

/-- Store the state back: out[r + 4c] = s[r, c] (R250). -/
def aesStore (s : Aes) : List Byte := s.c0.bytes ++ s.c1.bytes ++ s.c2.bytes ++ s.c3.bytes

/-- The round key of round `r`: w[4r .. 4r + 3], word 4r + c for column c (R256). -/
def roundKey (w : List Col) (r : Nat) : Aes :=
  { c0 := w.getD (4 * r) Col.zero, c1 := w.getD (4 * r + 1) Col.zero
    c2 := w.getD (4 * r + 2) Col.zero, c3 := w.getD (4 * r + 3) Col.zero }

/-- `AddRoundKey` (R256). -/
def addRoundKey (k s : Aes) : Aes :=
  { c0 := s.c0.xor k.c0, c1 := s.c1.xor k.c1, c2 := s.c2.xor k.c2, c3 := s.c3.xor k.c3 }

/-- `InvShiftRows`: s'[r, c] = s[r, (c - r) mod 4] (R257). -/
def invShiftRows (s : Aes) : Aes :=
  { c0 := { r0 := s.c0.r0, r1 := s.c3.r1, r2 := s.c2.r2, r3 := s.c1.r3 }
    c1 := { r0 := s.c1.r0, r1 := s.c0.r1, r2 := s.c3.r2, r3 := s.c2.r3 }
    c2 := { r0 := s.c2.r0, r1 := s.c1.r1, r2 := s.c0.r2, r3 := s.c3.r3 }
    c3 := { r0 := s.c3.r0, r1 := s.c2.r1, r2 := s.c1.r2, r3 := s.c0.r3 } }

/-- `InvSubBytes` (R258). -/
def invSubBytes (s : Aes) : Aes :=
  { c0 := s.c0.map invSbox, c1 := s.c1.map invSbox
    c2 := s.c2.map invSbox, c3 := s.c3.map invSbox }

/-- `InvMixColumns` on one column (R259). -/
def invMixColumn (a : Col) : Col :=
  { r0 := gmul a.r0 0x0e ^^^ gmul a.r1 0x0b ^^^ gmul a.r2 0x0d ^^^ gmul a.r3 0x09
    r1 := gmul a.r0 0x09 ^^^ gmul a.r1 0x0e ^^^ gmul a.r2 0x0b ^^^ gmul a.r3 0x0d
    r2 := gmul a.r0 0x0d ^^^ gmul a.r1 0x09 ^^^ gmul a.r2 0x0e ^^^ gmul a.r3 0x0b
    r3 := gmul a.r0 0x0b ^^^ gmul a.r1 0x0d ^^^ gmul a.r2 0x09 ^^^ gmul a.r3 0x0e }

/-- `InvMixColumns` (R259). -/
def invMixColumns (s : Aes) : Aes :=
  { c0 := invMixColumn s.c0, c1 := invMixColumn s.c1
    c2 := invMixColumn s.c2, c3 := invMixColumn s.c3 }

/-- The loop over the round keys `r` down to 1 (R260). -/
def aesRounds (w : List Col) : Nat → Aes → Aes
  | 0, s => s
  | r + 1, s =>
    aesRounds w r
      (invMixColumns (addRoundKey (roundKey w (r + 1)) (invSubBytes (invShiftRows s))))

/-- The inverse cipher on a loaded state under expanded key words (R260). -/
def aesDecState (w : List Col) (s : Aes) : Aes :=
  addRoundKey (roundKey w 0)
    (invSubBytes (invShiftRows (aesRounds w 13 (addRoundKey (roundKey w 14) s))))

/-- The inverse cipher on one block under expanded key words (R260). -/
def aesDecBlock (w : List Col) (c : List Byte) : List Byte := aesStore (aesDecState w (aesLoad c))

/-- `AES256_Dec(K, C)` (R260). -/
def aes256Dec (k c : List Byte) : List Byte := aesDecBlock (keyExpansion k) c

/-! ### CBC -/

/-- CBC decryption of `n` blocks with the chaining value `prev` (R270). -/
def cbcLoop (w : List Col) : Nat → List Byte → List Byte → List Byte
  | 0, _, _ => []
  | n + 1, prev, c =>
    let cj := c.take 16
    xorBytes (aesDecBlock w cj) prev ++ cbcLoop w n cj (c.drop 16)

/-- `CBC_Dec(K, IV, C)` (R270); the key is expanded anew each time (R262). -/
def cbcDec (k iv c : List Byte) : List Byte := cbcLoop (keyExpansion k) (c.length / 16) iv c

end Sys2Proof.Machine
end

