-- ==== Sys2Proof/Machine/Utf8.lean ====
section
/-! DEFINITION. UTF-8 well-formedness (spec/43_cipher_engine.md R290, R291). -/

namespace Sys2Proof.Machine

/-- A row of the table of R290: the range of the lead byte, the range of byte 2, the length. -/
structure Utf8Row where
  lead0 : Byte
  lead1 : Byte
  snd0 : Byte
  snd1 : Byte
  len : Nat
deriving DecidableEq, Repr

/-- The table of R290.  A row of length 1 has no byte 2, and its range is not used. -/
def utf8Table : List Utf8Row :=
  [{ lead0 := 0x00, lead1 := 0x7F, snd0 := 0x00, snd1 := 0x00, len := 1 },
   { lead0 := 0xC2, lead1 := 0xDF, snd0 := 0x80, snd1 := 0xBF, len := 2 },
   { lead0 := 0xE0, lead1 := 0xE0, snd0 := 0xA0, snd1 := 0xBF, len := 3 },
   { lead0 := 0xE1, lead1 := 0xEC, snd0 := 0x80, snd1 := 0xBF, len := 3 },
   { lead0 := 0xED, lead1 := 0xED, snd0 := 0x80, snd1 := 0x9F, len := 3 },
   { lead0 := 0xEE, lead1 := 0xEF, snd0 := 0x80, snd1 := 0xBF, len := 3 },
   { lead0 := 0xF0, lead1 := 0xF0, snd0 := 0x90, snd1 := 0xBF, len := 4 },
   { lead0 := 0xF1, lead1 := 0xF3, snd0 := 0x80, snd1 := 0xBF, len := 4 },
   { lead0 := 0xF4, lead1 := 0xF4, snd0 := 0x80, snd1 := 0x8F, len := 4 }]

/-- Whether a byte lies in a range of the table. -/
def inRange (lo hi b : Byte) : Bool := decide (lo ≤ b) && decide (b ≤ hi)

/-- The row whose lead range holds a byte (R290, R291). -/
def utf8Lookup (b : Byte) : Option Utf8Row := utf8Table.find? fun r => inRange r.lead0 r.lead1 b

/-- Whether the bytes after a lead byte begin with the rest of a sequence of its row (R291). -/
def utf8Tail (r : Utf8Row) (rest : List Byte) : Bool :=
  decide (r.len ≤ rest.length + 1)
    && (r.len == 1 || inRange r.snd0 r.snd1 (rest.getD 0 0))
    && ((rest.drop 1).take (r.len - 2)).all (inRange 0x80 0xBF)

/-- The length of the well-formed sequence a text begins with, if it begins with one (R291). -/
def utf8SeqLen : List Byte → Option Nat
  | [] => none
  | b :: rest =>
    match utf8Lookup b with
    | none => none
    | some r => if utf8Tail r rest then some r.len else none

/-- The scan of R291 from offset `i`, with `fuel` bounding the number of sequences. -/
def utf8Scan : Nat → Nat → List Byte → Option Nat
  | 0, _, _ => none
  | fuel + 1, i, t =>
    if t.isEmpty then none
    else match utf8SeqLen t with
      | none => some i
      | some l => utf8Scan fuel (i + l) (t.drop l)

/-- `Utf8FirstError(T)`: the offset of the lead byte of the first sequence that is not well-formed,
none where the text is well-formed (R291).  A text has at most as many sequences as bytes. -/
def utf8FirstError (t : List Byte) : Option Nat := utf8Scan t.length 0 t

end Sys2Proof.Machine
end

