-- ==== Sys2Proof/Machine/CipherEngine.lean ====
section
/-! DEFINITION. The Cipher Engine: TrustedLastByteTruncation and DECRYPT
(spec/43_cipher_engine.md R280 to R284, R292, R293, R300 to R304). -/

namespace Sys2Proof.Machine

/-- The word `(n << 8) | p` of a padding error (R281, R282). -/
def padInfo (n : Nat) (p : Byte) : Word := (BitVec.ofNat 32 n <<< 8) ||| p.setWidth 32

/-- TrustedLastByteTruncation on a decrypted buffer: the truncated text and the count `p`, the
buffer's last byte; the other padding bytes are not looked at (R280 to R284). -/
def truncateByLast (b : List Byte) : Except Raise (List Byte × Byte) :=
  let n := b.length
  let p := b.getD (n - 1) 0
  if p.toNat = 0 ∨ n < p.toNat then
    .error { code := .paddingTruncationOutOfRange, info := padInfo n p }
  else .ok (b.take (n - p.toNat), p)

/-- The UTF-8 check of a truncated text, which changes no byte of it (R292, R293). -/
def checkText (tp : List Byte × Byte) : Except Raise (List Byte × Byte) :=
  match utf8FirstError tp.1 with
  | some e => .error { code := .textDecodingFailure, info := BitVec.ofNat 32 e }
  | none => .ok tp

/-- Truncation, then the UTF-8 check: a padding error hides any UTF-8 problem (R302). -/
def plaintextOf (b : List Byte) : Except Raise (List Byte × Byte) :=
  match truncateByLast b with
  | .error e => .error e
  | .ok tp => checkText tp

/-- `DECRYPT_core()` (R300), its checks in the order of R302. -/
def decryptCore (s : State) : Except Raise (List Byte × Byte) :=
  if s.contValid = false then .error { code := .containerNotValid, info := 0 }
  else if s.keyValid = false then .error { code := .keyNotValid, info := 0 }
  else if s.ctLen.toNat = 0 ∨ s.ctLen.toNat % Config.block ≠ 0 then
    .error { code := .invalidCiphertextLength, info := s.ctLen }
  else plaintextOf (cbcDec (opKey s) (opIv s) (opCipher s))

/-- The completion pseudocode of DECRYPT up to its result group (R300). -/
def decryptResult (s : State) : Except Raise State :=
  match decryptCore s with
  | .ok tp => .ok (writeOut tp.1 tp.2 s)
  | .error e => .error e

/-- DECRYPT (R300).  IDLE: its acceptance, in the host's CMD write.  BUSY: its completion, in the
engine's step (log 7). -/
def execDecrypt (s : State) : Host.Outcome State Fault Refusal :=
  match s.phase with
  | .idle => .next (acceptEngine .decrypt s)
  | .busy => .next (complete .decrypt (decryptResult s) s)

end Sys2Proof.Machine
end

