-- ==== Sys2Proof/Machine/Base64.lean ====
section
/-! DEFINITION. Base64 text (spec/41_container_decoder.md R150 to R152, R163 to R166). -/

namespace Sys2Proof.Machine

/-- The pad character `=` (R151). -/
def padChar : Byte := 0x3D

/-- `Val(c)` on the standard alphabet, none on every other byte (R150, R152). -/
def base64Val (c : Byte) : Option (BitVec 6) :=
  let n := c.toNat
  if 0x41 ≤ n ∧ n ≤ 0x5A then some (BitVec.ofNat 6 (n - 0x41))
  else if 0x61 ≤ n ∧ n ≤ 0x7A then some (BitVec.ofNat 6 (n - 0x61 + 26))
  else if 0x30 ≤ n ∧ n ≤ 0x39 then some (BitVec.ofNat 6 (n - 0x30 + 52))
  else if n = 0x2B then some 62
  else if n = 0x2F then some 63
  else none

/-- A character DECODE accepts: one of ALPHABET, or the pad (R164). -/
def legalChar (c : Byte) : Bool := (base64Val c).isSome || c == padChar

/-- The offset of the first bad character, if any (R164). -/
def firstBadChar (t : List Byte) : Option Nat := t.findIdx? fun c => !legalChar c

/-- The offset of the first `=`, or the length of a text without one (R165). -/
def padStart (t : List Byte) : Nat := t.findIdx fun c => c == padChar

/-- BadPadding, with `k` the offset of the first `=`: it is not one of the last two characters, or
some character from it on is not `=` (R165). -/
def badPadding (t : List Byte) (k : Nat) : Bool :=
  decide (k < t.length) && (decide (k + 2 < t.length) || (t.drop k).any fun c => c != padChar)

/-- The 24-bit number of a group's four values (R165). -/
def groupBits (v0 v1 v2 v3 : BitVec 6) : BitVec 24 :=
  (v0.setWidth 24 <<< 18) ||| (v1.setWidth 24 <<< 12) ||| (v2.setWidth 24 <<< 6) ||| v3.setWidth 24

/-- The value of a character in a group, 0 for `=` (R165). -/
def charVal (c : Byte) : BitVec 6 := (base64Val c).getD 0

/-- `Base64Groups(T)`: three bytes for each group of four characters (R165). -/
def base64Groups : List Byte → List Byte
  | c0 :: c1 :: c2 :: c3 :: t =>
    let x := groupBits (charVal c0) (charVal c1) (charVal c2) (charVal c3)
    x.extractLsb' 16 8 :: x.extractLsb' 8 8 :: x.extractLsb' 0 8 :: base64Groups t
  | _ => []

end Sys2Proof.Machine
end

