-- ==== Sys2Proof/Machine/ContainerDecoder.lean ====
section
/-! DEFINITION. The Container Decoder: DECODE (spec/41_container_decoder.md R160 to R170). -/

namespace Sys2Proof.Machine

/-- MalformedContainer with sub-cause `sub` in ERR_INFO[31:28] and a value in [27:0]
(60_exceptions R363). -/
def malformed (sub value : Nat) : Raise :=
  { code := .malformedContainer
    info := (BitVec.ofNat 32 sub <<< 28) ||| BitVec.ofNat 32 value }

/-- The checks and the decoding of a text, in the order of R169: BadLength (R162), BadCharacter
(R164), BadPadding (R165), TooShort (R167). -/
def decodeText (t : List Byte) : Except Raise (List Byte) :=
  let n := t.length
  if n % 4 ≠ 0 then .error (malformed 1 n)
  else match firstBadChar t with
    | some i => .error (malformed 2 i)
    | none =>
      let k := padStart t
      if badPadding t k then .error (malformed 3 k)
      else
        let l := 3 * n / 4 - (n - k)
        if l < Config.hdrLen then .error (malformed 4 l)
        else .ok ((base64Groups t).take l)

/-- `DECODE_core()` (R160): the range check (R161), then the text. -/
def decodeCore (s : State) : Except Raise (List Byte) :=
  if s.build.maxB64Len < s.inLen.toNat then
    .error { code := .lengthOutOfRange, info := 0x0000002C }
  else decodeText (opText s)

/-- The completion pseudocode of DECODE up to its result group (R160, R168). -/
def decodeResult (s : State) : Except Raise State :=
  match decodeCore s with
  | .ok d => .ok (writeCont d s)
  | .error e => .error e

/-- DECODE (R160).  IDLE: its acceptance, in the host's CMD write.  BUSY: its completion, in the
engine's step (log 7). -/
def execDecode (s : State) : Host.Outcome State Fault Refusal :=
  match s.phase with
  | .idle => .next (acceptEngine .decode s)
  | .busy => .next (complete .decode (decodeResult s) s)

end Sys2Proof.Machine
end

