-- ==== Sys2Proof/Machine/Sha256.lean ====
section
/-! DEFINITION. SHA-256 (spec/42_key_derivation.md R210 to R216). -/

namespace Sys2Proof.Machine

/-- A SHA-256 chaining value H_0 to H_7, or the working variables a to h (R212, R214). -/
structure Sha where
  a : Word
  b : Word
  c : Word
  d : Word
  e : Word
  f : Word
  g : Word
  h : Word
deriving DecidableEq, Repr

/-- The initial hash value (R212). -/
def shaInit : Sha :=
  { a := 0x6a09e667, b := 0xbb67ae85, c := 0x3c6ef372, d := 0xa54ff53a
    e := 0x510e527f, f := 0x9b05688c, g := 0x1f83d9ab, h := 0x5be0cd19 }

/-- The table of R213, row by row: the row of `t` holds K_t, K_{t+1}, K_{t+2} and K_{t+3}. -/
def shaKRows : List (List Word) :=
  [[0x428a2f98, 0x71374491, 0xb5c0fbcf, 0xe9b5dba5],
   [0x3956c25b, 0x59f111f1, 0x923f82a4, 0xab1c5ed5],
   [0xd807aa98, 0x12835b01, 0x243185be, 0x550c7dc3],
   [0x72be5d74, 0x80deb1fe, 0x9bdc06a7, 0xc19bf174],
   [0xe49b69c1, 0xefbe4786, 0x0fc19dc6, 0x240ca1cc],
   [0x2de92c6f, 0x4a7484aa, 0x5cb0a9dc, 0x76f988da],
   [0x983e5152, 0xa831c66d, 0xb00327c8, 0xbf597fc7],
   [0xc6e00bf3, 0xd5a79147, 0x06ca6351, 0x14292967],
   [0x27b70a85, 0x2e1b2138, 0x4d2c6dfc, 0x53380d13],
   [0x650a7354, 0x766a0abb, 0x81c2c92e, 0x92722c85],
   [0xa2bfe8a1, 0xa81a664b, 0xc24b8b70, 0xc76c51a3],
   [0xd192e819, 0xd6990624, 0xf40e3585, 0x106aa070],
   [0x19a4c116, 0x1e376c08, 0x2748774c, 0x34b0bcb5],
   [0x391c0cb3, 0x4ed8aa4a, 0x5b9cca4f, 0x682e6ff3],
   [0x748f82ee, 0x78a5636f, 0x84c87814, 0x8cc70208],
   [0x90befffa, 0xa4506ceb, 0xbef9a3f7, 0xc67178f2]]

/-- The round constants K_0 to K_63 (R213). -/
def shaK : List Word := shaKRows.flatten

/-- Ch (R215). -/
def shaCh (x y z : Word) : Word := (x &&& y) ^^^ (~~~x &&& z)

/-- Maj (R215). -/
def shaMaj (x y z : Word) : Word := (x &&& y) ^^^ (x &&& z) ^^^ (y &&& z)

/-- Σ0 (R215). -/
def shaSum0 (x : Word) : Word := x.rotateRight 2 ^^^ x.rotateRight 13 ^^^ x.rotateRight 22

/-- Σ1 (R215). -/
def shaSum1 (x : Word) : Word := x.rotateRight 6 ^^^ x.rotateRight 11 ^^^ x.rotateRight 25

/-- σ0 (R215). -/
def shaSig0 (x : Word) : Word := x.rotateRight 7 ^^^ x.rotateRight 18 ^^^ (x >>> 3)

/-- σ1 (R215). -/
def shaSig1 (x : Word) : Word := x.rotateRight 17 ^^^ x.rotateRight 19 ^^^ (x >>> 10)

/-- The number of zero bytes of the padding of an `l`-byte message: the least `k` with
`(l + 1 + k + 8) mod 64 = 0` (R211). -/
def shaZeros (l : Nat) : Nat := (64 - (l + 9) % 64) % 64

/-- `Pad(M)` (R211). -/
def shaPad (m : List Byte) : List Byte :=
  m ++ [0x80] ++ List.replicate (shaZeros m.length) 0 ++ be64 (BitVec.ofNat 64 (8 * m.length))

/-- The big-endian words of a block (R211). -/
def wordsBE : List Byte → List Word
  | b0 :: b1 :: b2 :: b3 :: t => fromBE32 b0 b1 b2 b3 :: wordsBE t
  | _ => []

/-- Extend a message schedule by `n` words.  The schedule is held newest word first, so W_{t-i} is
the entry i - 1 (R214). -/
def shaExtend : Nat → List Word → List Word
  | 0, ws => ws
  | n + 1, ws =>
    shaExtend n
      ((shaSig1 (ws.getD 1 0) + ws.getD 6 0 + shaSig0 (ws.getD 14 0) + ws.getD 15 0) :: ws)

/-- The message schedule W_0 to W_63 of a block (R214). -/
def shaSchedule (blk : List Byte) : List Word := (shaExtend 48 (wordsBE blk).reverse).reverse

/-- One round with the constant and schedule word `(K_t, W_t)`; the variables move in the order R214
assigns them. -/
def shaRound (s : Sha) (kw : Word × Word) : Sha :=
  let t1 := s.h + shaSum1 s.e + shaCh s.e s.f s.g + kw.1 + kw.2
  let t2 := shaSum0 s.a + shaMaj s.a s.b s.c
  { h := s.g, g := s.f, f := s.e, e := s.d + t1, d := s.c, c := s.b, b := s.a, a := t1 + t2 }

/-- Word-wise sum of two chaining values (R214). -/
def shaAdd (x y : Sha) : Sha :=
  { a := x.a + y.a, b := x.b + y.b, c := x.c + y.c, d := x.d + y.d
    e := x.e + y.e, f := x.f + y.f, g := x.g + y.g, h := x.h + y.h }

/-- The compression of one 64-byte block into a chaining value (R214). -/
def shaCompress (hv : Sha) (blk : List Byte) : Sha :=
  shaAdd hv ((List.zip shaK (shaSchedule blk)).foldl shaRound hv)

/-- The first `n` 64-byte blocks of a padded message (R211). -/
def shaBlocks : Nat → List Byte → List (List Byte)
  | 0, _ => []
  | n + 1, m => m.take 64 :: shaBlocks n (m.drop 64)

/-- The digest of a chaining value (R216). -/
def shaDigest (s : Sha) : List Byte :=
  be32 s.a ++ be32 s.b ++ be32 s.c ++ be32 s.d ++ be32 s.e ++ be32 s.f ++ be32 s.g ++ be32 s.h

/-- `SHA256(M)` (R210). -/
def sha256 (m : List Byte) : List Byte :=
  let p := shaPad m
  shaDigest ((shaBlocks (p.length / 64) p).foldl shaCompress shaInit)

end Sys2Proof.Machine
end

