-- ==== Sys2Proof/Machine/KeyDerivation.lean ====
section
/-! DEFINITION. The Key Derivation Engine: HMAC-SHA256, PBKDF2 and DERIVE
(spec/42_key_derivation.md R200 to R203, R220 to R234). -/

namespace Sys2Proof.Machine

/-- K1 of HMAC: a key longer than the 64-byte block is hashed, one of 64 bytes is not (R220). -/
def hmacKey1 (k : List Byte) : List Byte := if 64 < k.length then sha256 k else k

/-- K0 of HMAC: K1 filled with zero bytes to 64 (R220). -/
def hmacKey0 (k : List Byte) : List Byte :=
  let k1 := hmacKey1 k
  k1 ++ List.replicate (64 - k1.length) 0

/-- `HMAC(Kp, m)` with SHA-256 (R220). -/
def hmac (k m : List Byte) : List Byte :=
  let k0 := hmacKey0 k
  sha256 (xorBytes k0 (List.replicate 64 0x5C)
    ++ sha256 (xorBytes k0 (List.replicate 64 0x36) ++ m))

/-- `n` more turns of PBKDF2's loop: U becomes HMAC(P, U), and T becomes T ⊕ U (R232). -/
def pbkdf2Loop (p : List Byte) : Nat → List Byte → List Byte → List Byte
  | 0, _, t => t
  | n + 1, u, t =>
    let u' := hmac p u
    pbkdf2Loop p n u' (xorBytes t u')

/-- `F(P, S, c, i)` = U_1 ⊕ … ⊕ U_c (R230).  R230 gives it for c ≥ 1 only: DESIGN CHOICE, c = 0 answers
U_1, which the block never asks for (log 22).  INT(i) is BE32(i), given for a u32 only (R231, 00_scope
R13): DESIGN CHOICE, a block index of 2^32 or more is taken modulo 2^32 (log 23). -/
def pbkdf2F (p s : List Byte) (c i : Nat) : List Byte :=
  let u1 := hmac p (s ++ be32 (BitVec.ofNat 32 i))
  pbkdf2Loop p (c - 1) u1 u1

/-- `PBKDF2_HMAC_SHA256(P, S, c, dkLen)` = T_1 || … || T_l cut to dkLen bytes, with
l = ceil(dkLen / 32) (R230). -/
def pbkdf2 (p s : List Byte) (c dkLen : Nat) : List Byte :=
  ((List.range ((dkLen + 31) / 32)).flatMap fun j => pbkdf2F p s c (j + 1)).take dkLen

/-- The key SVD derives from a passphrase and a salt: c = ITER, dkLen = KEY_LEN (R203, R232).
Irreducible, so that no proof runs its 100000 iterations by accident. -/
@[irreducible] def deriveKey (p s : List Byte) : List Byte := pbkdf2 p s Config.iter Config.keyLen

/-- `DERIVE_core()` (R200), its checks in the order of R202. -/
def deriveCore (s : State) : Except Raise (List Byte) :=
  if s.contValid = false then .error { code := .containerNotValid, info := 0 }
  else if s.build.maxPassLen < s.passLen.toNat then
    .error { code := .lengthOutOfRange, info := 0x00000030 }
  else .ok (deriveKey (opPass s) (opSalt s))

/-- The completion pseudocode of DERIVE up to its result group (R200, R233). -/
def deriveResult (s : State) : Except Raise State :=
  match deriveCore s with
  | .ok dk => .ok (writeKey dk s)
  | .error e => .error e

/-- DERIVE (R200).  IDLE: its acceptance, in the host's CMD write.  BUSY: its completion, in the
engine's step (log 7). -/
def execDerive (s : State) : Host.Outcome State Fault Refusal :=
  match s.phase with
  | .idle => .next (acceptEngine .derive s)
  | .busy => .next (complete .derive (deriveResult s) s)

end Sys2Proof.Machine
end

