-- ==== Sys2Proof/Machine/PipelineControl.lean ====
section
/-! DEFINITION. Pipeline control: RUN and CLEAR (spec/44_pipeline_control.md R335 to R341). -/

namespace Sys2Proof.Machine

/-- The three stages of RUN, each reading what the earlier ones wrote; the first error ends them
(R335, R337). -/
def runResult (s : State) : Except Raise State :=
  match decodeResult s with
  | .error e => .error e
  | .ok s1 =>
    match deriveResult s1 with
    | .error e => .error e
    | .ok s2 => decryptResult s2

/-- RUN (R335).  IDLE: its acceptance, in the host's CMD write.  BUSY: its completion, in the
engine's step; an error clears all three groups, the results of earlier stages among them (R336,
log 7). -/
def execRun (s : State) : Host.Outcome State Fault Refusal :=
  match s.phase with
  | .idle => .next (acceptEngine .run s)
  | .busy => .next (complete .run (runResult s) s)

/-- `ClearComplete()` (R340). -/
def clearComplete (s : State) : State :=
  { clearGroups .clear s with
    inBuf := [], passBuf := [], inLen := 0, passLen := 0
    werr := false, errCode := 0, errInfo := 0, done := true }

/-- CLEAR (R340).  IDLE: acceptance and completion, both in the host's CMD write.  BUSY: a CLEAR is
dropped and sets WERR, and cancels nothing (R333, R340). -/
def execClear (s : State) : Host.Outcome State Fault Refusal :=
  match s.phase with
  | .idle => .next (clearComplete (acceptHead (encode .clear) s))
  | .busy => .next (dropWrite s)

end Sys2Proof.Machine
end

