-- ==== Sys2Proof/Machine/Dispatch.lean ====
section
/-! DEFINITION. The dispatch of a command to its meaning, one arm per command
(spec/44_pipeline_control.md R330, R331). -/

namespace Sys2Proof.Machine

def exec (i : Instr) (s : State) : Host.Outcome State Fault Refusal :=
  match i with
  | .decode => Sys2Proof.Machine.execDecode s
  | .derive => Sys2Proof.Machine.execDerive s
  | .decrypt => Sys2Proof.Machine.execDecrypt s
  | .run => Sys2Proof.Machine.execRun s
  | .clear => Sys2Proof.Machine.execClear s

end Sys2Proof.Machine
end

