-- ==== Sys2Proof/Machine/Bus.lean ====
section
/-! DEFINITION. The host bus: the register map, the windows, the two transactions, and the events
of the machine (spec/10_state.md R32, spec/20_memory.md R80 to R103, spec/44_pipeline_control.md
R330, R331). -/

namespace Sys2Proof.Machine

/-- The registers of the map (10_state R32). -/
inductive Reg where
  | id | cfg0 | cfg1 | cfg2 | cfg3 | cfg4 | ctrl | cmd | status | errCode | errInfo
  | inLen | passLen | decLen | ctLen | outLen | padVal
deriving DecidableEq, Repr

/-- The buffer and view windows of the map (10_state R32). -/
inductive Window where
  | salt | iv | key | pass | input | dec | out
deriving DecidableEq, Repr

/-- What an offset reaches: a register, byte `o` of a window, or nothing (10_state R32). -/
inductive Target where
  | reg (r : Reg)
  | win (w : Window) (o : Nat)
  | reserved
deriving DecidableEq, Repr

/-- The register at an offset (10_state R32). -/
def regAt (a : Nat) : Option Reg :=
  match a with
  | 0x000 => some .id
  | 0x004 => some .cfg0
  | 0x008 => some .cfg1
  | 0x00C => some .cfg2
  | 0x010 => some .cfg3
  | 0x014 => some .cfg4
  | 0x018 => some .ctrl
  | 0x01C => some .cmd
  | 0x020 => some .status
  | 0x024 => some .errCode
  | 0x028 => some .errInfo
  | 0x02C => some .inLen
  | 0x030 => some .passLen
  | 0x034 => some .decLen
  | 0x038 => some .ctLen
  | 0x03C => some .outLen
  | 0x040 => some .padVal
  | _ => none

/-- The window an offset lies in, with the byte offset in it (10_state R32). -/
def windowAt (a : Nat) : Option (Window × Nat) :=
  if 0x060 ≤ a ∧ a < 0x080 then some (.salt, a - 0x060)
  else if 0x080 ≤ a ∧ a < 0x090 then some (.iv, a - 0x080)
  else if 0x090 ≤ a ∧ a < 0x0B0 then some (.key, a - 0x090)
  else if 0x010000 ≤ a ∧ a < 0x020000 then some (.pass, a - 0x010000)
  else if 0x100000 ≤ a ∧ a < 0x200000 then some (.input, a - 0x100000)
  else if 0x200000 ≤ a ∧ a < 0x300000 then some (.dec, a - 0x200000)
  else if 0x300000 ≤ a ∧ a < 0x400000 then some (.out, a - 0x300000)
  else none

/-- The map (10_state R32, R60). -/
def target (a : Offset) : Target :=
  match regAt a.toNat with
  | some r => .reg r
  | none =>
    match windowAt a.toNat with
    | some (w, o) => .win w o
    | none => .reserved

/-- `RegRead(a)` (20_memory R81, 10_state R33 to R56).  The result registers read 0 while their
valid bit is 0 (log 10). -/
def regRead (s : State) : Reg → Word
  | .id => Config.idWord
  | .cfg0 => Config.cfg0Word
  | .cfg1 => Config.cfg1Word
  | .cfg2 => BitVec.ofNat 32 s.build.maxB64Len
  | .cfg3 => BitVec.ofNat 32 s.build.maxPassLen
  | .cfg4 => bitAt s.build.keyReadbackEn 0
  | .ctrl => ctrlWord s
  | .cmd => s.pendCmd
  | .status => statusWord s
  | .errCode => s.errCode.setWidth 32
  | .errInfo => s.errInfo
  | .inLen => s.inLen
  | .passLen => s.passLen
  | .decLen => if s.contValid then s.decLen else 0
  | .ctLen => if s.contValid then s.ctLen else 0
  | .outLen => if s.outValid then s.outLen else 0
  | .padVal => if s.outValid then s.padVal.setWidth 32 else 0

/-- `WinByte(W, o)`: the byte a host read sees (20_memory R85). -/
def winByte (s : State) (w : Window) (o : Nat) : Byte :=
  match w with
  | .salt => if s.contValid && decide (o < 32) then s.decBuf.read o else 0
  | .iv => if s.contValid && decide (o < 16) then s.decBuf.read (32 + o) else 0
  | .key => if s.build.keyReadbackEn && s.keyValid then s.key.toList.getD o 0 else 0
  | .pass => 0
  | .input => if o < s.build.maxB64Len then s.inBuf.read o else 0
  | .dec => if s.contValid && decide (o < s.decLen.toNat) then s.decBuf.read o else 0
  | .out => if s.outValid && decide (o < s.outLen.toNat) then s.outBuf.read o else 0

/-- The word of a window at byte offset `o`, in lane order (20_memory R81, R84). -/
def winWord (s : State) (w : Window) (o : Nat) : Word :=
  wordOfLanes (winByte s w o) (winByte s w (o + 1)) (winByte s w (o + 2)) (winByte s w (o + 3))

/-- Whether a transaction's offset is word-aligned (20_memory R83). -/
def aligned (a : Offset) : Bool := a.extractLsb' 0 2 == 0

/-- The response of a transaction: SLVERR exactly for a misaligned offset (20_memory R83, R103). -/
def busResp (a : Offset) : Resp := if aligned a then .okay else .slverr

/-- The data of `HostRead32(a)` (20_memory R81). -/
def readData (s : State) (a : Offset) : Word :=
  if aligned a then
    match target a with
    | .reg r => regRead s r
    | .win w o => winWord s w o
    | .reserved => 0
  else 0

/-- The DROPPABLE targets of a build: CMD, IN_LEN, PASS_LEN, and the IN and the PASS window within
their capacity (20_memory R82, R96); past it a window offset is a reserved one (10_state R60 to R62).
A word is within capacity when its first byte is (log 9). -/
def droppable (b : Build) : Target → Bool
  | .reg .cmd | .reg .inLen | .reg .passLen => true
  | .win .input o => decide (o < b.maxB64Len)
  | .win .pass o => decide (o < b.maxPassLen)
  | .reg .id | .reg .cfg0 | .reg .cfg1 | .reg .cfg2 | .reg .cfg3 | .reg .cfg4 => false
  | .reg .ctrl | .reg .status | .reg .errCode | .reg .errInfo => false
  | .reg .decLen | .reg .ctLen | .reg .outLen | .reg .padVal => false
  | .win .salt _ | .win .iv _ | .win .key _ | .win .dec _ | .win .out _ => false
  | .reserved => false

/-- `Accept(w)` (44_pipeline_control R330): the word's command runs, or the word is ILLEGAL. -/
def accept (w : Word) (s : State) : Host.Outcome State Fault Refusal :=
  match decode w with
  | .ok i => exec i s
  | .error _ => .next (illegalComplete w s)

/-- The effect of a write that is neither misaligned, unstrobed nor dropped (20_memory R82). -/
def writeTarget (t : Target) (v : Word) (strb : Strobe) (s : State) :
    Host.Outcome State Fault Refusal :=
  match t with
  | .reg .ctrl => .next { s with ie := (merge (ctrlWord s) v strb).getLsbD 0 }
  | .reg .inLen => .next { s with inLen := merge s.inLen v strb }
  | .reg .passLen => .next { s with passLen := merge s.passLen v strb }
  | .reg .cmd => accept (mask v strb) s
  | .reg .status => .next (writeOneToClear (mask v strb) s)
  | .win .input o => .next { s with inBuf := writeLanes s.inBuf s.build.maxB64Len o v strb }
  | .win .pass o => .next { s with passBuf := writeLanes s.passBuf s.build.maxPassLen o v strb }
  | .reg .id | .reg .cfg0 | .reg .cfg1 | .reg .cfg2 | .reg .cfg3 | .reg .cfg4 => .next s
  | .reg .errCode | .reg .errInfo => .next s
  | .reg .decLen | .reg .ctLen | .reg .outLen | .reg .padVal => .next s
  | .win .salt _ | .win .iv _ | .win .key _ | .win .dec _ | .win .out _ => .next s
  | .reserved => .next s

/-- `HostWrite32(a, v, strb)` but for its response (20_memory R82, R83, R88, R96). -/
def hostWrite (a : Offset) (v : Word) (strb : Strobe) (s : State) :
    Host.Outcome State Fault Refusal :=
  if !aligned a then .next s
  else if strb = 0 then .next s
  else if busy s && droppable s.build (target a) then .next (dropWrite s)
  else writeTarget (target a) v strb s

/-- A turn of the engine: while BUSY, Complete for the command in PEND_CMD; while IDLE nothing is
enabled and nothing changes (44_pipeline_control R331, R333, log 4, log 8). -/
def engineTurn (s : State) : Host.Outcome State Fault Refusal :=
  match s.phase with
  | .idle => .next s
  | .busy =>
    match decode s.pendCmd with
    | .ok i => if runsInEngine i then exec i s else .fault .engineWithoutCommand
    | .error _ => .fault .engineWithoutCommand

/-- One event (20_memory R94).  A host transaction leaves what it returns in `reply` (log 5). -/
def runEvent (e : Event) (s : State) : Host.Outcome State Fault Refusal :=
  match e with
  | .read a => .next { s with reply := some (.data (readData s a) (busResp a)) }
  | .write a v strb => hostWrite a v strb { s with reply := some (.written (busResp a)) }
  | .engine => engineTurn s
  | .reset => .next (resetEvent s)

end Sys2Proof.Machine
end

