-- ==== Sys2Proof/Machine/HostAsm.lean ====
section
/-! DEFINITION. The host assembly: its base instructions as bus transactions and the expansions of
its pseudo-instructions (spec/30_encoding.md R127 to R129). -/

namespace Sys2Proof.Machine

/-- The offset of CMD (10_state R32). -/
def offCmd : Offset := 0x00001C

/-- The offset of STATUS (10_state R32). -/
def offStatus : Offset := 0x000020

/-- The offset of IN_LEN (10_state R32). -/
def offInLen : Offset := 0x00002C

/-- The offset of PASS_LEN (10_state R32). -/
def offPassLen : Offset := 0x000030

/-- The offset of OUT_LEN (10_state R32). -/
def offOutLen : Offset := 0x00003C

/-- The base of the PASS window (10_state R32). -/
def basePass : Offset := 0x010000

/-- The base of the IN window (10_state R32). -/
def baseIn : Offset := 0x100000

/-- The base of the OUT window (10_state R32). -/
def baseOut : Offset := 0x300000

/-- The transaction of a base instruction (R127). -/
def hostEvent : HostInstr → Event
  | .rd off => .read off
  | .wr off v => .write off v 0xF
  | .wrs off v s => .write off v s

/-- The words of a text in lane order, missing bytes 0 (R128, 20_memory R84). -/
def packWords : List Byte → List Word
  | [] => []
  | [b0] => [wordOfLanes b0 0 0 0]
  | [b0, b1] => [wordOfLanes b0 b1 0 0]
  | [b0, b1, b2] => [wordOfLanes b0 b1 b2 0]
  | b0 :: b1 :: b2 :: b3 :: t => wordOfLanes b0 b1 b2 b3 :: packWords t

/-- The bytes of words in lane order (R128, 20_memory R84). -/
def unpackWords (ws : List Word) : List Byte :=
  ws.flatMap fun w => [lane w 0, lane w 1, lane w 2, lane w 3]

/-- Write a text to a window word by word, then its length to a length register (R128).  Of a text too
long for the 22-bit offset space or for a u32 length R128 says nothing: DESIGN CHOICE, the offset
base + 4k is taken modulo 2^22 and the length modulo 2^32 (log 21). -/
def loadWindow (base lenOff : Offset) (text : List Byte) : List HostInstr :=
  ((packWords text).zipIdx.map fun wk => .wr (base + BitVec.ofNat 22 (4 * wk.2)) wk.1)
    ++ [.wr lenOff (BitVec.ofNat 32 text.length)]

/-- Whether a loop reads again after it has read the word `w` (R128). -/
def loopsAgain : HostPseudo → Word → Bool
  | .wait, w => w.getLsbD 0
  | .poll _ m x, w => (w &&& m) != x
  | .cmd _, _ => false
  | .loadin _, _ => false
  | .loadpass _, _ => false
  | .ack, _ => false
  | .readout, _ => false

/-- How many reads a loop has issued once its reads have returned the words `ws`: one, and one more
after each word that asks for another turn (R128). -/
def loopReads (again : Word → Bool) : List Word → Nat
  | [] => 1
  | w :: ws => if again w then loopReads again ws + 1 else 1

/-- The number of words `readout` reads for an OUT_LEN of `n`, ceil(n / 4) (R128). -/
def readoutWords (n : Nat) : Nat := (n + 3) / 4

/-- The reads of `readout` that follow the read of OUT_LEN, once that has returned (R128).  As in
`loadWindow`, an offset is taken modulo 2^22 (log 21). -/
def readoutReads : List Word → List HostInstr
  | [] => []
  | n :: _ =>
    (List.range (readoutWords n.toNat)).map fun k => .rd (baseOut + BitVec.ofNat 22 (4 * k))

/-- The expansion of a pseudo-instruction whose reads return the words `ws`, as far as those words
decide it (R128): a loop ends at the first word that does not ask for another turn, and `readout`
reads as many words as the OUT_LEN it has read says (log 16). -/
def expand : HostPseudo → List Word → List HostInstr
  | .cmd i, _ => [.wr offCmd (encode i)]
  | .wait, ws => List.replicate (loopReads (loopsAgain .wait) ws) (.rd offStatus)
  | .poll off m x, ws => List.replicate (loopReads (loopsAgain (.poll off m x)) ws) (.rd off)
  | .loadin text, _ => loadWindow baseIn offInLen text
  | .loadpass text, _ => loadWindow basePass offPassLen text
  | .ack, _ => [.wr offStatus 0x0000000E]
  | .readout, ws => .rd offOutLen :: readoutReads ws

/-- The bytes of the first `n` of the unpacked words (R128). -/
def readoutBytes (n : Nat) (ws : List Word) : List Byte := (unpackWords ws).take n

/-- The bytes B that `readout` binds, from the words it has read, OUT_LEN first (R128). -/
def readoutResult : List Word → List Byte
  | [] => []
  | n :: ws => readoutBytes n.toNat ws

/-- A host program's transactions. -/
def hostEvents (is : List HostInstr) : List Event := is.map hostEvent

/-- A host transaction. -/
def isHostEvent : Event → Bool
  | .read _ => true
  | .write _ _ _ => true
  | .engine => false
  | .reset => false

end Sys2Proof.Machine
end

