-- ==== Sys2Proof/Machine/Step.lean ====
section
/-! DEFINITION. The machine's step: the next event of the schedule, or the engine's turn
(spec/00_scope.md R16, spec/20_memory.md R94), and where an instruction is placed to run next. -/

namespace Sys2Proof.Machine

/-- One step.  The schedule says which agent moves next (log 2); once it is empty the engine has
its turn, so a BUSY engine always completes (44_pipeline_control R332, log 3). -/
def step (s : State) : Host.Outcome State Fault Refusal :=
  match s.pending with
  | [] => engineTurn s
  | e :: rest => runEvent e { s with pending := rest }

/-- The state whose next step runs the command word `w` of `nbits` bits: the engine is IDLE and the
next event is the host's write of the word to CMD, all strobes set (log 6). -/
def State.withFetchWord (s : State) (nbits w : Nat) : State :=
  { s with
    phase := .idle
    pending := .write offCmd (BitVec.ofNat 32 (w % 2 ^ nbits)) 0xF :: s.pending }

end Sys2Proof.Machine
end

