-- ==== Sys2Proof/Machine/HostRun.lean ====
section
/-! DEFINITION. The host assembly run on the machine: which words a run's reads return, and which runs
are runs of a pseudo-instruction (spec/30_encoding.md R127, R128). -/

namespace Sys2Proof.Machine

/-- The words the host reads in the next `n` steps, in order (20_memory R81). -/
def wordsRead : Nat → State → List Word
  | 0, _ => []
  | n + 1, s =>
    match step s with
    | .next t =>
      match s.pending with
      | .read a :: _ => readData s a :: wordsRead n t
      | [] | .write _ _ _ :: _ | .engine :: _ | .reset :: _ => wordsRead n t
    | .fault _ => []
    | .refused _ => []

/-- Whether the next `n` steps are a whole run of a pseudo-instruction: the host transactions among
them are its expansion for the words it reads in them (R128).  Engine steps and resets may come in
between (20_memory R94). -/
def runsPseudo (p : HostPseudo) (n : Nat) (s : State) : Bool :=
  decide ((s.pending.take n).filter isHostEvent = hostEvents (expand p (wordsRead n s)))

end Sys2Proof.Machine
end

