-- ==== Sys2Proof/Safety.lean ====
section
/-! DEFINITION. The terms the claims use: runs of events, the invariants of reachable states
(spec/10_state.md R46 to R48, R66), well-formed UTF-8 as the table of spec/43_cipher_engine.md R290
reads, and a Base64 encoder. -/

namespace Sys2Proof.Machine

/-! ### Runs -/

/-- Go on from a next state; a fault or a refusal ends the run. -/
def andThen (o : Host.Outcome State Fault Refusal)
    (f : State → Host.Outcome State Fault Refusal) : Host.Outcome State Fault Refusal :=
  match o with
  | .next s => f s
  | .fault r => .fault r
  | .refused r => .refused r

/-- A command from its acceptance to its completion, with nothing in between: the function of
00_scope R15. -/
def command (i : Instr) (s : State) : Host.Outcome State Fault Refusal :=
  if runsInEngine i then andThen (exec i s) (exec i) else exec i s

/-- `n` steps of the machine. -/
def steps (n : Nat) (s : State) : Host.Outcome State Fault Refusal := Sys2Proof.core.run n s

/-! ### Invariants -/

/-- Every listed offset of a buffer lies below `cap`. -/
def Memory.below (m : Memory) (cap : Nat) : Bool := m.all fun c => decide (c.1 < cap)

/-- What every reachable state satisfies of its registers and buffers (10_state R42 to R66). -/
structure Inv (s : State) : Prop where
  /-- The build meets 00_scope R9. -/
  build_ok : s.build.ok = true
  /-- The IN buffer is in canonical form and within its capacity. -/
  in_wf : s.inBuf.wf = true
  in_cap : s.inBuf.below s.build.maxB64Len = true
  /-- The PASS buffer is in canonical form and within its capacity. -/
  pass_wf : s.passBuf.wf = true
  pass_cap : s.passBuf.below s.build.maxPassLen = true
  /-- The DEC buffer is in canonical form and holds nothing at or past DEC_LEN. -/
  dec_wf : s.decBuf.wf = true
  dec_cap : s.decBuf.below s.decLen.toNat = true
  /-- The OUT buffer is in canonical form and holds nothing at or past OUT_LEN. -/
  out_wf : s.outBuf.wf = true
  out_cap : s.outBuf.below s.outLen.toNat = true
  /-- An invalid group is all zero (R53 to R56, R66). -/
  cont_off : s.contValid = false → s.decLen = 0 ∧ s.ctLen = 0
  key_off : s.keyValid = false → s.key = Vector.replicate 32 0
  out_off : s.outValid = false → s.outLen = 0 ∧ s.padVal = 0
  /-- The lengths of a valid container (R53, R54, R66). -/
  cont_on : s.contValid = true →
    48 ≤ s.decLen.toNat ∧ s.decLen.toNat ≤ s.build.maxDecLen ∧
      s.ctLen.toNat + 48 = s.decLen.toNat
  /-- The lengths of a valid plaintext (R55, R56). -/
  out_on : s.outValid = true →
    s.outLen.toNat + s.padVal.toNat = s.ctLen.toNat ∧ 1 ≤ s.padVal.toNat
  /-- A valid key has a valid container, a valid plaintext a valid key (R66). -/
  key_cont : s.keyValid = true → s.contValid = true
  out_key : s.outValid = true → s.keyValid = true
  /-- DONE and ERR are never both 1 (R43). -/
  done_err : s.done = true → s.err = false
  /-- While BUSY the command is one the engine completes, nothing of it is reported yet, and the
  groups its acceptance cleared are still invalid (44_pipeline_control R330, R334). -/
  busy_cmd : s.phase = .busy → ∃ i, s.pendCmd = encode i ∧ runsInEngine i = true ∧
    s.outValid = false ∧ (clearsKey i = true → s.keyValid = false) ∧
      (clearsCont i = true → s.contValid = false)
  busy_flags : s.phase = .busy → s.done = false ∧ s.err = false ∧ s.errCode = 0
  /-- ERR_CODE is 0 or a code of the table, ERR comes with a code and DONE with none, and no code
  means no detail word (R49, R50, 60_exceptions R361, R363). -/
  code_table : s.errCode = 0 ∨ ∃ e : ErrorCode, s.errCode = e.code
  err_code : s.err = true → s.errCode ≠ 0
  done_code : s.done = true → s.errCode = 0
  no_code_info : s.errCode = 0 → s.errInfo = 0

/-- What the valid results are (10_state R46 to R48): the container of some text that fits IN, the
key of some passphrase that fits PASS under the container's salt, and the plaintext of the
container's ciphertext under the key. -/
structure Results (s : State) : Prop where
  cont : s.contValid = true → ∃ text : List Byte, text.length ≤ s.build.maxB64Len ∧
    decodeText text = .ok (s.decBuf.readN 0 s.decLen.toNat)
  key : s.keyValid = true → ∃ pass : List Byte, pass.length ≤ s.build.maxPassLen ∧
    opKey s = deriveKey pass (opSalt s)
  out : s.outValid = true →
    decryptCore s = .ok (s.outBuf.readN 0 s.outLen.toNat, s.padVal)

/-! ### UTF-8, as the table reads (43_cipher_engine R290) -/

/-- A continuation byte in a range. -/
def Between (lo hi b : Byte) : Prop := lo ≤ b ∧ b ≤ hi

/-- The nine forms of the table. -/
inductive Utf8Seq : List Byte → Prop
  | one (b : Byte) : Between 0x00 0x7F b → Utf8Seq [b]
  | two (b c : Byte) : Between 0xC2 0xDF b → Between 0x80 0xBF c → Utf8Seq [b, c]
  | threeE0 (c d : Byte) : Between 0xA0 0xBF c → Between 0x80 0xBF d → Utf8Seq [0xE0, c, d]
  | threeLow (b c d : Byte) : Between 0xE1 0xEC b → Between 0x80 0xBF c → Between 0x80 0xBF d →
      Utf8Seq [b, c, d]
  | threeED (c d : Byte) : Between 0x80 0x9F c → Between 0x80 0xBF d → Utf8Seq [0xED, c, d]
  | threeHigh (b c d : Byte) : Between 0xEE 0xEF b → Between 0x80 0xBF c → Between 0x80 0xBF d →
      Utf8Seq [b, c, d]
  | fourF0 (c d e : Byte) : Between 0x90 0xBF c → Between 0x80 0xBF d → Between 0x80 0xBF e →
      Utf8Seq [0xF0, c, d, e]
  | fourMid (b c d e : Byte) : Between 0xF1 0xF3 b → Between 0x80 0xBF c → Between 0x80 0xBF d →
      Between 0x80 0xBF e → Utf8Seq [b, c, d, e]
  | fourF4 (c d e : Byte) : Between 0x80 0x8F c → Between 0x80 0xBF d → Between 0x80 0xBF e →
      Utf8Seq [0xF4, c, d, e]

/-- Well-formed UTF-8: the text splits into sequences of the nine forms, and nothing else. -/
inductive WellFormedUtf8 : List Byte → Prop
  | nil : WellFormedUtf8 []
  | cons (q t : List Byte) : Utf8Seq q → WellFormedUtf8 t → WellFormedUtf8 (q ++ t)

/-! ### A Base64 encoder (41_container_decoder R150, R165, read the other way) -/

/-- The character of a 6-bit value (R150). -/
def base64Char (v : BitVec 6) : Byte :=
  let n := v.toNat
  if n < 26 then BitVec.ofNat 8 (0x41 + n)
  else if n < 52 then BitVec.ofNat 8 (0x61 + (n - 26))
  else if n < 62 then BitVec.ofNat 8 (0x30 + (n - 52))
  else if n = 62 then 0x2B
  else 0x2F

/-- The four characters of three bytes. -/
def base64Quad (a b c : Byte) : List Byte :=
  let x : BitVec 24 := (a.setWidth 24 <<< 16) ||| (b.setWidth 24 <<< 8) ||| c.setWidth 24
  [base64Char (x.extractLsb' 18 6), base64Char (x.extractLsb' 12 6),
   base64Char (x.extractLsb' 6 6), base64Char (x.extractLsb' 0 6)]

/-- The Base64 text of a byte sequence, with one or two `=` where its length is no multiple of 3. -/
def base64Encode : List Byte → List Byte
  | [] => []
  | [a] => (base64Quad a 0 0).take 2 ++ [padChar, padChar]
  | [a, b] => (base64Quad a b 0).take 3 ++ [padChar]
  | a :: b :: c :: t => base64Quad a b c ++ base64Encode t

end Sys2Proof.Machine
end

