-- ==== Sys2Proof/Certificates/Slice0/Obligations.lean ====
section
/-! DEFINITION. The statements for the provers.  Each docstring names the rules of spec/ it rests on. -/

open Sys2Proof Sys2Proof.Machine

/-! ### Encoding -/

/-- The five command words, written out from the table of R122, decode to their commands. -/
def Obligations.FiveCommandWordsDecode : Prop :=
  decode 0x00000001#32 = .ok .decode ∧ decode 0x00000002#32 = .ok .derive ∧
    decode 0x00000003#32 = .ok .decrypt ∧ decode 0x00000004#32 = .ok .run ∧
    decode 0x00000005#32 = .ok .clear

/-- Decode and encode agree, over every 32-bit word: a word and its three fields determine each
other, so no bit of a word is dropped; a word decodes to a command exactly when it is that command's
word; and the words that decode are those with well-formed fields (R120, R122, R123, R125). -/
def Obligations.DecodeGivesExactlyTheEncodedCommand : Prop :=
  (∀ (w : Word) (f : CmdFields), fieldsOfWord w = f ↔ w = wordOfFields f) ∧
  (∀ (w : Word) (i : Instr), i.wellFormed = true ∧ (decode w = .ok i ↔ w = encode i)) ∧
  (∀ w : Word, (∃ i, decode w = .ok i) ↔ (fieldsOfWord w).wellFormed = true)

/-- Which words are legal, and which of the three checks turns an illegal word away first, by the
word's value (R123 to R125). -/
def Obligations.DecodeRejectsByTheFirstFailingField : Prop :=
  ∀ w : Word,
    (decode w = .error .reservedBits ↔ 512 ≤ w.toNat) ∧
    (decode w = .error .padPolicyReserved ↔ 256 ≤ w.toNat ∧ w.toNat < 512) ∧
    (decode w = .error .unknownOpcode ↔ w.toNat = 0 ∨ (6 ≤ w.toNat ∧ w.toNat < 256)) ∧
    ((∃ i, decode w = .ok i) ↔ 1 ≤ w.toNat ∧ w.toNat ≤ 5)

/-! ### Reset and invariants -/

/-- After the reset input, whatever came before, every register and window reads its reset value
and every piece of state R70 names has it; a running command is abandoned (R70, R401).  The events
still to come are not the block's (log 11). -/
def Obligations.ResetGivesEveryResetValue : Prop :=
  ∀ (s : State) (rest : List Event), s.pending = .reset :: rest →
    ∃ t, step s = .next t ∧ t.phase = .idle ∧ t.pendCmd = 0 ∧
      (∀ a : Offset, readData t a =
        if a = 0x000 then 0x53560100
        else if a = 0x004 then 0x10201020
        else if a = 0x008 then 0x000186A0
        else if a = 0x00C then BitVec.ofNat 32 s.build.maxB64Len
        else if a = 0x010 then BitVec.ofNat 32 s.build.maxPassLen
        else if a = 0x014 then (if s.build.keyReadbackEn then 1 else 0)
        else 0) ∧
      (t.done = false ∧ t.err = false ∧ t.werr = false ∧ t.ie = false) ∧
      (∀ o, t.inBuf.read o = 0 ∧ t.passBuf.read o = 0 ∧ t.decBuf.read o = 0 ∧ t.outBuf.read o = 0) ∧
      (∀ j, t.key.toList.getD j 0 = 0) ∧
      (t.contValid = false ∧ t.decLen = 0 ∧ t.ctLen = 0 ∧ t.keyValid = false ∧
        t.outValid = false ∧ t.outLen = 0 ∧ t.padVal = 0) ∧
      irq t = false ∧ t.build = s.build ∧ t.pending = rest

/-- The reset state of every legal build meets both invariants (R66, R70). -/
def Obligations.ResetMeetsTheInvariants : Prop :=
  ∀ b : Build, b.ok = true → Inv (State.resetOf b) ∧ Results (State.resetOf b)

/-- Every step keeps the invariant of the registers and buffers, from every state that meets it
(R43, R53 to R56, R66, R334, R361). -/
def Obligations.EveryStepKeepsTheInvariant : Prop :=
  ∀ s t : State, Inv s → step s = .next t → Inv t

/-- Every step keeps the meaning of the valid bits: the container is a decoded text, the key is the
PBKDF2 key of a passphrase under the container's salt, and OUT is what DECRYPT gives of the
container under the key (R46 to R48). -/
def Obligations.EveryStepKeepsTheResultsTrue : Prop :=
  ∀ s t : State, Inv s → Results s → step s = .next t → Results t

/-- No step of a state that meets the invariant stops: every host transaction completes, every
error leaves the engine ready, and there is no lock-up state (R103, R367). -/
def Obligations.NoStepOfAGoodStateStops : Prop :=
  ∀ s : State, Inv s → ∃ t, step s = .next t ∧ Inv t

/-- The engine leaves BUSY only by completing, with exactly one of DONE and ERR set, or by reset
(R333, R334, R401). -/
def Obligations.BusyEndsOnlyByCompletionOrReset : Prop :=
  ∀ s t : State, Inv s → s.phase = .busy → step s = .next t → t.phase = .idle →
    (∃ rest, s.pending = .reset :: rest ∧ t = { State.resetOf s.build with pending := rest }) ∨
      ((s.pending = [] ∨ ∃ rest, s.pending = .engine :: rest) ∧
        ((t.done = true ∧ t.err = false) ∨ (t.done = false ∧ t.err = true)))

/-- A BUSY engine completes: whatever finite schedule without a reset is still to come, after at
most one step more than its length the engine is IDLE with exactly one of DONE and ERR set (R334).
R332 gives weak fairness and no bound: that the engine completes once the schedule is empty, and the
bound of the schedule's length plus one, are the model's choice (log 3), and steps are no time. -/
def Obligations.BusyCompletesUnderEverySchedule : Prop :=
  ∀ s : State, Inv s → s.phase = .busy → (∀ e ∈ s.pending, e ≠ .reset) →
    ∃ k t, k ≤ s.pending.length + 1 ∧ steps k s = .next t ∧ t.phase = .idle ∧
      ((t.done = true ∧ t.err = false) ∨ (t.done = false ∧ t.err = true))

/-! ### The bus -/

/-- ID, CFG0 and CFG1 read their words in every state, and writes to them are ignored
(R33 to R35). -/
def Obligations.ConstantRegistersReadTheirWords : Prop :=
  ∀ (s : State) (v : Word) (strb : Strobe),
    (readData s 0x000 = 0x53560100 ∧ hostWrite 0x000 v strb s = .next s) ∧
    (readData s 0x004 = 0x10201020 ∧ hostWrite 0x004 v strb s = .next s) ∧
    (readData s 0x008 = 0x000186A0 ∧ hostWrite 0x008 v strb s = .next s)

/-- CFG2, CFG3 and CFG4 read the build parameters in every state, and writes to them are ignored
(R36 to R38). -/
def Obligations.BuildRegistersReadTheParameters : Prop :=
  ∀ (s : State) (v : Word) (strb : Strobe),
    (readData s 0x00C = BitVec.ofNat 32 s.build.maxB64Len ∧ hostWrite 0x00C v strb s = .next s) ∧
    (readData s 0x010 = BitVec.ofNat 32 s.build.maxPassLen ∧ hostWrite 0x010 v strb s = .next s) ∧
    ((readData s 0x014 = if s.build.keyReadbackEn then 1 else 0) ∧
      hostWrite 0x014 v strb s = .next s)

/-- A misaligned transaction answers SLVERR with data 0 and changes nothing of the block (R83,
R368). -/
def Obligations.MisalignedTransactionDoesNothing : Prop :=
  ∀ (s : State) (a : Offset) (v : Word) (strb : Strobe) (rest : List Event),
    a.toNat % 4 ≠ 0 →
    (s.pending = .read a :: rest →
      step s = .next { s with pending := rest, reply := some (.data 0 .slverr) }) ∧
    (s.pending = .write a v strb :: rest →
      step s = .next { s with pending := rest, reply := some (.written .slverr) })

/-- A write with no strobe has no effect at any offset, BUSY or not: it issues no command, clears no
STATUS bit and does not set WERR (R88). -/
def Obligations.UnstrobedWriteDoesNothing : Prop :=
  ∀ (s : State) (a : Offset) (v : Word) (rest : List Event), s.pending = .write a v 0 :: rest →
    step s = .next { s with pending := rest, reply := some (.written (busResp a)) }

/-- Merge takes the strobed lanes of the value and keeps the others, and a write of IN_LEN or
PASS_LEN while IDLE, or of CTRL at any time, acts by it; CTRL's reserved bits stay 0 (R86). -/
def Obligations.RegisterWritesMergeStrobedLanes : Prop :=
  (∀ (r v : Word) (strb : Strobe) (k : Nat), k < 4 →
    lane (merge r v strb) k = if strb.getLsbD k then lane v k else lane r k) ∧
  (∀ (s : State) (v : Word) (strb : Strobe), s.phase = .idle → strb ≠ 0 →
    hostWrite 0x02C v strb s = .next { s with inLen := merge s.inLen v strb } ∧
    hostWrite 0x030 v strb s = .next { s with passLen := merge s.passLen v strb }) ∧
  (∀ (s : State) (v : Word) (strb : Strobe), strb ≠ 0 →
    ∃ t, hostWrite 0x018 v strb s = .next t ∧
      t = { s with ie := if strb.getLsbD 0 then v.getLsbD 0 else s.ie } ∧
      readData t 0x018 = if t.ie then 1 else 0)

/-- Mask keeps the strobed lanes and zeroes the others; a CMD write while IDLE issues the masked
word, and a STATUS write at any time clears DONE, ERR and WERR by the masked bits 1, 2 and 3, so
an unstrobed lane clears nothing (R87, R41). -/
def Obligations.CommandAndStatusWritesActOnMaskedWord : Prop :=
  (∀ (v : Word) (strb : Strobe) (k : Nat), k < 4 →
    lane (mask v strb) k = if strb.getLsbD k then lane v k else 0) ∧
  (∀ (s : State) (v : Word) (strb : Strobe), s.phase = .idle → strb ≠ 0 →
    hostWrite 0x01C v strb s = accept (mask v strb) s) ∧
  (∀ (s : State) (v : Word) (strb : Strobe), strb ≠ 0 →
    hostWrite 0x020 v strb s = .next
      { s with
        done := s.done && !(strb.getLsbD 0 && v.getLsbD 1)
        err := s.err && !(strb.getLsbD 0 && v.getLsbD 2)
        werr := s.werr && !(strb.getLsbD 0 && v.getLsbD 3) })

/-- The byte a host read sees in each of the seven windows: byte lane `k` of the word read at
window offset `o`, a multiple of 4 (R84, R85). -/
def Obligations.HostReadsSeeEachWindowsBytes : Prop :=
  ∀ (s : State) (o k : Nat), o % 4 = 0 → k < 4 →
    (o < 32 → lane (readData s (BitVec.ofNat 22 (0x060 + o))) k =
      if s.contValid then s.decBuf.read (o + k) else 0) ∧
    (o < 16 → lane (readData s (BitVec.ofNat 22 (0x080 + o))) k =
      if s.contValid then s.decBuf.read (32 + (o + k)) else 0) ∧
    (o < 32 → lane (readData s (BitVec.ofNat 22 (0x090 + o))) k =
      if s.build.keyReadbackEn ∧ s.keyValid then s.key.toList.getD (o + k) 0 else 0) ∧
    (o < 0x10000 → lane (readData s (BitVec.ofNat 22 (0x010000 + o))) k = 0) ∧
    (o < 0x100000 → lane (readData s (BitVec.ofNat 22 (0x100000 + o))) k =
      if o + k < s.build.maxB64Len then s.inBuf.read (o + k) else 0) ∧
    (o < 0x100000 → lane (readData s (BitVec.ofNat 22 (0x200000 + o))) k =
      if s.contValid ∧ o + k < s.decLen.toNat then s.decBuf.read (o + k) else 0) ∧
    (o < 0x100000 → lane (readData s (BitVec.ofNat 22 (0x300000 + o))) k =
      if s.outValid ∧ o + k < s.outLen.toNat then s.outBuf.read (o + k) else 0)

/-- A host read leaves the whole block as it was and only returns its data (R67, R81, R90). -/
def Obligations.HostReadChangesNothing : Prop :=
  ∀ (s : State) (a : Offset) (rest : List Event), a.toNat % 4 = 0 →
    s.pending = .read a :: rest →
      step s = .next { s with pending := rest, reply := some (.data (readData s a) .okay) }

/-- A write while IDLE to the IN or the PASS window stores its strobed bytes, those within capacity,
and changes no other byte and no other state (R61, R62, R82). -/
def Obligations.BufferWritesStoreStrobedBytes : Prop :=
  ∀ (s : State) (o : Nat) (v : Word) (strb : Strobe), s.phase = .idle → strb ≠ 0 → o % 4 = 0 →
    (o < 0x100000 → s.inBuf.wf = true →
      ∃ m, hostWrite (BitVec.ofNat 22 (0x100000 + o)) v strb s = .next { s with inBuf := m } ∧
        m.wf = true ∧
        ∀ x, m.read x =
          if o ≤ x ∧ x < o + 4 ∧ x < s.build.maxB64Len ∧ strb.getLsbD (x - o) then lane v (x - o)
          else s.inBuf.read x) ∧
    (o < 0x10000 → s.passBuf.wf = true →
      ∃ m, hostWrite (BitVec.ofNat 22 (0x010000 + o)) v strb s = .next { s with passBuf := m } ∧
        m.wf = true ∧
        ∀ x, m.read x =
          if o ≤ x ∧ x < o + 4 ∧ x < s.build.maxPassLen ∧ strb.getLsbD (x - o) then lane v (x - o)
          else s.passBuf.read x)

/-- While BUSY, a strobed write to CMD, IN_LEN, PASS_LEN, or to an offset of the IN or the PASS window
within its capacity is dropped and sets WERR, a CLEAR word among them; CTRL is written normally; and
a write to any offset outside those registers, STATUS and the two windows changes nothing.  The
response is OKAY (R60, R96; a word that straddles MAX_PASS_LEN: log 9). -/
def Obligations.WritesWhileBusyAreDropped : Prop :=
  ∀ (s : State) (a : Offset) (v : Word) (strb : Strobe), s.phase = .busy → strb ≠ 0 →
    a.toNat % 4 = 0 →
    busResp a = .okay ∧
    ((a = 0x01C ∨ a = 0x02C ∨ a = 0x030 ∨
        (0x100000 ≤ a.toNat ∧ a.toNat < 0x200000 ∧ a.toNat < 0x100000 + s.build.maxB64Len) ∨
        (0x010000 ≤ a.toNat ∧ a.toNat < 0x020000 ∧ a.toNat < 0x010000 + s.build.maxPassLen)) →
      hostWrite a v strb s = .next { s with werr := true }) ∧
    (a = 0x018 → hostWrite a v strb s =
      .next { s with ie := if strb.getLsbD 0 then v.getLsbD 0 else s.ie }) ∧
    (a ≠ 0x01C ∧ a ≠ 0x02C ∧ a ≠ 0x030 ∧ a ≠ 0x018 ∧ a ≠ 0x020 ∧
        ¬ (0x100000 ≤ a.toNat ∧ a.toNat < 0x200000) ∧
        ¬ (0x010000 ≤ a.toNat ∧ a.toNat < 0x020000) →
      hostWrite a v strb s = .next s)

/-- While BUSY, a strobed write to the IN or the PASS window sets WERR exactly where its offset lies
within the window's capacity, and changes nothing past it, where the offset is a reserved one (R60,
R61, R62, R96).  That the offset of the word decides, also for a word whose last bytes lie past
MAX_PASS_LEN, is the model's reading (log 9). -/
def Obligations.BusyWindowWriteSetsWerrExactlyWithinCapacity : Prop :=
  ∀ (s : State) (a : Offset) (v : Word) (strb : Strobe), s.phase = .busy → strb ≠ 0 →
    a.toNat % 4 = 0 →
    (0x100000 ≤ a.toNat → a.toNat < 0x200000 →
      hostWrite a v strb s =
        .next (if a.toNat < 0x100000 + s.build.maxB64Len then { s with werr := true } else s)) ∧
    (0x010000 ≤ a.toNat → a.toNat < 0x020000 →
      hostWrite a v strb s =
        .next (if a.toNat < 0x010000 + s.build.maxPassLen then { s with werr := true } else s))

/-- In every state, IDLE or BUSY: reserved offsets, and the offsets of the IN and PASS windows past
their capacity, read 0 and ignore writes, with response OKAY; DEC and OUT past their lengths read 0;
and every read-only offset past CTRL, CMD and STATUS ignores writes with response OKAY: ERR_CODE,
ERR_INFO, the four result registers, and the SALT, IV, KEY, DEC and OUT windows whole (R32, R60 to
R64).  That a write past the capacity of IN or PASS also leaves WERR as it is while BUSY is the
model's reading (log 9), R82 and R96 naming the windows without a bound. -/
def Obligations.ReservedAndReadOnlyOffsetsIgnoreWrites : Prop :=
  ∀ (s : State) (a : Offset) (v : Word) (strb : Strobe), a.toNat % 4 = 0 →
    ((0x044 ≤ a.toNat ∧ a.toNat < 0x060) ∨ (0x0B0 ≤ a.toNat ∧ a.toNat < 0x010000) ∨
        (0x020000 ≤ a.toNat ∧ a.toNat < 0x100000) ∨
        (0x100000 + s.build.maxB64Len ≤ a.toNat ∧ a.toNat < 0x200000) ∨
        (0x010000 + s.build.maxPassLen ≤ a.toNat ∧ a.toNat < 0x020000) →
      readData s a = 0 ∧ busResp a = .okay ∧ hostWrite a v strb s = .next s) ∧
    ((0x200000 + s.decLen.toNat ≤ a.toNat ∧ a.toNat < 0x300000) ∨
        0x300000 + s.outLen.toNat ≤ a.toNat →
      readData s a = 0) ∧
    (a = 0x024 ∨ a = 0x028 ∨ a = 0x034 ∨ a = 0x038 ∨ a = 0x03C ∨ a = 0x040 ∨
        (0x060 ≤ a.toNat ∧ a.toNat < 0x0B0) ∨ 0x200000 ≤ a.toNat →
      busResp a = .okay ∧ hostWrite a v strb s = .next s)

/-- What a host reads in every state at CTRL, CMD, STATUS bit by bit, ERR_CODE, ERR_INFO, IN_LEN,
PASS_LEN, DEC_LEN, CT_LEN, OUT_LEN and PAD_VAL, the last four 0 while their valid bit is 0 (log 10);
and IRQ as a function of IE, DONE and ERR (R39 to R42, R49 to R56, R370). -/
def Obligations.RegistersReadTheirFieldsAndIrqTheFlags : Prop :=
  ∀ s : State,
    (readData s 0x018 = if s.ie then 1 else 0) ∧
    readData s 0x01C = s.pendCmd ∧
    (∀ k, k < 32 → (readData s 0x020).getLsbD k =
      if k = 0 then decide (s.phase = .busy)
      else if k = 1 then s.done else if k = 2 then s.err else if k = 3 then s.werr
      else if k = 4 then s.contValid else if k = 5 then s.keyValid
      else if k = 6 then s.outValid else false) ∧
    readData s 0x024 = s.errCode.setWidth 32 ∧
    readData s 0x028 = s.errInfo ∧
    readData s 0x02C = s.inLen ∧
    readData s 0x030 = s.passLen ∧
    (readData s 0x034 = if s.contValid then s.decLen else 0) ∧
    (readData s 0x038 = if s.contValid then s.ctLen else 0) ∧
    (readData s 0x03C = if s.outValid then s.outLen else 0) ∧
    (readData s 0x040 = if s.outValid then s.padVal.setWidth 32 else 0) ∧
    irq s = ((readData s 0x018).getLsbD 0 &&
      ((readData s 0x020).getLsbD 1 || (readData s 0x020).getLsbD 2))

/-- With KEY readback built out, no host transaction tells two states apart that differ only in the
KEY register and the PASS buffer: it returns the same, and leaves states that differ only there
(R59, R62, R93, R380). -/
def Obligations.HostTransactionsRevealNoSecret : Prop :=
  ∀ (s : State) (k : Vector Byte 32) (m : Memory) (e : Event) (rest : List Event) (t t' : State),
    s.build.keyReadbackEn = false → s.pending = e :: rest → isHostEvent e = true →
    step s = .next t → step { s with key := k, passBuf := m } = .next t' →
      t'.reply = t.reply ∧ ∃ k' m', t' = { t with key := k', passBuf := m' }

/-- WERR rises only at a host write dropped while BUSY: an aligned, strobed write to CMD, IN_LEN,
PASS_LEN, or to the IN or the PASS window within its capacity (R41, R60, R67, R96; log 9). -/
def Obligations.OnlyADroppedWriteRaisesWerr : Prop :=
  ∀ s t : State, step s = .next t → s.werr = false → t.werr = true →
    s.phase = .busy ∧ ∃ a v strb rest, s.pending = .write a v strb :: rest ∧
      a.toNat % 4 = 0 ∧ strb ≠ 0 ∧
      (a = 0x01C ∨ a = 0x02C ∨ a = 0x030 ∨
        (0x100000 ≤ a.toNat ∧ a.toNat < 0x200000 ∧ a.toNat < 0x100000 + s.build.maxB64Len) ∨
        (0x010000 ≤ a.toNat ∧ a.toNat < 0x020000 ∧ a.toNat < 0x010000 + s.build.maxPassLen))

/-- WERR, once set, stays until a write of 1 to STATUS bit 3, an accepted CLEAR or reset, and does
not drive the interrupt (R45). -/
def Obligations.WerrIsStickyAndRaisesNoInterrupt : Prop :=
  (∀ s t : State, step s = .next t → s.werr = true → t.werr = false →
    (∃ v strb rest, s.pending = .write 0x020 v strb :: rest ∧ strb.getLsbD 0 = true ∧
      v.getLsbD 3 = true) ∨
    (∃ v strb rest, s.pending = .write 0x01C v strb :: rest ∧ s.phase = .idle ∧
      mask v strb = 0x00000005) ∨
    (∃ rest, s.pending = .reset :: rest)) ∧
  (∀ (s : State) (b : Bool), irq { s with werr := b } = irq s)

/-- The KEY register changes only to zero or by a successful DERIVE or RUN completing (R65). -/
def Obligations.KeyIsWrittenOnlyByDeriveAndRun : Prop :=
  ∀ s t : State, step s = .next t → t.key ≠ s.key →
    t.key = Vector.replicate 32 0 ∨
      (s.phase = .busy ∧ (s.pendCmd = 0x00000002 ∨ s.pendCmd = 0x00000004) ∧
        t.done = true ∧ t.keyValid = true ∧ t.phase = .idle)

/-! ### Commands: running, acceptance, CLEAR, illegal words -/

/-- A step runs the decoded command: the word a host writes to CMD while IDLE, and the word in
PEND_CMD at the engine's turn (R330, R331).  The step adds the schedule's advance and, for the
host's write, its OKAY response.  That the engine takes its turn when the schedule is empty is the
model's choice (log 3).  At every write event the step is `hostWrite` after the schedule's advance,
with the transaction's response as its reply (R82, R83); that the reply is held in the state is the
model's choice (log 5). -/
def Obligations.StepRunsTheDecodedCommand : Prop :=
  (∀ (s : State) (v : Word) (strb : Strobe) (rest : List Event) (i : Instr),
    s.pending = .write 0x01C v strb :: rest → s.phase = .idle → strb ≠ 0 →
    decode (mask v strb) = .ok i → i.wellFormed = true →
      step s = exec i { s with pending := rest, reply := some (.written .okay) }) ∧
  (∀ (s : State) (i : Instr), s.phase = .busy → decode s.pendCmd = .ok i →
    i.wellFormed = true → runsInEngine i = true →
      (s.pending = [] → step s = exec i s) ∧
      (∀ rest, s.pending = .engine :: rest → step s = exec i { s with pending := rest })) ∧
  (∀ (s : State) (a : Offset) (v : Word) (strb : Strobe) (rest : List Event),
    s.pending = .write a v strb :: rest →
      step s =
        hostWrite a v strb { s with
          pending := rest
          reply := some (.written (if a.toNat % 4 = 0 then .okay else .slverr)) })

/-- Acceptance of DECODE, DERIVE, DECRYPT and RUN while IDLE: the word goes to PEND_CMD, the flags
and error registers are cleared, the table's groups are cleared, the engine is BUSY, and nothing
else changes (R330). -/
def Obligations.AcceptanceClearsTheTablesGroups : Prop :=
  ∀ s : State, s.phase = .idle →
    exec .decode s = .next
      { s with
        phase := .busy, pendCmd := 1, done := false, err := false, errCode := 0, errInfo := 0
        contValid := false, decBuf := [], decLen := 0, ctLen := 0
        keyValid := false, key := Vector.replicate 32 0
        outValid := false, outBuf := [], outLen := 0, padVal := 0 } ∧
    exec .derive s = .next
      { s with
        phase := .busy, pendCmd := 2, done := false, err := false, errCode := 0, errInfo := 0
        keyValid := false, key := Vector.replicate 32 0
        outValid := false, outBuf := [], outLen := 0, padVal := 0 } ∧
    exec .decrypt s = .next
      { s with
        phase := .busy, pendCmd := 3, done := false, err := false, errCode := 0, errInfo := 0
        outValid := false, outBuf := [], outLen := 0, padVal := 0 } ∧
    exec .run s = .next
      { s with
        phase := .busy, pendCmd := 4, done := false, err := false, errCode := 0, errInfo := 0
        contValid := false, decBuf := [], decLen := 0, ctLen := 0
        keyValid := false, key := Vector.replicate 32 0
        outValid := false, outBuf := [], outLen := 0, padVal := 0 }

/-- CLEAR completes while IDLE, in the state of reset but for CTRL, PEND_CMD and DONE (R341).  The
schedule and the last reply are the model's own and stay. -/
def Obligations.ClearLeavesTheResetStateButThreeFields : Prop :=
  ∀ s : State, s.phase = .idle →
    exec .clear s = .next
      { State.resetOf s.build with
        ie := s.ie, pendCmd := 0x00000005, done := true
        pending := s.pending, reply := s.reply }

/-- An illegal word written to CMD while IDLE ends at once with IllegalCommand and the word, and
changes only PEND_CMD, DONE, ERR, ERR_CODE and ERR_INFO; on a fresh block the word 6 leaves STATUS
4, ERR_CODE 0x10 and ERR_INFO 6 (R345). -/
def Obligations.IllegalWordEndsWithIllegalCommand : Prop :=
  (∀ (s : State) (w : Word) (e : DecodeError), s.phase = .idle → decode w = .error e →
    hostWrite 0x01C w 0xF s = .next
      { s with
        pendCmd := w, done := false, err := true, errCode := 0x10, errInfo := w }) ∧
  (∃ t, hostWrite 0x01C 0x00000006 0xF State.reset = .next t ∧ readData t 0x020 = 0x00000004 ∧
    readData t 0x024 = 0x10 ∧ readData t 0x028 = 0x00000006)

/-- The model's reading (log 7): CLEAR has no engine phase, so its meaning while BUSY is the dropped
write, which only sets WERR (R333, R340). -/
def Obligations.ClearWhileBusyOnlySetsWerr : Prop :=
  ∀ s : State, s.phase = .busy → exec .clear s = .next { s with werr := true }

/-! ### DECODE -/

/-- DECODE completes with the container of every accepted text that fits IN: DEC, DEC_LEN, CT_LEN
and CONT_VALID are written, DONE is set, the engine is IDLE, and nothing else changes; and every
container of at least 48 bytes is what its canonical Base64 text decodes to (R160, R163, R165,
R168). -/
def Obligations.DecodeRecoversEveryEncodedContainer : Prop :=
  (∀ (s : State) (d : List Byte), s.phase = .busy → s.inLen.toNat ≤ s.build.maxB64Len →
    decodeText (opText s) = .ok d →
      exec .decode s = .next
        { s with
          decBuf := s.decBuf.writeN 0 d
          decLen := BitVec.ofNat 32 d.length
          ctLen := BitVec.ofNat 32 (d.length - 48)
          contValid := true, done := true, phase := .idle }) ∧
  (∀ d : List Byte, 48 ≤ d.length → decodeText (base64Encode d) = .ok d)

/-- The texts DECODE accepts and what they decode to: legal characters, then at most two `=`, a
length that is a multiple of 4, and at least 48 bytes, which are the groups' bytes with one dropped
for each `=`.  The legal characters are those of R150's table, in its order, and no others; `=` is
legal beside them and has no value.  Discarded bits are not checked: texts whose final groups differ
in them alone, in the low 4 bits of v_1 before `==` or the low 2 bits of v_2 before `=`, have the
same outcome, and `QR==` decodes as `QQ==` (R150 to R152, R162 to R168). -/
def Obligations.AcceptedTextsAreExactlyTheLegalOnes : Prop :=
  (∀ (t d : List Byte), decodeText t = .ok d ↔
    ∃ (body : List Byte) (q : Nat), t = body ++ List.replicate q 0x3D ∧ q ≤ 2 ∧
      (∀ c ∈ body, (base64Val c).isSome = true) ∧ t.length % 4 = 0 ∧
      48 + q ≤ 3 * (t.length / 4) ∧ d = (base64Groups t).take (3 * (t.length / 4) - q)) ∧
  (∀ c : Byte,
    ((base64Val c).isSome = true ↔
      (0x41 ≤ c.toNat ∧ c.toNat ≤ 0x5A) ∨ (0x61 ≤ c.toNat ∧ c.toNat ≤ 0x7A) ∨
        (0x30 ≤ c.toNat ∧ c.toNat ≤ 0x39) ∨ c = 0x2B ∨ c = 0x2F) ∧
    (legalChar c = true ↔ (base64Val c).isSome = true ∨ c = 0x3D) ∧
    ∀ v : BitVec 6, base64Val c = some v ↔
      (List.range' 0x41 26 ++ List.range' 0x61 26 ++ List.range' 0x30 10 ++ [0x2B, 0x2F])[v.toNat]? =
        some c.toNat) ∧
  (∀ (front : List Byte) (c0 c1 c2 e : Byte) (u v : BitVec 6), base64Val e = some v →
    (base64Val c1 = some u → u >>> 4 = v >>> 4 →
      decodeText (front ++ [c0, c1, 0x3D, 0x3D]) = decodeText (front ++ [c0, e, 0x3D, 0x3D])) ∧
    (base64Val c2 = some u → u >>> 2 = v >>> 2 →
      decodeText (front ++ [c0, c1, c2, 0x3D]) = decodeText (front ++ [c0, c1, e, 0x3D]))) ∧
  (base64Groups [0x51, 0x52, 0x3D, 0x3D]).take 1 = [0x41] ∧
  (base64Groups [0x51, 0x51, 0x3D, 0x3D]).take 1 = [0x41]

/-- What DECODE reports when it fails, the first failing check in the order of R169: the range
check, the length, the first bad character, the padding, the least length (R161, R162, R164, R165,
R167, R169). -/
def Obligations.DecodeReportsTheFirstFailure : Prop :=
  ∀ (s : State) (t : List Byte), s.phase = .busy → t = opText s →
    (s.build.maxB64Len < s.inLen.toNat →
      exec .decode s = .next
        { s with errCode := 0x13, errInfo := 0x2C, err := true, phase := .idle }) ∧
    (s.inLen.toNat ≤ s.build.maxB64Len → t.length % 4 ≠ 0 →
      exec .decode s = .next
        { s with
          errCode := 0x01, errInfo := 0x10000000#32 ||| BitVec.ofNat 32 t.length
          err := true, phase := .idle }) ∧
    (s.inLen.toNat ≤ s.build.maxB64Len → t.length % 4 = 0 →
      (∀ i, i < t.length → legalChar (t.getD i 0) = false →
        (∀ j, j < i → legalChar (t.getD j 0) = true) →
        exec .decode s = .next
          { s with
            errCode := 0x01, errInfo := 0x20000000#32 ||| BitVec.ofNat 32 i
            err := true, phase := .idle }) ∧
      ((∀ c ∈ t, legalChar c = true) →
        (∀ k, k < t.length → t.getD k 0 = 0x3D → (∀ j, j < k → t.getD j 0 ≠ 0x3D) →
          (k + 2 < t.length ∨ ∃ j, k < j ∧ j < t.length ∧ t.getD j 0 ≠ 0x3D) →
          exec .decode s = .next
            { s with
              errCode := 0x01, errInfo := 0x30000000#32 ||| BitVec.ofNat 32 k
              err := true, phase := .idle }) ∧
        (∀ (body : List Byte) (q : Nat), t = body ++ List.replicate q 0x3D → q ≤ 2 →
          (∀ c ∈ body, c ≠ 0x3D) → 3 * (t.length / 4) - q < 48 →
          exec .decode s = .next
            { s with
              errCode := 0x01
              errInfo := 0x40000000#32 ||| BitVec.ofNat 32 (3 * (t.length / 4) - q)
              err := true, phase := .idle })))

/-! ### DERIVE -/

/-- DERIVE completes with the PBKDF2 key of PASS[0:PASS_LEN] under SALT: KEY and KEY_VALID are
written, DONE is set, the engine is IDLE, and nothing else changes (R200, R201, R233). -/
def Obligations.DeriveWritesThePassphrasesKey : Prop :=
  ∀ s : State, s.phase = .busy → s.contValid = true → s.passLen.toNat ≤ s.build.maxPassLen →
    ∃ t, exec .derive s = .next t ∧
      t = { s with key := t.key, keyValid := true, done := true, phase := .idle } ∧
      t.key.toList =
        deriveKey (s.passBuf.readN 0 s.passLen.toNat) (s.decBuf.readN 0 32)

/-- DERIVE's errors, in the order of its checks (R202). -/
def Obligations.DeriveReportsTheFirstFailure : Prop :=
  ∀ s : State, s.phase = .busy →
    (s.contValid = false →
      exec .derive s = .next
        { s with errCode := 0x11, errInfo := 0, err := true, phase := .idle }) ∧
    (s.contValid = true → s.build.maxPassLen < s.passLen.toNat →
      exec .derive s = .next
        { s with errCode := 0x13, errInfo := 0x30, err := true, phase := .idle })

/-- The derived key is the 32 bytes U_1 ⊕ … ⊕ U_100000, with U_1 = HMAC(P, S || 00 00 00 01) and
U_j = HMAC(P, U_{j-1}): 99999 turns of the loop after U_1 (R230 to R232). -/
def Obligations.DerivedKeyXorsOneHundredThousandHmacs : Prop :=
  ∀ (p s u1 : List Byte), u1 = hmac p (s ++ [0x00, 0x00, 0x00, 0x01]) →
    deriveKey p s =
        (List.range 99999).foldl (fun t j => xorBytes t ((hmac p)^[j + 1] u1)) u1 ∧
      (deriveKey p s).length = 32

/-- SHA-256's padding: 0x80, then the least number of zero bytes that makes the whole, with the
8-byte bit length, a multiple of 64 bytes (R211). -/
def Obligations.ShaPaddingFillsWholeBlocks : Prop :=
  ∀ m : List Byte, ∃ k,
    shaPad m = m ++ [0x80] ++ List.replicate k 0x00 ++ be64 (BitVec.ofNat 64 (8 * m.length)) ∧
    (m.length + 1 + k + 8) % 64 = 0 ∧ (∀ j, j < k → (m.length + 1 + j + 8) % 64 ≠ 0) ∧
    (shaPad m).length % 64 = 0

/-- HMAC hashes a key longer than 64 bytes, and no other; a shorter key acts as if filled with zero
bytes; the inner and outer pads are 0x36 and 0x5C; and HMAC("Jefe", "what do ya want for nothing?")
is R220's example (R220). -/
def Obligations.HmacHashesOnlyKeysOverOneBlock : Prop :=
  (∀ k m : List Byte,
    (64 < k.length → hmac k m = hmac (sha256 k) m) ∧
    (k.length < 64 → hmac (k ++ [0x00]) m = hmac k m) ∧
    (k.length = 64 →
      hmac k m = sha256 (k.map (· ^^^ 0x5C) ++ sha256 (k.map (· ^^^ 0x36) ++ m)))) ∧
  hmac [0x4a, 0x65, 0x66, 0x65]
      [0x77, 0x68, 0x61, 0x74, 0x20, 0x64, 0x6f, 0x20, 0x79, 0x61, 0x20, 0x77, 0x61, 0x6e,
       0x74, 0x20, 0x66, 0x6f, 0x72, 0x20, 0x6e, 0x6f, 0x74, 0x68, 0x69, 0x6e, 0x67, 0x3f] =
    [0x5b, 0xdc, 0xc1, 0x46, 0xbf, 0x60, 0x75, 0x4e, 0x6a, 0x04, 0x24, 0x26, 0x08, 0x95, 0x75, 0xc7,
     0x5a, 0x00, 0x3f, 0x08, 0x9d, 0x27, 0x39, 0x83, 0x9d, 0xec, 0x58, 0xb9, 0x64, 0xec, 0x38, 0x43]

/-! ### DECRYPT -/

/-- SBOX[x] is the affine image of the inverse of x in GF(2^8), plus 0x63, with 0 for the inverse
of 0 (R251, R252). -/
def Obligations.SboxIsTheAffineImageOfTheInverse : Prop :=
  let affine := fun b : Byte =>
    b ^^^ b.rotateLeft 1 ^^^ b.rotateLeft 2 ^^^ b.rotateLeft 3 ^^^ b.rotateLeft 4
  sbox 0 = affine 0 ^^^ 0x63 ∧
    ∀ x : Byte, x ≠ 0 → ∃ y, gmul x y = 1 ∧ sbox x = affine y ^^^ 0x63

/-- INV_SBOX is the inverse permutation of SBOX (R253). -/
def Obligations.InverseSboxUndoesSbox : Prop :=
  ∀ x : Byte, invSbox (sbox x) = x ∧ sbox (invSbox x) = x

/-- AES256_Dec is a bijection on 16-byte blocks for each key, and takes the FIPS 197 C.3 block to
its plaintext (R261).  That it answers 16 bytes for a block of another length too is the model's
choice (log 14). -/
def Obligations.InverseCipherIsABijection : Prop :=
  (∀ k : List Byte, k.length = 32 →
    (∀ c, (aes256Dec k c).length = 16) ∧
    (∀ c d, c.length = 16 → d.length = 16 → aes256Dec k c = aes256Dec k d → c = d) ∧
    (∀ p, p.length = 16 → ∃ c, c.length = 16 ∧ aes256Dec k c = p)) ∧
  aes256Dec ((List.range 32).map (BitVec.ofNat 8))
      [0x8e, 0xa2, 0xb7, 0xca, 0x51, 0x67, 0x45, 0xbf, 0xea, 0xfc, 0x49, 0x90, 0x4b, 0x49, 0x60, 0x89]
    = [0x00, 0x11, 0x22, 0x33, 0x44, 0x55, 0x66, 0x77, 0x88, 0x99, 0xaa, 0xbb, 0xcc, 0xdd, 0xee, 0xff]

/-- CBC decryption block by block: block j of the plaintext is the decrypted block j plus the block
before it, the IV for block 0 (R270). -/
def Obligations.CbcChainsThePreviousBlock : Prop :=
  ∀ (k iv c : List Byte) (n : Nat), iv.length = 16 → c.length = 16 * n →
    (cbcDec k iv c).length = 16 * n ∧
    ∀ j, j < n →
      ((cbcDec k iv c).drop (16 * j)).take 16 =
        xorBytes (aes256Dec k ((c.drop (16 * j)).take 16))
          (if j = 0 then iv else (c.drop (16 * (j - 1))).take 16)

/-- The UTF-8 check passes exactly the well-formed texts of the table (R290, R291). -/
def Obligations.Utf8CheckPassesExactlyTheWellFormedTexts : Prop :=
  ∀ t : List Byte, utf8FirstError t = none ↔ WellFormedUtf8 t

/-- The offset the UTF-8 check reports is that of the first sequence that is not well-formed: the
text before it is well-formed, and no sequence of the table begins there (R291). -/
def Obligations.Utf8ErrorOffsetIsTheFirstIllFormedSequence : Prop :=
  ∀ (t : List Byte) (e : Nat), utf8FirstError t = some e →
    e < t.length ∧ WellFormedUtf8 (t.take e) ∧ ¬ ∃ q rest, Utf8Seq q ∧ t.drop e = q ++ rest

/-- DECRYPT completes where the container and the key are valid, the ciphertext is a positive number
of whole blocks, the last decrypted byte p is from 1 to n, and the text without its last p bytes is
well-formed UTF-8; the other padding bytes are not looked at.  OUT, OUT_LEN, PAD_VAL and OUT_VALID
are written, DONE is set, the engine is IDLE, and nothing else changes (R280, R283, R292, R300). -/
def Obligations.DecryptWritesTheTruncatedPlaintext : Prop :=
  ∀ (s : State) (b : List Byte) (p : Byte), s.phase = .busy → s.contValid = true →
    s.keyValid = true → 0 < s.ctLen.toNat → s.ctLen.toNat % 16 = 0 →
    b = cbcDec s.key.toList (s.decBuf.readN 32 16) (s.decBuf.readN 48 s.ctLen.toNat) →
    b.getLast? = some p → 1 ≤ p.toNat → p.toNat ≤ b.length →
    WellFormedUtf8 (b.take (b.length - p.toNat)) →
      exec .decrypt s = .next
        { s with
          outBuf := s.outBuf.writeN 0 (b.take (b.length - p.toNat))
          outLen := BitVec.ofNat 32 (s.ctLen.toNat - p.toNat)
          padVal := p, outValid := true, done := true, phase := .idle }

/-- DECRYPT's errors, the first failing check in the order of R302, with ERR_INFO (R281, R282, R293,
R301). -/
def Obligations.DecryptReportsTheFirstFailure : Prop :=
  ∀ (s : State) (b : List Byte) (p : Byte), s.phase = .busy →
    b = cbcDec s.key.toList (s.decBuf.readN 32 16) (s.decBuf.readN 48 s.ctLen.toNat) →
    (s.contValid = false →
      exec .decrypt s = .next
        { s with errCode := 0x11, errInfo := 0, err := true, phase := .idle }) ∧
    (s.contValid = true → s.keyValid = false →
      exec .decrypt s = .next
        { s with errCode := 0x12, errInfo := 0, err := true, phase := .idle }) ∧
    (s.contValid = true → s.keyValid = true →
      (s.ctLen.toNat = 0 ∨ s.ctLen.toNat % 16 ≠ 0 →
        exec .decrypt s = .next
          { s with errCode := 0x02, errInfo := s.ctLen, err := true, phase := .idle }) ∧
      (0 < s.ctLen.toNat → s.ctLen.toNat % 16 = 0 → b.getLast? = some p →
        (p.toNat = 0 ∨ s.ctLen.toNat < p.toNat →
          exec .decrypt s = .next
            { s with
              errCode := 0x03, errInfo := (s.ctLen <<< 8) ||| p.setWidth 32
              err := true, phase := .idle }) ∧
        (1 ≤ p.toNat → p.toNat ≤ s.ctLen.toNat → ∀ e,
          utf8FirstError (b.take (s.ctLen.toNat - p.toNat)) = some e →
          exec .decrypt s = .next
            { s with
              errCode := 0x04, errInfo := BitVec.ofNat 32 e, err := true, phase := .idle })))

/-- DECRYPT keeps the container and the key, and DECRYPT again gives the same end state (R304). -/
def Obligations.DecryptCanBeRepeated : Prop :=
  ∀ s t : State, s.phase = .idle → command .decrypt s = .next t →
    t.key = s.key ∧ t.keyValid = s.keyValid ∧ t.decBuf = s.decBuf ∧ t.decLen = s.decLen ∧
      t.ctLen = s.ctLen ∧ t.contValid = s.contValid ∧ command .decrypt t = .next t

/-! ### RUN -/

/-- RUN completes where IN holds the Base64 text of a container `d` whose ciphertext is a positive
number of whole blocks, PASS_LEN is within capacity, and the decrypted buffer `b` under the
passphrase's key ends in a count p from 1 to its length that leaves well-formed UTF-8.  All three
groups are written, DONE is set, the engine is IDLE, and nothing else changes (R335).  Of the texts
DECODE accepts this covers the canonical ones; RunEqualsTheThreeCommandsInTurn, with
DecodeRecoversEveryEncodedContainer, covers those whose discarded bits are not 0 (R166). -/
def Obligations.RunDecryptsTheWholeContainer : Prop :=
  ∀ (s : State) (d dk b : List Byte) (p : Byte), s.phase = .busy → s.decBuf.wf = true →
    s.inLen.toNat ≤ s.build.maxB64Len → opText s = base64Encode d →
    48 < d.length → d.length % 16 = 0 →
    s.passLen.toNat ≤ s.build.maxPassLen →
    dk = deriveKey (s.passBuf.readN 0 s.passLen.toNat) (d.take 32) →
    b = cbcDec dk ((d.drop 32).take 16) (d.drop 48) →
    b.getLast? = some p → 1 ≤ p.toNat → p.toNat ≤ b.length →
    WellFormedUtf8 (b.take (b.length - p.toNat)) →
      ∃ t, exec .run s = .next t ∧
        t = { s with
          decBuf := s.decBuf.writeN 0 d
          decLen := BitVec.ofNat 32 d.length
          ctLen := BitVec.ofNat 32 (d.length - 48)
          contValid := true
          key := t.key, keyValid := true
          outBuf := s.outBuf.writeN 0 (b.take (b.length - p.toNat))
          outLen := BitVec.ofNat 32 (b.length - p.toNat)
          padVal := p, outValid := true, done := true, phase := .idle } ∧
        t.key.toList = dk

/-- RUN is all-or-nothing.  From any IDLE state, RUN succeeds exactly when DECODE, DERIVE and
DECRYPT in turn all succeed, and then ends as they do but for PEND_CMD; otherwise it reports the
error of the first of them that fails, and ends as that command does but with all three groups
cleared and its own PEND_CMD, where the commands in turn keep the groups of those that succeeded
(R336). -/
def Obligations.RunEqualsTheThreeCommandsInTurn : Prop :=
  ∀ s : State, s.phase = .idle →
    ∃ t s1, command .run s = .next t ∧ command .decode s = .next s1 ∧
      (s1.err = true → s1.done = false ∧ t = { clearGroups .run s1 with pendCmd := encode .run }) ∧
      (s1.err = false → s1.done = true ∧
        ∃ s2, command .derive s1 = .next s2 ∧
          s2.contValid = true ∧ s2.decBuf = s1.decBuf ∧ s2.decLen = s1.decLen ∧
          s2.ctLen = s1.ctLen ∧
          (s2.err = true →
            s2.done = false ∧ t = { clearGroups .run s2 with pendCmd := encode .run }) ∧
          (s2.err = false → s2.done = true ∧
            ∃ s3, command .decrypt s2 = .next s3 ∧
              s3.contValid = true ∧ s3.decBuf = s2.decBuf ∧ s3.decLen = s2.decLen ∧
              s3.ctLen = s2.ctLen ∧ s3.keyValid = true ∧ s3.key = s2.key ∧
              (s3.err = true →
                s3.done = false ∧ t = { clearGroups .run s3 with pendCmd := encode .run }) ∧
              (s3.err = false → s3.done = true ∧ t = { s3 with pendCmd := encode .run })))

/-- RUN's completion never reports ContainerNotValid or KeyNotValid (R337). -/
def Obligations.RunNeverLacksContainerOrKey : Prop :=
  ∀ s t : State, s.phase = .busy → s.errCode = 0 → exec .run s = .next t →
    t.errCode ≠ 0x11 ∧ t.errCode ≠ 0x12

/-- A command's outcome does not depend on what the host does while it runs: any number of host
transactions between acceptance and completion leave the same end state but for IE, WERR and the
last reply (R15, R95, R96, R332). -/
def Obligations.CompletionIgnoresHostTraffic : Prop :=
  ∀ (s : State) (es rest : List Event), Inv s → s.phase = .busy → (∀ e ∈ es, isHostEvent e = true) →
    ∃ t t', steps 1 { s with pending := .engine :: rest } = .next t ∧
      steps (es.length + 1) { s with pending := es ++ .engine :: rest } = .next t' ∧
      t' = { t with ie := t'.ie, werr := t'.werr, reply := t'.reply }

/-! ### Frames -/

/-- What DECODE, DERIVE, DECRYPT and RUN leave alone, accepted or completed, whatever the outcome:
the inputs and their lengths, byte by byte, CTRL.IE, WERR, the build, the schedule and the last
reply (R330, R362). -/
def Obligations.CommandsLeaveTheInputsAlone : Prop :=
  ∀ (i : Instr) (s t : State), runsInEngine i = true → exec i s = .next t →
    (∀ a, t.inBuf.read a = s.inBuf.read a) ∧ (∀ a, t.passBuf.read a = s.passBuf.read a) ∧
      t.inLen = s.inLen ∧ t.passLen = s.passLen ∧ t.ie = s.ie ∧ t.werr = s.werr ∧
      t.build = s.build ∧ t.pending = s.pending ∧ t.reply = s.reply ∧
      (s.phase = .busy → t.pendCmd = s.pendCmd)

/-- Where a completion stores, byte by byte: DECODE only to DEC[0 : DEC_LEN], DERIVE to no buffer,
DECRYPT only to OUT[0 : OUT_LEN], and each keeps the other groups' registers; RUN stores to both
when it succeeds, and leaves both all zero when it fails (R121, R336, R356, R362). -/
def Obligations.CompletionsStoreOnlyTheirResult : Prop :=
  ∀ s t : State, s.phase = .busy → s.decBuf.wf = true → s.outBuf.wf = true →
    (exec .decode s = .next t →
      (∀ d, decodeCore s = .ok d → ∀ a, d.length ≤ a → t.decBuf.read a = s.decBuf.read a) ∧
      (∀ e, decodeCore s = .error e → t.decBuf = s.decBuf ∧ t.decLen = s.decLen ∧
        t.ctLen = s.ctLen ∧ t.contValid = s.contValid) ∧
      (∀ a, t.outBuf.read a = s.outBuf.read a) ∧ t.key = s.key ∧ t.keyValid = s.keyValid ∧
      t.outLen = s.outLen ∧ t.padVal = s.padVal ∧ t.outValid = s.outValid) ∧
    (exec .derive s = .next t →
      (∀ a, t.decBuf.read a = s.decBuf.read a) ∧ (∀ a, t.outBuf.read a = s.outBuf.read a) ∧
      t.decLen = s.decLen ∧ t.ctLen = s.ctLen ∧ t.contValid = s.contValid ∧
      t.outLen = s.outLen ∧ t.padVal = s.padVal ∧ t.outValid = s.outValid ∧
      (t.err = true → s.err = false → t.key = s.key ∧ t.keyValid = s.keyValid)) ∧
    (exec .decrypt s = .next t →
      (∀ a, t.decBuf.read a = s.decBuf.read a) ∧
      (∀ tp, decryptCore s = .ok tp → ∀ a, tp.1.length ≤ a →
        t.outBuf.read a = s.outBuf.read a) ∧
      (∀ e, decryptCore s = .error e → t.outBuf = s.outBuf ∧ t.outLen = s.outLen ∧
        t.padVal = s.padVal ∧ t.outValid = s.outValid) ∧
      t.decLen = s.decLen ∧ t.ctLen = s.ctLen ∧ t.contValid = s.contValid ∧
      t.key = s.key ∧ t.keyValid = s.keyValid) ∧
    (exec .run s = .next t → s.done = false →
      (t.done = true →
        ∃ d, decodeCore s = .ok d ∧ (∀ a, d.length ≤ a → t.decBuf.read a = s.decBuf.read a) ∧
          ∀ a, t.outLen.toNat ≤ a → t.outBuf.read a = s.outBuf.read a) ∧
      (t.done = false →
        (∀ a, t.decBuf.read a = 0 ∧ t.outBuf.read a = 0) ∧ t.key = Vector.replicate 32 0 ∧
        t.contValid = false ∧ t.keyValid = false ∧ t.outValid = false))

/-- DECODE reads only IN_LEN, IN[0 : IN_LEN] and MAX_B64_LEN, and DERIVE only CONT_VALID, the salt,
PASS_LEN, PASS[0 : PASS_LEN] and MAX_PASS_LEN: states that agree there get the same outcome, so the
tails of the buffers are not read (R170, R201, R203). -/
def Obligations.CommandsReadOnlyTheirOperands : Prop :=
  ∀ s t : State,
    (s.inLen = t.inLen → s.build.maxB64Len = t.build.maxB64Len →
      (∀ j, j < s.inLen.toNat → s.inBuf.read j = t.inBuf.read j) →
        decodeCore s = decodeCore t) ∧
    (s.contValid = t.contValid → s.passLen = t.passLen →
      s.build.maxPassLen = t.build.maxPassLen →
      (∀ j, j < s.passLen.toNat → s.passBuf.read j = t.passBuf.read j) →
      (∀ j, j < 32 → s.decBuf.read j = t.decBuf.read j) → deriveCore s = deriveCore t)

/-! ### Host assembly -/

/-- `loadin` places its text: after its transactions, from an IDLE state, IN_LEN is the text's
length, DECODE's operand is the text, the bytes of the last word past the text are 0, IN past that
word reads as before, and nothing else changes but the schedule and the last reply (R84, R128,
R129). -/
def Obligations.LoadinPlacesTheText : Prop :=
  ∀ (s : State) (text : List Byte) (rest : List Event), Inv s → s.phase = .idle →
    text.length ≤ s.build.maxB64Len →
    s.pending = hostEvents (expand (.loadin text) []) ++ rest →
      ∃ t, steps (expand (.loadin text) []).length s = .next t ∧
        t.inLen = BitVec.ofNat 32 text.length ∧ opText t = text ∧
        (∀ o, text.length ≤ o → t.inBuf.read o =
          if o < 4 * ((text.length + 3) / 4) then 0 else s.inBuf.read o) ∧
        t = { s with inBuf := t.inBuf, inLen := t.inLen, pending := rest, reply := t.reply }

/-- A run of `wait` reads STATUS while BUSY: any number of reads, the engine's step and one more read
are a run of it from a BUSY state, it ends with the engine IDLE, and so does every run of it.  Steps
are a whole run of `poll` exactly where their host transactions are reads of its offset, some number
of words whose masked value is not the expected one and then one word whose masked value is: so no
steps with fewer of the reads are one.  `wait` is `poll` of STATUS for BUSY = 0 (R128, R332; what a
run of a pseudo-instruction is: log 16). -/
def Obligations.WaitAndPollStopAtTheFirstWordAskedFor : Prop :=
  (∀ (s : State) (k : Nat) (rest : List Event), Inv s → s.phase = .busy →
    s.pending = List.replicate k (.read 0x020) ++ .engine :: .read 0x020 :: rest →
      runsPseudo .wait (k + 2) s = true ∧ ∃ t, steps (k + 2) s = .next t ∧ t.phase = .idle) ∧
  (∀ (s t : State) (n : Nat), runsPseudo .wait n s = true → steps n s = .next t →
    t.phase = .idle) ∧
  (∀ (s t : State) (a : Offset) (m x : Word) (n : Nat), steps n s = .next t →
    (runsPseudo (.poll a m x) n s = true ↔
      (∀ e ∈ s.pending.take n, isHostEvent e = true → e = .read a) ∧
        ∃ (ws : List Word) (w : Word), wordsRead n s = ws ++ [w] ∧
          (∀ u ∈ ws, u &&& m ≠ x) ∧ w &&& m = x)) ∧
  (∀ (s : State) (a : Offset) (m x : Word) (rest : List Event), s.pending = .read a :: rest →
    (runsPseudo (.poll a m x) 1 s = true ↔ readData s a &&& m = x)) ∧
  (∀ (s : State) (n : Nat), runsPseudo .wait n s = runsPseudo (.poll 0x020 1 0) n s)

/-- `readout` binds the plaintext: its transactions, the read of OUT_LEN and then one read for every
four bytes, are a run of it (log 16), the bytes bound are OUT[0 : OUT_LEN], and only the schedule and
the last reply change (R128). -/
def Obligations.ReadoutBindsThePlaintext : Prop :=
  ∀ (s : State) (n : Nat) (rest : List Event), Inv s → s.outValid = true →
    n = 1 + (s.outLen.toNat + 3) / 4 →
    s.pending = .read 0x03C ::
      ((List.range ((s.outLen.toNat + 3) / 4)).map fun k =>
        .read (BitVec.ofNat 22 (0x300000 + 4 * k))) ++ rest →
      runsPseudo .readout n s = true ∧
        readoutResult (wordsRead n s) = s.outBuf.readN 0 s.outLen.toNat ∧
        ∃ t, steps n s = .next t ∧ t = { s with pending := rest, reply := t.reply }

/-! ### SHA-256 -/

/-- SHA-256's message schedule W_0 to W_63 of a 64-byte block: sixteen big-endian words, then
W_t = σ1(W_{t-2}) + W_{t-7} + σ0(W_{t-15}) + W_{t-16}; and SHA256("abc") is R216's digest, which
rests on every round constant, the initial value and the compression (R211, R214 to R216). -/
def Obligations.Sha256SchedulesItsBlocksAndDigestsAbc : Prop :=
  (∀ blk : List Byte, blk.length = 64 →
    (shaSchedule blk).length = 64 ∧
    (∀ t, t < 16 → be32 ((shaSchedule blk).getD t 0) = (blk.drop (4 * t)).take 4) ∧
    (∀ t, 16 ≤ t → t < 64 →
      let w := fun j => (shaSchedule blk).getD j 0
      w t =
        ((w (t - 2)).rotateRight 17 ^^^ (w (t - 2)).rotateRight 19 ^^^ (w (t - 2) >>> 10))
          + w (t - 7)
          + ((w (t - 15)).rotateRight 7 ^^^ (w (t - 15)).rotateRight 18 ^^^ (w (t - 15) >>> 3))
          + w (t - 16))) ∧
  sha256 [0x61, 0x62, 0x63] =
    [0xba, 0x78, 0x16, 0xbf, 0x8f, 0x01, 0xcf, 0xea, 0x41, 0x41, 0x40, 0xde, 0x5d, 0xae, 0x22, 0x23,
     0xb0, 0x03, 0x61, 0xa3, 0x96, 0x17, 0x7a, 0x9c, 0xb4, 0x10, 0xff, 0x61, 0xf2, 0x00, 0x15, 0xad]
end

