-- ==== Sys2Proof/Laws/Base64.lean ====
section
/-! SUPPORT. The Base64 encoder of Safety.lean against the decoder's alphabet and groups
(spec/41_container_decoder.md R150, R151, R165). -/

namespace Sys2Proof.Machine

theorem base64Val_base64Char (v : BitVec 6) : base64Val (base64Char v) = some v := by
  revert v
  decide +kernel

theorem base64Char_ne_padChar (v : BitVec 6) : base64Char v ≠ padChar := by
  revert v
  decide +kernel

@[simp] theorem charVal_base64Char (v : BitVec 6) : charVal (base64Char v) = v := by
  simp [charVal, base64Val_base64Char]

@[simp] theorem legalChar_base64Char (v : BitVec 6) : legalChar (base64Char v) = true := by
  simp [legalChar, base64Val_base64Char]

/-- The group of three encoded bytes decodes to them. -/
theorem base64Groups_quad (a b c : Byte) : base64Groups (base64Quad a b c) = [a, b, c] := by
  simp only [base64Quad, base64Groups, charVal_base64Char]
  congr 1
  · apply BitVec.eq_of_getLsbD_eq
    intro i hi
    interval_cases i <;> simp [groupBits]
  · congr 1
    · apply BitVec.eq_of_getLsbD_eq
      intro i hi
      interval_cases i <;> simp [groupBits]
    · congr 1
      apply BitVec.eq_of_getLsbD_eq
      intro i hi
      interval_cases i <;> simp [groupBits]

/-- The groups of a text whose first part is whole groups are those of its parts. -/
theorem base64Groups_append {f x : List Byte} (h : f.length % 4 = 0) :
    base64Groups (f ++ x) = base64Groups f ++ base64Groups x := by
  induction f using base64Groups.induct with
  | case1 c0 c1 c2 c3 t ih =>
    simp only [List.length_cons] at h
    simp only [List.cons_append, base64Groups, ih (by omega)]
  | case2 t hn =>
    match t, hn with
    | [], _ => rfl
    | [_], _ => simp at h
    | [_, _], _ => simp at h
    | [_, _, _], _ => simp at h
    | _ :: _ :: _ :: _ :: _, hn => exact absurd rfl (hn _ _ _ _ _)

theorem base64Encode_length (d : List Byte) :
    (base64Encode d).length = 4 * ((d.length + 2) / 3) := by
  induction d using base64Encode.induct with
  | case1 => rfl
  | case2 a => simp [base64Encode, base64Quad]
  | case3 a b => simp [base64Encode, base64Quad]
  | case4 a b c t ih =>
    rw [base64Encode]
    simp [base64Quad, ih]
    omega

end Sys2Proof.Machine
end

