-- ==== Sys2Proof/Laws/State.lean ====
section
/-! SUPPORT. The small lemmas of State: for each update of a state, each field of the result. -/

namespace Sys2Proof.Machine

section FieldsOfUpdates

/-! ### clearCont -/

@[simp] theorem clearCont_build (s : State) : (clearCont s).build = s.build := rfl
@[simp] theorem clearCont_phase (s : State) : (clearCont s).phase = s.phase := rfl
@[simp] theorem clearCont_pendCmd (s : State) : (clearCont s).pendCmd = s.pendCmd := rfl
@[simp] theorem clearCont_ie (s : State) : (clearCont s).ie = s.ie := rfl
@[simp] theorem clearCont_done (s : State) : (clearCont s).done = s.done := rfl
@[simp] theorem clearCont_err (s : State) : (clearCont s).err = s.err := rfl
@[simp] theorem clearCont_werr (s : State) : (clearCont s).werr = s.werr := rfl
@[simp] theorem clearCont_contValid (s : State) : (clearCont s).contValid = false := rfl
@[simp] theorem clearCont_keyValid (s : State) : (clearCont s).keyValid = s.keyValid := rfl
@[simp] theorem clearCont_outValid (s : State) : (clearCont s).outValid = s.outValid := rfl
@[simp] theorem clearCont_errCode (s : State) : (clearCont s).errCode = s.errCode := rfl
@[simp] theorem clearCont_errInfo (s : State) : (clearCont s).errInfo = s.errInfo := rfl
@[simp] theorem clearCont_inLen (s : State) : (clearCont s).inLen = s.inLen := rfl
@[simp] theorem clearCont_passLen (s : State) : (clearCont s).passLen = s.passLen := rfl
@[simp] theorem clearCont_decLen (s : State) : (clearCont s).decLen = 0 := rfl
@[simp] theorem clearCont_ctLen (s : State) : (clearCont s).ctLen = 0 := rfl
@[simp] theorem clearCont_outLen (s : State) : (clearCont s).outLen = s.outLen := rfl
@[simp] theorem clearCont_padVal (s : State) : (clearCont s).padVal = s.padVal := rfl
@[simp] theorem clearCont_key (s : State) : (clearCont s).key = s.key := rfl
@[simp] theorem clearCont_inBuf (s : State) : (clearCont s).inBuf = s.inBuf := rfl
@[simp] theorem clearCont_passBuf (s : State) : (clearCont s).passBuf = s.passBuf := rfl
@[simp] theorem clearCont_decBuf (s : State) : (clearCont s).decBuf = [] := rfl
@[simp] theorem clearCont_outBuf (s : State) : (clearCont s).outBuf = s.outBuf := rfl
@[simp] theorem clearCont_pending (s : State) : (clearCont s).pending = s.pending := rfl
@[simp] theorem clearCont_reply (s : State) : (clearCont s).reply = s.reply := rfl

/-! ### clearKey -/

@[simp] theorem clearKey_build (s : State) : (clearKey s).build = s.build := rfl
@[simp] theorem clearKey_phase (s : State) : (clearKey s).phase = s.phase := rfl
@[simp] theorem clearKey_pendCmd (s : State) : (clearKey s).pendCmd = s.pendCmd := rfl
@[simp] theorem clearKey_ie (s : State) : (clearKey s).ie = s.ie := rfl
@[simp] theorem clearKey_done (s : State) : (clearKey s).done = s.done := rfl
@[simp] theorem clearKey_err (s : State) : (clearKey s).err = s.err := rfl
@[simp] theorem clearKey_werr (s : State) : (clearKey s).werr = s.werr := rfl
@[simp] theorem clearKey_contValid (s : State) : (clearKey s).contValid = s.contValid := rfl
@[simp] theorem clearKey_keyValid (s : State) : (clearKey s).keyValid = false := rfl
@[simp] theorem clearKey_outValid (s : State) : (clearKey s).outValid = s.outValid := rfl
@[simp] theorem clearKey_errCode (s : State) : (clearKey s).errCode = s.errCode := rfl
@[simp] theorem clearKey_errInfo (s : State) : (clearKey s).errInfo = s.errInfo := rfl
@[simp] theorem clearKey_inLen (s : State) : (clearKey s).inLen = s.inLen := rfl
@[simp] theorem clearKey_passLen (s : State) : (clearKey s).passLen = s.passLen := rfl
@[simp] theorem clearKey_decLen (s : State) : (clearKey s).decLen = s.decLen := rfl
@[simp] theorem clearKey_ctLen (s : State) : (clearKey s).ctLen = s.ctLen := rfl
@[simp] theorem clearKey_outLen (s : State) : (clearKey s).outLen = s.outLen := rfl
@[simp] theorem clearKey_padVal (s : State) : (clearKey s).padVal = s.padVal := rfl
@[simp] theorem clearKey_key (s : State) : (clearKey s).key = Vector.replicate 32 0 := rfl
@[simp] theorem clearKey_inBuf (s : State) : (clearKey s).inBuf = s.inBuf := rfl
@[simp] theorem clearKey_passBuf (s : State) : (clearKey s).passBuf = s.passBuf := rfl
@[simp] theorem clearKey_decBuf (s : State) : (clearKey s).decBuf = s.decBuf := rfl
@[simp] theorem clearKey_outBuf (s : State) : (clearKey s).outBuf = s.outBuf := rfl
@[simp] theorem clearKey_pending (s : State) : (clearKey s).pending = s.pending := rfl
@[simp] theorem clearKey_reply (s : State) : (clearKey s).reply = s.reply := rfl

/-! ### clearOut -/

@[simp] theorem clearOut_build (s : State) : (clearOut s).build = s.build := rfl
@[simp] theorem clearOut_phase (s : State) : (clearOut s).phase = s.phase := rfl
@[simp] theorem clearOut_pendCmd (s : State) : (clearOut s).pendCmd = s.pendCmd := rfl
@[simp] theorem clearOut_ie (s : State) : (clearOut s).ie = s.ie := rfl
@[simp] theorem clearOut_done (s : State) : (clearOut s).done = s.done := rfl
@[simp] theorem clearOut_err (s : State) : (clearOut s).err = s.err := rfl
@[simp] theorem clearOut_werr (s : State) : (clearOut s).werr = s.werr := rfl
@[simp] theorem clearOut_contValid (s : State) : (clearOut s).contValid = s.contValid := rfl
@[simp] theorem clearOut_keyValid (s : State) : (clearOut s).keyValid = s.keyValid := rfl
@[simp] theorem clearOut_outValid (s : State) : (clearOut s).outValid = false := rfl
@[simp] theorem clearOut_errCode (s : State) : (clearOut s).errCode = s.errCode := rfl
@[simp] theorem clearOut_errInfo (s : State) : (clearOut s).errInfo = s.errInfo := rfl
@[simp] theorem clearOut_inLen (s : State) : (clearOut s).inLen = s.inLen := rfl
@[simp] theorem clearOut_passLen (s : State) : (clearOut s).passLen = s.passLen := rfl
@[simp] theorem clearOut_decLen (s : State) : (clearOut s).decLen = s.decLen := rfl
@[simp] theorem clearOut_ctLen (s : State) : (clearOut s).ctLen = s.ctLen := rfl
@[simp] theorem clearOut_outLen (s : State) : (clearOut s).outLen = 0 := rfl
@[simp] theorem clearOut_padVal (s : State) : (clearOut s).padVal = 0 := rfl
@[simp] theorem clearOut_key (s : State) : (clearOut s).key = s.key := rfl
@[simp] theorem clearOut_inBuf (s : State) : (clearOut s).inBuf = s.inBuf := rfl
@[simp] theorem clearOut_passBuf (s : State) : (clearOut s).passBuf = s.passBuf := rfl
@[simp] theorem clearOut_decBuf (s : State) : (clearOut s).decBuf = s.decBuf := rfl
@[simp] theorem clearOut_outBuf (s : State) : (clearOut s).outBuf = [] := rfl
@[simp] theorem clearOut_pending (s : State) : (clearOut s).pending = s.pending := rfl
@[simp] theorem clearOut_reply (s : State) : (clearOut s).reply = s.reply := rfl

/-! ### writeCont -/

@[simp] theorem writeCont_build (d : List Byte) (s : State) : (writeCont d s).build = s.build := rfl
@[simp] theorem writeCont_phase (d : List Byte) (s : State) : (writeCont d s).phase = s.phase := rfl
@[simp] theorem writeCont_pendCmd (d : List Byte) (s : State) : (writeCont d s).pendCmd = s.pendCmd := rfl
@[simp] theorem writeCont_ie (d : List Byte) (s : State) : (writeCont d s).ie = s.ie := rfl
@[simp] theorem writeCont_done (d : List Byte) (s : State) : (writeCont d s).done = s.done := rfl
@[simp] theorem writeCont_err (d : List Byte) (s : State) : (writeCont d s).err = s.err := rfl
@[simp] theorem writeCont_werr (d : List Byte) (s : State) : (writeCont d s).werr = s.werr := rfl
@[simp] theorem writeCont_contValid (d : List Byte) (s : State) : (writeCont d s).contValid = true := rfl
@[simp] theorem writeCont_keyValid (d : List Byte) (s : State) : (writeCont d s).keyValid = s.keyValid := rfl
@[simp] theorem writeCont_outValid (d : List Byte) (s : State) : (writeCont d s).outValid = s.outValid := rfl
@[simp] theorem writeCont_errCode (d : List Byte) (s : State) : (writeCont d s).errCode = s.errCode := rfl
@[simp] theorem writeCont_errInfo (d : List Byte) (s : State) : (writeCont d s).errInfo = s.errInfo := rfl
@[simp] theorem writeCont_inLen (d : List Byte) (s : State) : (writeCont d s).inLen = s.inLen := rfl
@[simp] theorem writeCont_passLen (d : List Byte) (s : State) : (writeCont d s).passLen = s.passLen := rfl
@[simp] theorem writeCont_decLen (d : List Byte) (s : State) : (writeCont d s).decLen = BitVec.ofNat 32 d.length := rfl
@[simp] theorem writeCont_ctLen (d : List Byte) (s : State) : (writeCont d s).ctLen = BitVec.ofNat 32 (d.length - Config.hdrLen) := rfl
@[simp] theorem writeCont_outLen (d : List Byte) (s : State) : (writeCont d s).outLen = s.outLen := rfl
@[simp] theorem writeCont_padVal (d : List Byte) (s : State) : (writeCont d s).padVal = s.padVal := rfl
@[simp] theorem writeCont_key (d : List Byte) (s : State) : (writeCont d s).key = s.key := rfl
@[simp] theorem writeCont_inBuf (d : List Byte) (s : State) : (writeCont d s).inBuf = s.inBuf := rfl
@[simp] theorem writeCont_passBuf (d : List Byte) (s : State) : (writeCont d s).passBuf = s.passBuf := rfl
@[simp] theorem writeCont_decBuf (d : List Byte) (s : State) : (writeCont d s).decBuf = s.decBuf.writeN 0 d := rfl
@[simp] theorem writeCont_outBuf (d : List Byte) (s : State) : (writeCont d s).outBuf = s.outBuf := rfl
@[simp] theorem writeCont_pending (d : List Byte) (s : State) : (writeCont d s).pending = s.pending := rfl
@[simp] theorem writeCont_reply (d : List Byte) (s : State) : (writeCont d s).reply = s.reply := rfl

/-! ### writeKey -/

@[simp] theorem writeKey_build (dk : List Byte) (s : State) : (writeKey dk s).build = s.build := rfl
@[simp] theorem writeKey_phase (dk : List Byte) (s : State) : (writeKey dk s).phase = s.phase := rfl
@[simp] theorem writeKey_pendCmd (dk : List Byte) (s : State) : (writeKey dk s).pendCmd = s.pendCmd := rfl
@[simp] theorem writeKey_ie (dk : List Byte) (s : State) : (writeKey dk s).ie = s.ie := rfl
@[simp] theorem writeKey_done (dk : List Byte) (s : State) : (writeKey dk s).done = s.done := rfl
@[simp] theorem writeKey_err (dk : List Byte) (s : State) : (writeKey dk s).err = s.err := rfl
@[simp] theorem writeKey_werr (dk : List Byte) (s : State) : (writeKey dk s).werr = s.werr := rfl
@[simp] theorem writeKey_contValid (dk : List Byte) (s : State) : (writeKey dk s).contValid = s.contValid := rfl
@[simp] theorem writeKey_keyValid (dk : List Byte) (s : State) : (writeKey dk s).keyValid = true := rfl
@[simp] theorem writeKey_outValid (dk : List Byte) (s : State) : (writeKey dk s).outValid = s.outValid := rfl
@[simp] theorem writeKey_errCode (dk : List Byte) (s : State) : (writeKey dk s).errCode = s.errCode := rfl
@[simp] theorem writeKey_errInfo (dk : List Byte) (s : State) : (writeKey dk s).errInfo = s.errInfo := rfl
@[simp] theorem writeKey_inLen (dk : List Byte) (s : State) : (writeKey dk s).inLen = s.inLen := rfl
@[simp] theorem writeKey_passLen (dk : List Byte) (s : State) : (writeKey dk s).passLen = s.passLen := rfl
@[simp] theorem writeKey_decLen (dk : List Byte) (s : State) : (writeKey dk s).decLen = s.decLen := rfl
@[simp] theorem writeKey_ctLen (dk : List Byte) (s : State) : (writeKey dk s).ctLen = s.ctLen := rfl
@[simp] theorem writeKey_outLen (dk : List Byte) (s : State) : (writeKey dk s).outLen = s.outLen := rfl
@[simp] theorem writeKey_padVal (dk : List Byte) (s : State) : (writeKey dk s).padVal = s.padVal := rfl
@[simp] theorem writeKey_key (dk : List Byte) (s : State) : (writeKey dk s).key = keyOfBytes dk := rfl
@[simp] theorem writeKey_inBuf (dk : List Byte) (s : State) : (writeKey dk s).inBuf = s.inBuf := rfl
@[simp] theorem writeKey_passBuf (dk : List Byte) (s : State) : (writeKey dk s).passBuf = s.passBuf := rfl
@[simp] theorem writeKey_decBuf (dk : List Byte) (s : State) : (writeKey dk s).decBuf = s.decBuf := rfl
@[simp] theorem writeKey_outBuf (dk : List Byte) (s : State) : (writeKey dk s).outBuf = s.outBuf := rfl
@[simp] theorem writeKey_pending (dk : List Byte) (s : State) : (writeKey dk s).pending = s.pending := rfl
@[simp] theorem writeKey_reply (dk : List Byte) (s : State) : (writeKey dk s).reply = s.reply := rfl

/-! ### writeOut -/

@[simp] theorem writeOut_build (t : List Byte) (p : Byte) (s : State) : (writeOut t p s).build = s.build := rfl
@[simp] theorem writeOut_phase (t : List Byte) (p : Byte) (s : State) : (writeOut t p s).phase = s.phase := rfl
@[simp] theorem writeOut_pendCmd (t : List Byte) (p : Byte) (s : State) : (writeOut t p s).pendCmd = s.pendCmd := rfl
@[simp] theorem writeOut_ie (t : List Byte) (p : Byte) (s : State) : (writeOut t p s).ie = s.ie := rfl
@[simp] theorem writeOut_done (t : List Byte) (p : Byte) (s : State) : (writeOut t p s).done = s.done := rfl
@[simp] theorem writeOut_err (t : List Byte) (p : Byte) (s : State) : (writeOut t p s).err = s.err := rfl
@[simp] theorem writeOut_werr (t : List Byte) (p : Byte) (s : State) : (writeOut t p s).werr = s.werr := rfl
@[simp] theorem writeOut_contValid (t : List Byte) (p : Byte) (s : State) : (writeOut t p s).contValid = s.contValid := rfl
@[simp] theorem writeOut_keyValid (t : List Byte) (p : Byte) (s : State) : (writeOut t p s).keyValid = s.keyValid := rfl
@[simp] theorem writeOut_outValid (t : List Byte) (p : Byte) (s : State) : (writeOut t p s).outValid = true := rfl
@[simp] theorem writeOut_errCode (t : List Byte) (p : Byte) (s : State) : (writeOut t p s).errCode = s.errCode := rfl
@[simp] theorem writeOut_errInfo (t : List Byte) (p : Byte) (s : State) : (writeOut t p s).errInfo = s.errInfo := rfl
@[simp] theorem writeOut_inLen (t : List Byte) (p : Byte) (s : State) : (writeOut t p s).inLen = s.inLen := rfl
@[simp] theorem writeOut_passLen (t : List Byte) (p : Byte) (s : State) : (writeOut t p s).passLen = s.passLen := rfl
@[simp] theorem writeOut_decLen (t : List Byte) (p : Byte) (s : State) : (writeOut t p s).decLen = s.decLen := rfl
@[simp] theorem writeOut_ctLen (t : List Byte) (p : Byte) (s : State) : (writeOut t p s).ctLen = s.ctLen := rfl
@[simp] theorem writeOut_outLen (t : List Byte) (p : Byte) (s : State) : (writeOut t p s).outLen = BitVec.ofNat 32 t.length := rfl
@[simp] theorem writeOut_padVal (t : List Byte) (p : Byte) (s : State) : (writeOut t p s).padVal = p := rfl
@[simp] theorem writeOut_key (t : List Byte) (p : Byte) (s : State) : (writeOut t p s).key = s.key := rfl
@[simp] theorem writeOut_inBuf (t : List Byte) (p : Byte) (s : State) : (writeOut t p s).inBuf = s.inBuf := rfl
@[simp] theorem writeOut_passBuf (t : List Byte) (p : Byte) (s : State) : (writeOut t p s).passBuf = s.passBuf := rfl
@[simp] theorem writeOut_decBuf (t : List Byte) (p : Byte) (s : State) : (writeOut t p s).decBuf = s.decBuf := rfl
@[simp] theorem writeOut_outBuf (t : List Byte) (p : Byte) (s : State) : (writeOut t p s).outBuf = s.outBuf.writeN 0 t := rfl
@[simp] theorem writeOut_pending (t : List Byte) (p : Byte) (s : State) : (writeOut t p s).pending = s.pending := rfl
@[simp] theorem writeOut_reply (t : List Byte) (p : Byte) (s : State) : (writeOut t p s).reply = s.reply := rfl

/-! ### acceptHead -/

@[simp] theorem acceptHead_build (w : Word) (s : State) : (acceptHead w s).build = s.build := rfl
@[simp] theorem acceptHead_phase (w : Word) (s : State) : (acceptHead w s).phase = s.phase := rfl
@[simp] theorem acceptHead_pendCmd (w : Word) (s : State) : (acceptHead w s).pendCmd = w := rfl
@[simp] theorem acceptHead_ie (w : Word) (s : State) : (acceptHead w s).ie = s.ie := rfl
@[simp] theorem acceptHead_done (w : Word) (s : State) : (acceptHead w s).done = false := rfl
@[simp] theorem acceptHead_err (w : Word) (s : State) : (acceptHead w s).err = false := rfl
@[simp] theorem acceptHead_werr (w : Word) (s : State) : (acceptHead w s).werr = s.werr := rfl
@[simp] theorem acceptHead_contValid (w : Word) (s : State) : (acceptHead w s).contValid = s.contValid := rfl
@[simp] theorem acceptHead_keyValid (w : Word) (s : State) : (acceptHead w s).keyValid = s.keyValid := rfl
@[simp] theorem acceptHead_outValid (w : Word) (s : State) : (acceptHead w s).outValid = s.outValid := rfl
@[simp] theorem acceptHead_errCode (w : Word) (s : State) : (acceptHead w s).errCode = 0 := rfl
@[simp] theorem acceptHead_errInfo (w : Word) (s : State) : (acceptHead w s).errInfo = 0 := rfl
@[simp] theorem acceptHead_inLen (w : Word) (s : State) : (acceptHead w s).inLen = s.inLen := rfl
@[simp] theorem acceptHead_passLen (w : Word) (s : State) : (acceptHead w s).passLen = s.passLen := rfl
@[simp] theorem acceptHead_decLen (w : Word) (s : State) : (acceptHead w s).decLen = s.decLen := rfl
@[simp] theorem acceptHead_ctLen (w : Word) (s : State) : (acceptHead w s).ctLen = s.ctLen := rfl
@[simp] theorem acceptHead_outLen (w : Word) (s : State) : (acceptHead w s).outLen = s.outLen := rfl
@[simp] theorem acceptHead_padVal (w : Word) (s : State) : (acceptHead w s).padVal = s.padVal := rfl
@[simp] theorem acceptHead_key (w : Word) (s : State) : (acceptHead w s).key = s.key := rfl
@[simp] theorem acceptHead_inBuf (w : Word) (s : State) : (acceptHead w s).inBuf = s.inBuf := rfl
@[simp] theorem acceptHead_passBuf (w : Word) (s : State) : (acceptHead w s).passBuf = s.passBuf := rfl
@[simp] theorem acceptHead_decBuf (w : Word) (s : State) : (acceptHead w s).decBuf = s.decBuf := rfl
@[simp] theorem acceptHead_outBuf (w : Word) (s : State) : (acceptHead w s).outBuf = s.outBuf := rfl
@[simp] theorem acceptHead_pending (w : Word) (s : State) : (acceptHead w s).pending = s.pending := rfl
@[simp] theorem acceptHead_reply (w : Word) (s : State) : (acceptHead w s).reply = s.reply := rfl

/-! ### dropWrite -/

@[simp] theorem dropWrite_build (s : State) : (dropWrite s).build = s.build := rfl
@[simp] theorem dropWrite_phase (s : State) : (dropWrite s).phase = s.phase := rfl
@[simp] theorem dropWrite_pendCmd (s : State) : (dropWrite s).pendCmd = s.pendCmd := rfl
@[simp] theorem dropWrite_ie (s : State) : (dropWrite s).ie = s.ie := rfl
@[simp] theorem dropWrite_done (s : State) : (dropWrite s).done = s.done := rfl
@[simp] theorem dropWrite_err (s : State) : (dropWrite s).err = s.err := rfl
@[simp] theorem dropWrite_werr (s : State) : (dropWrite s).werr = true := rfl
@[simp] theorem dropWrite_contValid (s : State) : (dropWrite s).contValid = s.contValid := rfl
@[simp] theorem dropWrite_keyValid (s : State) : (dropWrite s).keyValid = s.keyValid := rfl
@[simp] theorem dropWrite_outValid (s : State) : (dropWrite s).outValid = s.outValid := rfl
@[simp] theorem dropWrite_errCode (s : State) : (dropWrite s).errCode = s.errCode := rfl
@[simp] theorem dropWrite_errInfo (s : State) : (dropWrite s).errInfo = s.errInfo := rfl
@[simp] theorem dropWrite_inLen (s : State) : (dropWrite s).inLen = s.inLen := rfl
@[simp] theorem dropWrite_passLen (s : State) : (dropWrite s).passLen = s.passLen := rfl
@[simp] theorem dropWrite_decLen (s : State) : (dropWrite s).decLen = s.decLen := rfl
@[simp] theorem dropWrite_ctLen (s : State) : (dropWrite s).ctLen = s.ctLen := rfl
@[simp] theorem dropWrite_outLen (s : State) : (dropWrite s).outLen = s.outLen := rfl
@[simp] theorem dropWrite_padVal (s : State) : (dropWrite s).padVal = s.padVal := rfl
@[simp] theorem dropWrite_key (s : State) : (dropWrite s).key = s.key := rfl
@[simp] theorem dropWrite_inBuf (s : State) : (dropWrite s).inBuf = s.inBuf := rfl
@[simp] theorem dropWrite_passBuf (s : State) : (dropWrite s).passBuf = s.passBuf := rfl
@[simp] theorem dropWrite_decBuf (s : State) : (dropWrite s).decBuf = s.decBuf := rfl
@[simp] theorem dropWrite_outBuf (s : State) : (dropWrite s).outBuf = s.outBuf := rfl
@[simp] theorem dropWrite_pending (s : State) : (dropWrite s).pending = s.pending := rfl
@[simp] theorem dropWrite_reply (s : State) : (dropWrite s).reply = s.reply := rfl

/-! ### recordError -/

@[simp] theorem recordError_build (e : Raise) (s : State) : (recordError e s).build = s.build := rfl
@[simp] theorem recordError_phase (e : Raise) (s : State) : (recordError e s).phase = s.phase := rfl
@[simp] theorem recordError_pendCmd (e : Raise) (s : State) : (recordError e s).pendCmd = s.pendCmd := rfl
@[simp] theorem recordError_ie (e : Raise) (s : State) : (recordError e s).ie = s.ie := rfl
@[simp] theorem recordError_done (e : Raise) (s : State) : (recordError e s).done = s.done := rfl
@[simp] theorem recordError_err (e : Raise) (s : State) : (recordError e s).err = true := rfl
@[simp] theorem recordError_werr (e : Raise) (s : State) : (recordError e s).werr = s.werr := rfl
@[simp] theorem recordError_contValid (e : Raise) (s : State) : (recordError e s).contValid = s.contValid := rfl
@[simp] theorem recordError_keyValid (e : Raise) (s : State) : (recordError e s).keyValid = s.keyValid := rfl
@[simp] theorem recordError_outValid (e : Raise) (s : State) : (recordError e s).outValid = s.outValid := rfl
@[simp] theorem recordError_errCode (e : Raise) (s : State) : (recordError e s).errCode = e.code.code := rfl
@[simp] theorem recordError_errInfo (e : Raise) (s : State) : (recordError e s).errInfo = e.info := rfl
@[simp] theorem recordError_inLen (e : Raise) (s : State) : (recordError e s).inLen = s.inLen := rfl
@[simp] theorem recordError_passLen (e : Raise) (s : State) : (recordError e s).passLen = s.passLen := rfl
@[simp] theorem recordError_decLen (e : Raise) (s : State) : (recordError e s).decLen = s.decLen := rfl
@[simp] theorem recordError_ctLen (e : Raise) (s : State) : (recordError e s).ctLen = s.ctLen := rfl
@[simp] theorem recordError_outLen (e : Raise) (s : State) : (recordError e s).outLen = s.outLen := rfl
@[simp] theorem recordError_padVal (e : Raise) (s : State) : (recordError e s).padVal = s.padVal := rfl
@[simp] theorem recordError_key (e : Raise) (s : State) : (recordError e s).key = s.key := rfl
@[simp] theorem recordError_inBuf (e : Raise) (s : State) : (recordError e s).inBuf = s.inBuf := rfl
@[simp] theorem recordError_passBuf (e : Raise) (s : State) : (recordError e s).passBuf = s.passBuf := rfl
@[simp] theorem recordError_decBuf (e : Raise) (s : State) : (recordError e s).decBuf = s.decBuf := rfl
@[simp] theorem recordError_outBuf (e : Raise) (s : State) : (recordError e s).outBuf = s.outBuf := rfl
@[simp] theorem recordError_pending (e : Raise) (s : State) : (recordError e s).pending = s.pending := rfl
@[simp] theorem recordError_reply (e : Raise) (s : State) : (recordError e s).reply = s.reply := rfl

/-! ### doneComplete -/

@[simp] theorem doneComplete_build (s : State) : (doneComplete s).build = s.build := rfl
@[simp] theorem doneComplete_phase (s : State) : (doneComplete s).phase = .idle := rfl
@[simp] theorem doneComplete_pendCmd (s : State) : (doneComplete s).pendCmd = s.pendCmd := rfl
@[simp] theorem doneComplete_ie (s : State) : (doneComplete s).ie = s.ie := rfl
@[simp] theorem doneComplete_done (s : State) : (doneComplete s).done = true := rfl
@[simp] theorem doneComplete_err (s : State) : (doneComplete s).err = s.err := rfl
@[simp] theorem doneComplete_werr (s : State) : (doneComplete s).werr = s.werr := rfl
@[simp] theorem doneComplete_contValid (s : State) : (doneComplete s).contValid = s.contValid := rfl
@[simp] theorem doneComplete_keyValid (s : State) : (doneComplete s).keyValid = s.keyValid := rfl
@[simp] theorem doneComplete_outValid (s : State) : (doneComplete s).outValid = s.outValid := rfl
@[simp] theorem doneComplete_errCode (s : State) : (doneComplete s).errCode = s.errCode := rfl
@[simp] theorem doneComplete_errInfo (s : State) : (doneComplete s).errInfo = s.errInfo := rfl
@[simp] theorem doneComplete_inLen (s : State) : (doneComplete s).inLen = s.inLen := rfl
@[simp] theorem doneComplete_passLen (s : State) : (doneComplete s).passLen = s.passLen := rfl
@[simp] theorem doneComplete_decLen (s : State) : (doneComplete s).decLen = s.decLen := rfl
@[simp] theorem doneComplete_ctLen (s : State) : (doneComplete s).ctLen = s.ctLen := rfl
@[simp] theorem doneComplete_outLen (s : State) : (doneComplete s).outLen = s.outLen := rfl
@[simp] theorem doneComplete_padVal (s : State) : (doneComplete s).padVal = s.padVal := rfl
@[simp] theorem doneComplete_key (s : State) : (doneComplete s).key = s.key := rfl
@[simp] theorem doneComplete_inBuf (s : State) : (doneComplete s).inBuf = s.inBuf := rfl
@[simp] theorem doneComplete_passBuf (s : State) : (doneComplete s).passBuf = s.passBuf := rfl
@[simp] theorem doneComplete_decBuf (s : State) : (doneComplete s).decBuf = s.decBuf := rfl
@[simp] theorem doneComplete_outBuf (s : State) : (doneComplete s).outBuf = s.outBuf := rfl
@[simp] theorem doneComplete_pending (s : State) : (doneComplete s).pending = s.pending := rfl
@[simp] theorem doneComplete_reply (s : State) : (doneComplete s).reply = s.reply := rfl

/-! ### illegalComplete -/

@[simp] theorem illegalComplete_build (w : Word) (s : State) : (illegalComplete w s).build = s.build := rfl
@[simp] theorem illegalComplete_phase (w : Word) (s : State) : (illegalComplete w s).phase = s.phase := rfl
@[simp] theorem illegalComplete_pendCmd (w : Word) (s : State) : (illegalComplete w s).pendCmd = w := rfl
@[simp] theorem illegalComplete_ie (w : Word) (s : State) : (illegalComplete w s).ie = s.ie := rfl
@[simp] theorem illegalComplete_done (w : Word) (s : State) : (illegalComplete w s).done = false := rfl
@[simp] theorem illegalComplete_err (w : Word) (s : State) : (illegalComplete w s).err = true := rfl
@[simp] theorem illegalComplete_werr (w : Word) (s : State) : (illegalComplete w s).werr = s.werr := rfl
@[simp] theorem illegalComplete_contValid (w : Word) (s : State) : (illegalComplete w s).contValid = s.contValid := rfl
@[simp] theorem illegalComplete_keyValid (w : Word) (s : State) : (illegalComplete w s).keyValid = s.keyValid := rfl
@[simp] theorem illegalComplete_outValid (w : Word) (s : State) : (illegalComplete w s).outValid = s.outValid := rfl
@[simp] theorem illegalComplete_errCode (w : Word) (s : State) : (illegalComplete w s).errCode = 0x10 := rfl
@[simp] theorem illegalComplete_errInfo (w : Word) (s : State) : (illegalComplete w s).errInfo = w := rfl
@[simp] theorem illegalComplete_inLen (w : Word) (s : State) : (illegalComplete w s).inLen = s.inLen := rfl
@[simp] theorem illegalComplete_passLen (w : Word) (s : State) : (illegalComplete w s).passLen = s.passLen := rfl
@[simp] theorem illegalComplete_decLen (w : Word) (s : State) : (illegalComplete w s).decLen = s.decLen := rfl
@[simp] theorem illegalComplete_ctLen (w : Word) (s : State) : (illegalComplete w s).ctLen = s.ctLen := rfl
@[simp] theorem illegalComplete_outLen (w : Word) (s : State) : (illegalComplete w s).outLen = s.outLen := rfl
@[simp] theorem illegalComplete_padVal (w : Word) (s : State) : (illegalComplete w s).padVal = s.padVal := rfl
@[simp] theorem illegalComplete_key (w : Word) (s : State) : (illegalComplete w s).key = s.key := rfl
@[simp] theorem illegalComplete_inBuf (w : Word) (s : State) : (illegalComplete w s).inBuf = s.inBuf := rfl
@[simp] theorem illegalComplete_passBuf (w : Word) (s : State) : (illegalComplete w s).passBuf = s.passBuf := rfl
@[simp] theorem illegalComplete_decBuf (w : Word) (s : State) : (illegalComplete w s).decBuf = s.decBuf := rfl
@[simp] theorem illegalComplete_outBuf (w : Word) (s : State) : (illegalComplete w s).outBuf = s.outBuf := rfl
@[simp] theorem illegalComplete_pending (w : Word) (s : State) : (illegalComplete w s).pending = s.pending := rfl
@[simp] theorem illegalComplete_reply (w : Word) (s : State) : (illegalComplete w s).reply = s.reply := rfl

/-! ### writeOneToClear -/

@[simp] theorem writeOneToClear_build (v : Word) (s : State) : (writeOneToClear v s).build = s.build := rfl
@[simp] theorem writeOneToClear_phase (v : Word) (s : State) : (writeOneToClear v s).phase = s.phase := rfl
@[simp] theorem writeOneToClear_pendCmd (v : Word) (s : State) : (writeOneToClear v s).pendCmd = s.pendCmd := rfl
@[simp] theorem writeOneToClear_ie (v : Word) (s : State) : (writeOneToClear v s).ie = s.ie := rfl
@[simp] theorem writeOneToClear_done (v : Word) (s : State) : (writeOneToClear v s).done = (s.done && !v.getLsbD 1) := rfl
@[simp] theorem writeOneToClear_err (v : Word) (s : State) : (writeOneToClear v s).err = (s.err && !v.getLsbD 2) := rfl
@[simp] theorem writeOneToClear_werr (v : Word) (s : State) : (writeOneToClear v s).werr = (s.werr && !v.getLsbD 3) := rfl
@[simp] theorem writeOneToClear_contValid (v : Word) (s : State) : (writeOneToClear v s).contValid = s.contValid := rfl
@[simp] theorem writeOneToClear_keyValid (v : Word) (s : State) : (writeOneToClear v s).keyValid = s.keyValid := rfl
@[simp] theorem writeOneToClear_outValid (v : Word) (s : State) : (writeOneToClear v s).outValid = s.outValid := rfl
@[simp] theorem writeOneToClear_errCode (v : Word) (s : State) : (writeOneToClear v s).errCode = s.errCode := rfl
@[simp] theorem writeOneToClear_errInfo (v : Word) (s : State) : (writeOneToClear v s).errInfo = s.errInfo := rfl
@[simp] theorem writeOneToClear_inLen (v : Word) (s : State) : (writeOneToClear v s).inLen = s.inLen := rfl
@[simp] theorem writeOneToClear_passLen (v : Word) (s : State) : (writeOneToClear v s).passLen = s.passLen := rfl
@[simp] theorem writeOneToClear_decLen (v : Word) (s : State) : (writeOneToClear v s).decLen = s.decLen := rfl
@[simp] theorem writeOneToClear_ctLen (v : Word) (s : State) : (writeOneToClear v s).ctLen = s.ctLen := rfl
@[simp] theorem writeOneToClear_outLen (v : Word) (s : State) : (writeOneToClear v s).outLen = s.outLen := rfl
@[simp] theorem writeOneToClear_padVal (v : Word) (s : State) : (writeOneToClear v s).padVal = s.padVal := rfl
@[simp] theorem writeOneToClear_key (v : Word) (s : State) : (writeOneToClear v s).key = s.key := rfl
@[simp] theorem writeOneToClear_inBuf (v : Word) (s : State) : (writeOneToClear v s).inBuf = s.inBuf := rfl
@[simp] theorem writeOneToClear_passBuf (v : Word) (s : State) : (writeOneToClear v s).passBuf = s.passBuf := rfl
@[simp] theorem writeOneToClear_decBuf (v : Word) (s : State) : (writeOneToClear v s).decBuf = s.decBuf := rfl
@[simp] theorem writeOneToClear_outBuf (v : Word) (s : State) : (writeOneToClear v s).outBuf = s.outBuf := rfl
@[simp] theorem writeOneToClear_pending (v : Word) (s : State) : (writeOneToClear v s).pending = s.pending := rfl
@[simp] theorem writeOneToClear_reply (v : Word) (s : State) : (writeOneToClear v s).reply = s.reply := rfl

/-! ### clearComplete -/

@[simp] theorem clearComplete_build (s : State) : (clearComplete s).build = s.build := rfl
@[simp] theorem clearComplete_phase (s : State) : (clearComplete s).phase = s.phase := rfl
@[simp] theorem clearComplete_pendCmd (s : State) : (clearComplete s).pendCmd = s.pendCmd := rfl
@[simp] theorem clearComplete_ie (s : State) : (clearComplete s).ie = s.ie := rfl
@[simp] theorem clearComplete_done (s : State) : (clearComplete s).done = true := rfl
@[simp] theorem clearComplete_err (s : State) : (clearComplete s).err = s.err := rfl
@[simp] theorem clearComplete_werr (s : State) : (clearComplete s).werr = false := rfl
@[simp] theorem clearComplete_contValid (s : State) : (clearComplete s).contValid = false := rfl
@[simp] theorem clearComplete_keyValid (s : State) : (clearComplete s).keyValid = false := rfl
@[simp] theorem clearComplete_outValid (s : State) : (clearComplete s).outValid = false := rfl
@[simp] theorem clearComplete_errCode (s : State) : (clearComplete s).errCode = 0 := rfl
@[simp] theorem clearComplete_errInfo (s : State) : (clearComplete s).errInfo = 0 := rfl
@[simp] theorem clearComplete_inLen (s : State) : (clearComplete s).inLen = 0 := rfl
@[simp] theorem clearComplete_passLen (s : State) : (clearComplete s).passLen = 0 := rfl
@[simp] theorem clearComplete_decLen (s : State) : (clearComplete s).decLen = 0 := rfl
@[simp] theorem clearComplete_ctLen (s : State) : (clearComplete s).ctLen = 0 := rfl
@[simp] theorem clearComplete_outLen (s : State) : (clearComplete s).outLen = 0 := rfl
@[simp] theorem clearComplete_padVal (s : State) : (clearComplete s).padVal = 0 := rfl
@[simp] theorem clearComplete_key (s : State) : (clearComplete s).key = Vector.replicate 32 0 := rfl
@[simp] theorem clearComplete_inBuf (s : State) : (clearComplete s).inBuf = [] := rfl
@[simp] theorem clearComplete_passBuf (s : State) : (clearComplete s).passBuf = [] := rfl
@[simp] theorem clearComplete_decBuf (s : State) : (clearComplete s).decBuf = [] := rfl
@[simp] theorem clearComplete_outBuf (s : State) : (clearComplete s).outBuf = [] := rfl
@[simp] theorem clearComplete_pending (s : State) : (clearComplete s).pending = s.pending := rfl
@[simp] theorem clearComplete_reply (s : State) : (clearComplete s).reply = s.reply := rfl

/-! ### clearGroups, acceptEngine -/

@[simp] theorem clearGroups_build (i : Instr) (s : State) :
    (clearGroups i s).build = s.build := by cases i <;> rfl
@[simp] theorem clearGroups_phase (i : Instr) (s : State) :
    (clearGroups i s).phase = s.phase := by cases i <;> rfl
@[simp] theorem clearGroups_pendCmd (i : Instr) (s : State) :
    (clearGroups i s).pendCmd = s.pendCmd := by cases i <;> rfl
@[simp] theorem clearGroups_ie (i : Instr) (s : State) :
    (clearGroups i s).ie = s.ie := by cases i <;> rfl
@[simp] theorem clearGroups_done (i : Instr) (s : State) :
    (clearGroups i s).done = s.done := by cases i <;> rfl
@[simp] theorem clearGroups_err (i : Instr) (s : State) :
    (clearGroups i s).err = s.err := by cases i <;> rfl
@[simp] theorem clearGroups_werr (i : Instr) (s : State) :
    (clearGroups i s).werr = s.werr := by cases i <;> rfl
@[simp] theorem clearGroups_contValid (i : Instr) (s : State) :
    (clearGroups i s).contValid = (if clearsCont i then false else s.contValid) := by cases i <;> rfl
@[simp] theorem clearGroups_keyValid (i : Instr) (s : State) :
    (clearGroups i s).keyValid = (if clearsKey i then false else s.keyValid) := by cases i <;> rfl
@[simp] theorem clearGroups_outValid (i : Instr) (s : State) :
    (clearGroups i s).outValid = false := by cases i <;> rfl
@[simp] theorem clearGroups_errCode (i : Instr) (s : State) :
    (clearGroups i s).errCode = s.errCode := by cases i <;> rfl
@[simp] theorem clearGroups_errInfo (i : Instr) (s : State) :
    (clearGroups i s).errInfo = s.errInfo := by cases i <;> rfl
@[simp] theorem clearGroups_inLen (i : Instr) (s : State) :
    (clearGroups i s).inLen = s.inLen := by cases i <;> rfl
@[simp] theorem clearGroups_passLen (i : Instr) (s : State) :
    (clearGroups i s).passLen = s.passLen := by cases i <;> rfl
@[simp] theorem clearGroups_decLen (i : Instr) (s : State) :
    (clearGroups i s).decLen = (if clearsCont i then 0 else s.decLen) := by cases i <;> rfl
@[simp] theorem clearGroups_ctLen (i : Instr) (s : State) :
    (clearGroups i s).ctLen = (if clearsCont i then 0 else s.ctLen) := by cases i <;> rfl
@[simp] theorem clearGroups_outLen (i : Instr) (s : State) :
    (clearGroups i s).outLen = 0 := by cases i <;> rfl
@[simp] theorem clearGroups_padVal (i : Instr) (s : State) :
    (clearGroups i s).padVal = 0 := by cases i <;> rfl
@[simp] theorem clearGroups_key (i : Instr) (s : State) :
    (clearGroups i s).key = (if clearsKey i then Vector.replicate 32 0 else s.key) := by cases i <;> rfl
@[simp] theorem clearGroups_inBuf (i : Instr) (s : State) :
    (clearGroups i s).inBuf = s.inBuf := by cases i <;> rfl
@[simp] theorem clearGroups_passBuf (i : Instr) (s : State) :
    (clearGroups i s).passBuf = s.passBuf := by cases i <;> rfl
@[simp] theorem clearGroups_decBuf (i : Instr) (s : State) :
    (clearGroups i s).decBuf = (if clearsCont i then [] else s.decBuf) := by cases i <;> rfl
@[simp] theorem clearGroups_outBuf (i : Instr) (s : State) :
    (clearGroups i s).outBuf = [] := by cases i <;> rfl
@[simp] theorem clearGroups_pending (i : Instr) (s : State) :
    (clearGroups i s).pending = s.pending := by cases i <;> rfl
@[simp] theorem clearGroups_reply (i : Instr) (s : State) :
    (clearGroups i s).reply = s.reply := by cases i <;> rfl
@[simp] theorem acceptEngine_build (i : Instr) (s : State) :
    (acceptEngine i s).build = s.build := by cases i <;> rfl
@[simp] theorem acceptEngine_phase (i : Instr) (s : State) :
    (acceptEngine i s).phase = .busy := by cases i <;> rfl
@[simp] theorem acceptEngine_pendCmd (i : Instr) (s : State) :
    (acceptEngine i s).pendCmd = encode i := by cases i <;> rfl
@[simp] theorem acceptEngine_ie (i : Instr) (s : State) :
    (acceptEngine i s).ie = s.ie := by cases i <;> rfl
@[simp] theorem acceptEngine_done (i : Instr) (s : State) :
    (acceptEngine i s).done = false := by cases i <;> rfl
@[simp] theorem acceptEngine_err (i : Instr) (s : State) :
    (acceptEngine i s).err = false := by cases i <;> rfl
@[simp] theorem acceptEngine_werr (i : Instr) (s : State) :
    (acceptEngine i s).werr = s.werr := by cases i <;> rfl
@[simp] theorem acceptEngine_contValid (i : Instr) (s : State) :
    (acceptEngine i s).contValid = (if clearsCont i then false else s.contValid) := by cases i <;> rfl
@[simp] theorem acceptEngine_keyValid (i : Instr) (s : State) :
    (acceptEngine i s).keyValid = (if clearsKey i then false else s.keyValid) := by cases i <;> rfl
@[simp] theorem acceptEngine_outValid (i : Instr) (s : State) :
    (acceptEngine i s).outValid = false := by cases i <;> rfl
@[simp] theorem acceptEngine_errCode (i : Instr) (s : State) :
    (acceptEngine i s).errCode = 0 := by cases i <;> rfl
@[simp] theorem acceptEngine_errInfo (i : Instr) (s : State) :
    (acceptEngine i s).errInfo = 0 := by cases i <;> rfl
@[simp] theorem acceptEngine_inLen (i : Instr) (s : State) :
    (acceptEngine i s).inLen = s.inLen := by cases i <;> rfl
@[simp] theorem acceptEngine_passLen (i : Instr) (s : State) :
    (acceptEngine i s).passLen = s.passLen := by cases i <;> rfl
@[simp] theorem acceptEngine_decLen (i : Instr) (s : State) :
    (acceptEngine i s).decLen = (if clearsCont i then 0 else s.decLen) := by cases i <;> rfl
@[simp] theorem acceptEngine_ctLen (i : Instr) (s : State) :
    (acceptEngine i s).ctLen = (if clearsCont i then 0 else s.ctLen) := by cases i <;> rfl
@[simp] theorem acceptEngine_outLen (i : Instr) (s : State) :
    (acceptEngine i s).outLen = 0 := by cases i <;> rfl
@[simp] theorem acceptEngine_padVal (i : Instr) (s : State) :
    (acceptEngine i s).padVal = 0 := by cases i <;> rfl
@[simp] theorem acceptEngine_key (i : Instr) (s : State) :
    (acceptEngine i s).key = (if clearsKey i then Vector.replicate 32 0 else s.key) := by cases i <;> rfl
@[simp] theorem acceptEngine_inBuf (i : Instr) (s : State) :
    (acceptEngine i s).inBuf = s.inBuf := by cases i <;> rfl
@[simp] theorem acceptEngine_passBuf (i : Instr) (s : State) :
    (acceptEngine i s).passBuf = s.passBuf := by cases i <;> rfl
@[simp] theorem acceptEngine_decBuf (i : Instr) (s : State) :
    (acceptEngine i s).decBuf = (if clearsCont i then [] else s.decBuf) := by cases i <;> rfl
@[simp] theorem acceptEngine_outBuf (i : Instr) (s : State) :
    (acceptEngine i s).outBuf = [] := by cases i <;> rfl
@[simp] theorem acceptEngine_pending (i : Instr) (s : State) :
    (acceptEngine i s).pending = s.pending := by cases i <;> rfl
@[simp] theorem acceptEngine_reply (i : Instr) (s : State) :
    (acceptEngine i s).reply = s.reply := by cases i <;> rfl

/-! ### errorComplete -/

@[simp] theorem errorComplete_build (i : Instr) (e : Raise) (s : State) :
    (errorComplete i e s).build = s.build := by cases i <;> rfl
@[simp] theorem errorComplete_phase (i : Instr) (e : Raise) (s : State) :
    (errorComplete i e s).phase = .idle := by cases i <;> rfl
@[simp] theorem errorComplete_pendCmd (i : Instr) (e : Raise) (s : State) :
    (errorComplete i e s).pendCmd = s.pendCmd := by cases i <;> rfl
@[simp] theorem errorComplete_ie (i : Instr) (e : Raise) (s : State) :
    (errorComplete i e s).ie = s.ie := by cases i <;> rfl
@[simp] theorem errorComplete_done (i : Instr) (e : Raise) (s : State) :
    (errorComplete i e s).done = s.done := by cases i <;> rfl
@[simp] theorem errorComplete_err (i : Instr) (e : Raise) (s : State) :
    (errorComplete i e s).err = true := by cases i <;> rfl
@[simp] theorem errorComplete_werr (i : Instr) (e : Raise) (s : State) :
    (errorComplete i e s).werr = s.werr := by cases i <;> rfl
@[simp] theorem errorComplete_contValid (i : Instr) (e : Raise) (s : State) :
    (errorComplete i e s).contValid = (if i = .run then (clearGroups .run s).contValid else s.contValid) := by cases i <;> rfl
@[simp] theorem errorComplete_keyValid (i : Instr) (e : Raise) (s : State) :
    (errorComplete i e s).keyValid = (if i = .run then (clearGroups .run s).keyValid else s.keyValid) := by cases i <;> rfl
@[simp] theorem errorComplete_outValid (i : Instr) (e : Raise) (s : State) :
    (errorComplete i e s).outValid = (if i = .run then (clearGroups .run s).outValid else s.outValid) := by cases i <;> rfl
@[simp] theorem errorComplete_errCode (i : Instr) (e : Raise) (s : State) :
    (errorComplete i e s).errCode = e.code.code := by cases i <;> rfl
@[simp] theorem errorComplete_errInfo (i : Instr) (e : Raise) (s : State) :
    (errorComplete i e s).errInfo = e.info := by cases i <;> rfl
@[simp] theorem errorComplete_inLen (i : Instr) (e : Raise) (s : State) :
    (errorComplete i e s).inLen = s.inLen := by cases i <;> rfl
@[simp] theorem errorComplete_passLen (i : Instr) (e : Raise) (s : State) :
    (errorComplete i e s).passLen = s.passLen := by cases i <;> rfl
@[simp] theorem errorComplete_decLen (i : Instr) (e : Raise) (s : State) :
    (errorComplete i e s).decLen = (if i = .run then (clearGroups .run s).decLen else s.decLen) := by cases i <;> rfl
@[simp] theorem errorComplete_ctLen (i : Instr) (e : Raise) (s : State) :
    (errorComplete i e s).ctLen = (if i = .run then (clearGroups .run s).ctLen else s.ctLen) := by cases i <;> rfl
@[simp] theorem errorComplete_outLen (i : Instr) (e : Raise) (s : State) :
    (errorComplete i e s).outLen = (if i = .run then (clearGroups .run s).outLen else s.outLen) := by cases i <;> rfl
@[simp] theorem errorComplete_padVal (i : Instr) (e : Raise) (s : State) :
    (errorComplete i e s).padVal = (if i = .run then (clearGroups .run s).padVal else s.padVal) := by cases i <;> rfl
@[simp] theorem errorComplete_key (i : Instr) (e : Raise) (s : State) :
    (errorComplete i e s).key = (if i = .run then (clearGroups .run s).key else s.key) := by cases i <;> rfl
@[simp] theorem errorComplete_inBuf (i : Instr) (e : Raise) (s : State) :
    (errorComplete i e s).inBuf = s.inBuf := by cases i <;> rfl
@[simp] theorem errorComplete_passBuf (i : Instr) (e : Raise) (s : State) :
    (errorComplete i e s).passBuf = s.passBuf := by cases i <;> rfl
@[simp] theorem errorComplete_decBuf (i : Instr) (e : Raise) (s : State) :
    (errorComplete i e s).decBuf = (if i = .run then (clearGroups .run s).decBuf else s.decBuf) := by cases i <;> rfl
@[simp] theorem errorComplete_outBuf (i : Instr) (e : Raise) (s : State) :
    (errorComplete i e s).outBuf = (if i = .run then (clearGroups .run s).outBuf else s.outBuf) := by cases i <;> rfl
@[simp] theorem errorComplete_pending (i : Instr) (e : Raise) (s : State) :
    (errorComplete i e s).pending = s.pending := by cases i <;> rfl
@[simp] theorem errorComplete_reply (i : Instr) (e : Raise) (s : State) :
    (errorComplete i e s).reply = s.reply := by cases i <;> rfl

/-! ### resetEvent -/

@[simp] theorem resetEvent_build (s : State) : (resetEvent s).build = s.build := rfl
@[simp] theorem resetEvent_phase (s : State) : (resetEvent s).phase = (State.resetOf s.build).phase := rfl
@[simp] theorem resetEvent_pendCmd (s : State) : (resetEvent s).pendCmd = (State.resetOf s.build).pendCmd := rfl
@[simp] theorem resetEvent_ie (s : State) : (resetEvent s).ie = (State.resetOf s.build).ie := rfl
@[simp] theorem resetEvent_done (s : State) : (resetEvent s).done = (State.resetOf s.build).done := rfl
@[simp] theorem resetEvent_err (s : State) : (resetEvent s).err = (State.resetOf s.build).err := rfl
@[simp] theorem resetEvent_werr (s : State) : (resetEvent s).werr = (State.resetOf s.build).werr := rfl
@[simp] theorem resetEvent_contValid (s : State) : (resetEvent s).contValid = (State.resetOf s.build).contValid := rfl
@[simp] theorem resetEvent_keyValid (s : State) : (resetEvent s).keyValid = (State.resetOf s.build).keyValid := rfl
@[simp] theorem resetEvent_outValid (s : State) : (resetEvent s).outValid = (State.resetOf s.build).outValid := rfl
@[simp] theorem resetEvent_errCode (s : State) : (resetEvent s).errCode = (State.resetOf s.build).errCode := rfl
@[simp] theorem resetEvent_errInfo (s : State) : (resetEvent s).errInfo = (State.resetOf s.build).errInfo := rfl
@[simp] theorem resetEvent_inLen (s : State) : (resetEvent s).inLen = (State.resetOf s.build).inLen := rfl
@[simp] theorem resetEvent_passLen (s : State) : (resetEvent s).passLen = (State.resetOf s.build).passLen := rfl
@[simp] theorem resetEvent_decLen (s : State) : (resetEvent s).decLen = (State.resetOf s.build).decLen := rfl
@[simp] theorem resetEvent_ctLen (s : State) : (resetEvent s).ctLen = (State.resetOf s.build).ctLen := rfl
@[simp] theorem resetEvent_outLen (s : State) : (resetEvent s).outLen = (State.resetOf s.build).outLen := rfl
@[simp] theorem resetEvent_padVal (s : State) : (resetEvent s).padVal = (State.resetOf s.build).padVal := rfl
@[simp] theorem resetEvent_key (s : State) : (resetEvent s).key = (State.resetOf s.build).key := rfl
@[simp] theorem resetEvent_inBuf (s : State) : (resetEvent s).inBuf = (State.resetOf s.build).inBuf := rfl
@[simp] theorem resetEvent_passBuf (s : State) : (resetEvent s).passBuf = (State.resetOf s.build).passBuf := rfl
@[simp] theorem resetEvent_decBuf (s : State) : (resetEvent s).decBuf = (State.resetOf s.build).decBuf := rfl
@[simp] theorem resetEvent_outBuf (s : State) : (resetEvent s).outBuf = (State.resetOf s.build).outBuf := rfl
@[simp] theorem resetEvent_pending (s : State) : (resetEvent s).pending = s.pending := rfl
@[simp] theorem resetEvent_reply (s : State) : (resetEvent s).reply = (State.resetOf s.build).reply := rfl

end FieldsOfUpdates

/-! ### What the views read -/

@[simp] theorem busy_idle (s : State) (h : s.phase = .idle) : busy s = false := by
  simp [busy, h]

@[simp] theorem busy_busy (s : State) (h : s.phase = .busy) : busy s = true := by
  simp [busy, h]

end Sys2Proof.Machine
end

