-- ==== Sys2Proof/Laws/Memory.lean ====
section
/-! SUPPORT. The buffers: reading back what was written, the canonical form every operation keeps,
and that buffers in canonical form with equal bytes are equal data. -/

namespace Sys2Proof.Machine

@[simp] theorem Memory.read_nil (a : Nat) : Memory.read [] a = 0#8 := rfl

@[simp] theorem Memory.below_nil (cap : Nat) : Memory.below [] cap = true := rfl

@[simp] theorem Memory.wf_nil : Memory.wf [] = true := rfl

theorem Memory.wf_cons {a : Nat} {b : Byte} {m : Memory} :
    Memory.wf ((a, b) :: m) = true ↔
      b ≠ 0#8 ∧ (∀ c ∈ m, a < c.1) ∧ Memory.wf m = true := by
  simp [Memory.wf, and_assoc]

theorem Memory.below_iff {m : Memory} {cap : Nat} :
    Memory.below m cap = true ↔ ∀ c ∈ m, c.1 < cap := by
  simp [Memory.below]

theorem Memory.below_zero {m : Memory} (h : Memory.below m 0 = true) : m = [] := by
  cases m with
  | nil => rfl
  | cons c m => simp [Memory.below] at h

theorem Memory.below_mono {m : Memory} {c c' : Nat} (h : Memory.below m c = true) (hc : c ≤ c') :
    Memory.below m c' = true := by
  rw [Memory.below_iff] at *
  exact fun x hx => Nat.lt_of_lt_of_le (h x hx) hc

/-- An offset below every listed one reads 0. -/
theorem Memory.read_of_forall_lt {m : Memory} {a : Nat} (h : ∀ c ∈ m, a < c.1) :
    m.read a = 0#8 := by
  induction m with
  | nil => rfl
  | cons c m ih =>
    obtain ⟨a', b⟩ := c
    have h1 : a < a' := h (a', b) (by simp)
    simp [Memory.read, Nat.ne_of_lt h1, ih (fun c hc => h c (List.mem_cons_of_mem _ hc))]

/-- What a write leaves at every offset. -/
theorem Memory.read_write {m : Memory} (hw : m.wf = true) (a x : Nat) (b : Byte) :
    (m.write a b).read x = if x = a then b else m.read x := by
  induction m with
  | nil =>
    by_cases hb : b = 0#8 <;> simp [Memory.write, Memory.read, hb]
  | cons c m ih =>
    obtain ⟨a', b'⟩ := c
    obtain ⟨hb', hlt, hm⟩ := Memory.wf_cons.mp hw
    rcases Nat.lt_trichotomy a a' with h | h | h
    · by_cases hb : b = 0#8
      · by_cases hx : x = a
        · subst hx
          have : Memory.read m x = 0#8 :=
            Memory.read_of_forall_lt fun c hc => Nat.lt_trans h (hlt c hc)
          simp [Memory.write, Memory.read, h, hb, Nat.ne_of_lt h, this]
        · simp [Memory.write, Memory.read, h, hb, hx]
      · simp [Memory.write, Memory.read, h, hb]
    · subst h
      by_cases hb : b = 0#8
      · by_cases hx : x = a
        · subst hx
          simp [Memory.write, hb, Memory.read_of_forall_lt hlt]
        · simp [Memory.write, Memory.read, hb, hx]
      · by_cases hx : x = a <;> simp [Memory.write, Memory.read, hb, hx]
    · have h1 : ¬ a < a' := Nat.not_lt.mpr (Nat.le_of_lt h)
      have h2 : a ≠ a' := Nat.ne_of_gt h
      by_cases hx : x = a'
      · subst hx
        simp [Memory.write, Memory.read, h1, h2, Ne.symm h2]
      · simp [Memory.write, Memory.read, h1, h2, hx, ih hm]

@[simp] theorem Memory.read_write_same {m : Memory} (hw : m.wf = true) (a : Nat) (b : Byte) :
    (m.write a b).read a = b := by
  simp [Memory.read_write hw]

theorem Memory.read_write_ne {m : Memory} (hw : m.wf = true) {a x : Nat} (b : Byte) (h : x ≠ a) :
    (m.write a b).read x = m.read x := by
  simp [Memory.read_write hw, h]

/-- Every entry of a written buffer is an old one or the written one. -/
theorem Memory.mem_write {m : Memory} {a : Nat} {b : Byte} {c : Host.Cell}
    (h : c ∈ m.write a b) : c ∈ m ∨ c = (a, b) := by
  induction m with
  | nil => by_cases hb : b = 0#8 <;> simp_all [Memory.write]
  | cons d m ih =>
    obtain ⟨a', b'⟩ := d
    unfold Memory.write at h
    split_ifs at h with h1 h2 h3 h4
    · exact .inl h
    · rcases List.mem_cons.mp h with h | h
      · exact .inr h
      · exact .inl h
    · exact .inl (List.mem_cons_of_mem _ h)
    · rcases List.mem_cons.mp h with h | h
      · exact .inr h
      · exact .inl (List.mem_cons_of_mem _ h)
    · rcases List.mem_cons.mp h with h | h
      · exact .inl (by simp [h])
      · rcases ih h with h | h
        · exact .inl (List.mem_cons_of_mem _ h)
        · exact .inr h

/-- A write keeps the canonical form. -/
theorem Memory.wf_write {m : Memory} (hw : m.wf = true) (a : Nat) (b : Byte) :
    (m.write a b).wf = true := by
  induction m with
  | nil => by_cases hb : b = 0#8 <;> simp [Memory.write, Memory.wf, hb]
  | cons c m ih =>
    obtain ⟨a', b'⟩ := c
    obtain ⟨hb', hlt, hm⟩ := Memory.wf_cons.mp hw
    rcases Nat.lt_trichotomy a a' with h | h | h
    · by_cases hb : b = 0#8
      · simpa [Memory.write, h, hb] using hw
      · simp only [Memory.write, h, hb, if_true, if_false]
        refine Memory.wf_cons.mpr ⟨hb, fun c hc => ?_, hw⟩
        rcases List.mem_cons.mp hc with rfl | hc
        · exact h
        · exact Nat.lt_trans h (hlt c hc)
    · subst h
      by_cases hb : b = 0#8
      · simpa [Memory.write, hb] using hm
      · simpa [Memory.write, hb] using Memory.wf_cons.mpr ⟨hb, hlt, hm⟩
    · have h1 : ¬ a < a' := Nat.not_lt.mpr (Nat.le_of_lt h)
      have h2 : a ≠ a' := Nat.ne_of_gt h
      simp only [Memory.write, h1, h2, if_false]
      refine Memory.wf_cons.mpr ⟨hb', fun c hc => ?_, ih hm⟩
      rcases Memory.mem_write hc with hc | rfl
      · exact hlt c hc
      · exact h

/-- A write below a bound keeps the buffer below it. -/
theorem Memory.below_write {m : Memory} {cap : Nat} (hm : m.below cap = true) {a : Nat}
    (ha : a < cap) (b : Byte) : (m.write a b).below cap = true := by
  rw [Memory.below_iff] at *
  intro c hc
  rcases Memory.mem_write hc with hc | rfl
  · exact hm c hc
  · exact ha

/-- Buffers in canonical form with equal bytes are equal data. -/
theorem Memory.ext_of_wf {m n : Memory} (hm : m.wf = true) (hn : n.wf = true)
    (h : ∀ a, m.read a = n.read a) : m = n := by
  induction m generalizing n with
  | nil =>
    cases n with
    | nil => rfl
    | cons d n =>
      obtain ⟨a, b⟩ := d
      exact absurd (by simpa [Memory.read] using (h a).symm) (Memory.wf_cons.mp hn).1
  | cons c m ih =>
    obtain ⟨a, b⟩ := c
    obtain ⟨hb, hlt, hm'⟩ := Memory.wf_cons.mp hm
    cases n with
    | nil => exact absurd (by simpa [Memory.read] using h a) hb
    | cons d n =>
      obtain ⟨a', b'⟩ := d
      obtain ⟨hb', hlt', hn'⟩ := Memory.wf_cons.mp hn
      have haa : a = a' := by
        rcases Nat.lt_trichotomy a a' with g | g | g
        · have h1 := h a
          have h2 : Memory.read ((a', b') :: n) a = 0#8 :=
            Memory.read_of_forall_lt fun c hc => by
              rcases List.mem_cons.mp hc with rfl | hc
              · exact g
              · exact Nat.lt_trans g (hlt' c hc)
          rw [h2] at h1
          exact absurd (by simpa [Memory.read] using h1) hb
        · exact g
        · have h1 := h a'
          have h2 : Memory.read ((a, b) :: m) a' = 0#8 :=
            Memory.read_of_forall_lt fun c hc => by
              rcases List.mem_cons.mp hc with rfl | hc
              · exact g
              · exact Nat.lt_trans g (hlt c hc)
          rw [h2] at h1
          exact absurd (by simpa [Memory.read] using h1.symm) hb'
      subst haa
      have hbb : b = b' := by simpa [Memory.read] using h a
      subst hbb
      congr 1
      refine ih hm' hn' fun x => ?_
      by_cases hx : x = a
      · subst hx
        rw [Memory.read_of_forall_lt hlt, Memory.read_of_forall_lt hlt']
      · simpa [Memory.read, hx] using h x

/-! ### Sequences of bytes -/

@[simp] theorem Memory.readN_length (m : Memory) (o n : Nat) : (m.readN o n).length = n := by
  simp [Memory.readN]

@[simp] theorem Memory.readN_zero (m : Memory) (o : Nat) : m.readN o 0 = [] := rfl

theorem Memory.readN_getD (m : Memory) (o n i : Nat) (h : i < n) :
    (m.readN o n).getD i 0#8 = m.read (o + i) := by
  simp [Memory.readN, List.getD, h]

theorem Memory.readN_congr {m n : Memory} {o k : Nat}
    (h : ∀ i, i < k → m.read (o + i) = n.read (o + i)) : m.readN o k = n.readN o k := by
  refine List.map_congr_left fun i hi => h i (List.mem_range.mp hi)

theorem Memory.wf_writeN {m : Memory} (hw : m.wf = true) (o : Nat) (bs : List Byte) :
    (m.writeN o bs).wf = true := by
  induction bs generalizing m o with
  | nil => exact hw
  | cons b bs ih => exact ih (Memory.wf_write hw o b) (o + 1)

theorem Memory.below_writeN {m : Memory} {cap : Nat} (hm : m.below cap = true) (o : Nat)
    (bs : List Byte) (h : o + bs.length ≤ cap) : (m.writeN o bs).below cap = true := by
  induction bs generalizing m o with
  | nil => exact hm
  | cons b bs ih =>
    simp only [List.length_cons] at h
    exact ih (Memory.below_write hm (by omega) b) (o + 1) (by omega)

/-- What a sequence written leaves at every offset. -/
theorem Memory.read_writeN {m : Memory} (hw : m.wf = true) (o : Nat) (bs : List Byte) (x : Nat) :
    (m.writeN o bs).read x =
      if o ≤ x ∧ x < o + bs.length then bs.getD (x - o) 0#8 else m.read x := by
  induction bs generalizing m o with
  | nil =>
    have : ¬ (o ≤ x ∧ x < o + ([] : List Byte).length) := by simp
    simp only [this, if_false]
    rfl
  | cons b bs ih =>
    simp only [Memory.writeN, List.length_cons]
    rw [ih (Memory.wf_write hw o b) (o + 1), Memory.read_write hw]
    by_cases h1 : x = o
    · subst h1
      simp
    · by_cases h2 : o + 1 ≤ x ∧ x < o + 1 + bs.length
      · have h3 : o ≤ x ∧ x < o + (bs.length + 1) := by omega
        obtain ⟨k, hk⟩ : ∃ k, x - o = k + 1 := ⟨x - o - 1, by omega⟩
        have hk' : x - (o + 1) = k := by omega
        simp only [h2, h3, if_true, and_self, hk, hk', List.getD_cons_succ]
      · have h3 : ¬ (o ≤ x ∧ x < o + (bs.length + 1)) := by omega
        simp only [h2, h3, h1, if_false]

/-- Reading back a sequence just written. -/
theorem Memory.readN_writeN {m : Memory} (hw : m.wf = true) (o : Nat) (bs : List Byte) :
    (m.writeN o bs).readN o bs.length = bs := by
  refine List.ext_getElem (by simp) fun i h1 h2 => ?_
  simp only [Memory.readN, List.getElem_map, List.getElem_range]
  rw [Memory.read_writeN hw]
  simp [h2]

/-! ### Bus writes -/

theorem writeLane_wf {m : Memory} (hw : m.wf = true) (cap o : Nat) (v : Word) (strb : Strobe)
    (j : Nat) : (writeLane m cap o v strb j).wf = true := by
  unfold writeLane
  split
  · exact Memory.wf_write hw _ _
  · exact hw

theorem writeLane_below {m : Memory} {cap : Nat} (hm : m.below cap = true) (o : Nat) (v : Word)
    (strb : Strobe) (j : Nat) : (writeLane m cap o v strb j).below cap = true := by
  unfold writeLane
  split
  · rename_i h
    simp only [Bool.and_eq_true, decide_eq_true_eq] at h
    exact Memory.below_write hm h.2 _
  · exact hm

theorem writeLane_read {m : Memory} (hw : m.wf = true) (cap o : Nat) (v : Word) (strb : Strobe)
    (j x : Nat) :
    (writeLane m cap o v strb j).read x =
      if x = o + j ∧ x < cap ∧ strb.getLsbD j = true then lane v j else m.read x := by
  unfold writeLane
  split
  · rename_i h
    simp only [Bool.and_eq_true, decide_eq_true_eq] at h
    rw [Memory.read_write hw]
    by_cases hx : x = o + j
    · subst hx
      simp [h]
    · simp [hx]
  · rename_i h
    simp only [Bool.and_eq_true, decide_eq_true_eq, not_and] at h
    split
    · rename_i g
      obtain ⟨rfl, g2, g3⟩ := g
      exact absurd g2 (h g3)
    · rfl

theorem writeLanes_wf {m : Memory} (hw : m.wf = true) (cap o : Nat) (v : Word) (strb : Strobe) :
    (writeLanes m cap o v strb).wf = true :=
  writeLane_wf (writeLane_wf (writeLane_wf (writeLane_wf hw _ _ _ _ _) _ _ _ _ _) _ _ _ _ _) _ _ _ _ _

theorem writeLanes_below {m : Memory} {cap : Nat} (hm : m.below cap = true) (o : Nat) (v : Word)
    (strb : Strobe) : (writeLanes m cap o v strb).below cap = true :=
  writeLane_below (writeLane_below (writeLane_below (writeLane_below hm _ _ _ _) _ _ _ _) _ _ _ _) _ _ _ _

/-- Every byte of a buffer after a bus write: a strobed byte that exists is the word's lane. -/
theorem writeLanes_read {m : Memory} (hw : m.wf = true) (cap o : Nat) (v : Word) (strb : Strobe)
    (x : Nat) :
    (writeLanes m cap o v strb).read x =
      if o ≤ x ∧ x < o + 4 ∧ x < cap ∧ strb.getLsbD (x - o) = true then lane v (x - o)
      else m.read x := by
  have w0 := writeLane_wf hw cap o v strb 0
  have w1 := writeLane_wf w0 cap o v strb 1
  have w2 := writeLane_wf w1 cap o v strb 2
  simp only [writeLanes]
  rw [writeLane_read w2, writeLane_read w1, writeLane_read w0, writeLane_read hw]
  by_cases hx : o ≤ x ∧ x < o + 4
  · obtain ⟨d, rfl⟩ : ∃ d, x = o + d := ⟨x - o, by omega⟩
    have hd : d < 4 := by omega
    have he : o + d - o = d := by omega
    simp only [he]
    interval_cases d <;> simp
  · rw [if_neg (by omega), if_neg (by omega), if_neg (by omega), if_neg (by omega),
      if_neg (by tauto)]

/-- A bus write past the capacity stores nothing. -/
theorem writeLanes_past {m : Memory} {cap o : Nat} (h : cap ≤ o) (v : Word) (strb : Strobe) :
    writeLanes m cap o v strb = m := by
  have h1 : ∀ m j, writeLane m cap o v strb j = m := by
    intro m j
    unfold writeLane
    rw [if_neg]
    simp
    omega
  simp [writeLanes, h1]

/-- Reading back a part of a sequence written from offset 0. -/
theorem Memory.readN_writeN_sub {m : Memory} (hw : m.wf = true) (d : List Byte) (o n : Nat)
    (h : o + n ≤ d.length) : (m.writeN 0 d).readN o n = (d.drop o).take n := by
  refine List.ext_getElem (by simp; omega) fun i h1 h2 => ?_
  simp only [Memory.readN_length] at h1
  simp only [Memory.readN, List.getElem_map, List.getElem_range]
  rw [Memory.read_writeN hw, if_pos (by omega)]
  simp only [Nat.sub_zero, List.getElem_take, List.getElem_drop]
  rw [List.getD_eq_getElem _ _ (by omega)]

end Sys2Proof.Machine
end

