-- ==== Sys2Proof/Laws/Bytes.lean ====
section
/-! SUPPORT. Lanes, byte orders and the lengths of the byte sequences the algorithms give. -/

namespace Sys2Proof.Machine

/-! ### Lanes -/

/-- The lanes of a word made of four bytes. -/
theorem lane_wordOfLanes (b0 b1 b2 b3 : Byte) (k : Nat) (hk : k < 4) :
    lane (wordOfLanes b0 b1 b2 b3) k = [b0, b1, b2, b3].getD k 0 := by
  apply BitVec.eq_of_getLsbD_eq
  intro i hi
  interval_cases k <;> interval_cases i <;> simp [lane, wordOfLanes]

@[simp] theorem lane_wordOfLanes_0 (b0 b1 b2 b3 : Byte) : lane (wordOfLanes b0 b1 b2 b3) 0 = b0 :=
  lane_wordOfLanes b0 b1 b2 b3 0 (by omega)

@[simp] theorem lane_wordOfLanes_1 (b0 b1 b2 b3 : Byte) : lane (wordOfLanes b0 b1 b2 b3) 1 = b1 :=
  lane_wordOfLanes b0 b1 b2 b3 1 (by omega)

@[simp] theorem lane_wordOfLanes_2 (b0 b1 b2 b3 : Byte) : lane (wordOfLanes b0 b1 b2 b3) 2 = b2 :=
  lane_wordOfLanes b0 b1 b2 b3 2 (by omega)

@[simp] theorem lane_wordOfLanes_3 (b0 b1 b2 b3 : Byte) : lane (wordOfLanes b0 b1 b2 b3) 3 = b3 :=
  lane_wordOfLanes b0 b1 b2 b3 3 (by omega)

/-- A word is the word of its lanes. -/
@[simp] theorem wordOfLanes_lanes (v : Word) :
    wordOfLanes (lane v 0) (lane v 1) (lane v 2) (lane v 3) = v := by
  apply BitVec.eq_of_getLsbD_eq
  intro i hi
  interval_cases i <;> simp [lane, wordOfLanes]

/-- A bit of a word, by its lane. -/
theorem getLsbD_lane (v : Word) (i : Nat) : (lane v (i / 8)).getLsbD (i % 8) = v.getLsbD i := by
  have h : i % 8 < 8 := Nat.mod_lt _ (by omega)
  simp [lane, h, Nat.div_add_mod]

/-- The lanes of a merged word. -/
theorem lane_merge (r v : Word) (strb : Strobe) (k : Nat) (hk : k < 4) :
    lane (merge r v strb) k = if strb.getLsbD k then lane v k else lane r k := by
  rw [merge, lane_wordOfLanes _ _ _ _ _ hk]
  interval_cases k <;> rfl

/-- The bits of a merged word: the value's where the strobe of the bit's lane is set. -/
theorem merge_getLsbD (r v : Word) (strb : Strobe) (i : Nat) (hi : i < 32) :
    (merge r v strb).getLsbD i = if strb.getLsbD (i / 8) then v.getLsbD i else r.getLsbD i := by
  rw [← getLsbD_lane, lane_merge _ _ _ _ (by omega), ← getLsbD_lane v, ← getLsbD_lane r]
  split <;> rfl

/-- The bits of a masked value. -/
theorem mask_getLsbD (v : Word) (strb : Strobe) (i : Nat) (hi : i < 32) :
    (mask v strb).getLsbD i = (strb.getLsbD (i / 8) && v.getLsbD i) := by
  rw [mask, merge_getLsbD _ _ _ _ hi]
  cases strb.getLsbD (i / 8) <;> simp

/-! ### The flag words -/

theorem bitAt_getLsbD (b : Bool) (k i : Nat) (hk : k < 32) :
    (bitAt b k).getLsbD i = (b && decide (i = k)) := by
  cases b
  · simp [bitAt]
  · simp only [bitAt, if_true, BitVec.getLsbD_shiftLeft, BitVec.getLsbD_one, Bool.true_and]
    by_cases h : i = k
    · subst h
      simp [hk]
    · simp [h]
      omega

theorem ctrlWord_bit0 (s : State) : (ctrlWord s).getLsbD 0 = s.ie := by
  rw [ctrlWord, bitAt_getLsbD _ _ _ (by omega)]
  simp

/-- The bits of the STATUS word. -/
theorem statusWord_bit (s : State) (i : Nat) (hi : i < 32) :
    (statusWord s).getLsbD i =
      [busy s, s.done, s.err, s.werr, s.contValid, s.keyValid, s.outValid].getD i false := by
  unfold statusWord
  simp only [BitVec.getLsbD_or]
  rw [bitAt_getLsbD _ _ _ (by omega), bitAt_getLsbD _ _ _ (by omega),
    bitAt_getLsbD _ _ _ (by omega), bitAt_getLsbD _ _ _ (by omega),
    bitAt_getLsbD _ _ _ (by omega), bitAt_getLsbD _ _ _ (by omega),
    bitAt_getLsbD _ _ _ (by omega)]
  interval_cases i <;> simp

/-! ### Lengths -/

@[simp] theorem be32_length (x : Word) : (be32 x).length = 4 := rfl

@[simp] theorem be64_length (x : BitVec 64) : (be64 x).length = 8 := rfl

@[simp] theorem xorBytes_length (a b : List Byte) :
    (xorBytes a b).length = min a.length b.length := by
  simp [xorBytes]

@[simp] theorem keyBytes_length (k : Vector Byte 32) : (keyBytes k).length = 32 := by
  simp [keyBytes]

@[simp] theorem shaDigest_length (s : Sha) : (shaDigest s).length = 32 := rfl

@[simp] theorem sha256_length (m : List Byte) : (sha256 m).length = 32 := rfl

@[simp] theorem hmac_length (k m : List Byte) : (hmac k m).length = 32 := rfl

theorem pbkdf2Loop_length (p : List Byte) (n : Nat) (u t : List Byte) (ht : t.length = 32) :
    (pbkdf2Loop p n u t).length = 32 := by
  induction n generalizing u t with
  | zero => exact ht
  | succ n ih => exact ih _ _ (by simp [ht])

@[simp] theorem pbkdf2F_length (p s : List Byte) (c i : Nat) : (pbkdf2F p s c i).length = 32 :=
  pbkdf2Loop_length _ _ _ _ (hmac_length _ _)

/-- The one block SVD derives: F with block index 1. -/
theorem deriveKey_eq (p s : List Byte) : deriveKey p s = pbkdf2F p s Config.iter 1 := by
  unfold deriveKey pbkdf2
  have h : (Config.keyLen + 31) / 32 = 1 := rfl
  rw [h]
  simp only [List.range_one, List.flatMap_cons, List.flatMap_nil, List.append_nil]
  exact List.take_of_length_le (by simp [Config.keyLen])

@[simp] theorem deriveKey_length (p s : List Byte) : (deriveKey p s).length = 32 := by
  rw [deriveKey_eq]
  exact pbkdf2F_length _ _ _ _

/-- The KEY register holds a 32-byte sequence as it is. -/
theorem keyBytes_keyOfBytes (dk : List Byte) (h : dk.length = 32) :
    keyBytes (keyOfBytes dk) = dk := by
  refine List.ext_getElem (by simp [h]) fun i h1 h2 => ?_
  simp [keyBytes, keyOfBytes, h2]

@[simp] theorem aesStore_length (s : Aes) : (aesStore s).length = 16 := rfl

theorem cbcLoop_length (w : List Col) (n : Nat) (prev c : List Byte) (hp : prev.length = 16)
    (hc : c.length = 16 * n) : (cbcLoop w n prev c).length = 16 * n := by
  induction n generalizing prev c with
  | zero => rfl
  | succ n ih =>
    have h1 : (c.take 16).length = 16 := by simp; omega
    simp only [cbcLoop, List.length_append, xorBytes_length]
    rw [ih (c.take 16) (c.drop 16) h1 (by simp; omega)]
    simp only [aesDecBlock, aesStore_length, hp]
    omega

theorem cbcDec_length (k iv c : List Byte) (hiv : iv.length = 16) (hc : c.length % 16 = 0) :
    (cbcDec k iv c).length = c.length := by
  unfold cbcDec
  rw [cbcLoop_length _ _ _ _ hiv (by omega)]
  omega

theorem base64Groups_length (t : List Byte) : (base64Groups t).length = 3 * (t.length / 4) := by
  induction t using base64Groups.induct with
  | case1 c0 c1 c2 c3 t ih =>
    simp only [base64Groups, List.length_cons, ih]
    omega
  | case2 t h =>
    have : t.length < 4 := by
      match t, h with
      | [], _ => simp
      | [_], _ => simp
      | [_, _], _ => simp
      | [_, _, _], _ => simp
      | _ :: _ :: _ :: _ :: _, h => exact absurd rfl (h _ _ _ _ _)
    rw [base64Groups]
    · simp
      omega
    · exact h

end Sys2Proof.Machine
end

