-- ==== Sys2Proof/Laws/Exec.lean ====
section
/-! SUPPORT. What each shared operation can do, said once: acceptance, completion, host writes, the
engine's turn and the step. -/

namespace Sys2Proof.Machine

/-! ### Decoding -/

theorem decode_encode (i : Instr) : decode (encode i) = .ok i := by cases i <;> rfl

theorem encode_injective {i j : Instr} (h : encode i = encode j) : i = j := by
  have := decode_encode i
  rw [h, decode_encode j] at this
  exact (Except.ok.inj this).symm

/-- Only a command's own word decodes to it. -/
theorem eq_encode_of_decode {w : Word} {i : Instr} (h : decode w = .ok i) : w = encode i := by
  simp only [decode] at h
  split_ifs at h with h1 h2
  have e : w = wordOfFields (fieldsOfWord w) := by
    apply BitVec.eq_of_getLsbD_eq
    intro k hk
    interval_cases k <;> simp [wordOfFields, fieldsOfWord]
  have f : fieldsOfWord w = i.fields := by
    have g : opcodeInstr (fieldsOfWord w).opcode = some i := by
      revert h
      cases opcodeInstr (fieldsOfWord w).opcode <;> simp
    have hop : (fieldsOfWord w).opcode = i.opcode := by
      revert g
      unfold opcodeInstr
      split_ifs with g1 g2 g3 g4 g5 <;> intro g <;> cases g <;> assumption
    cases hf : fieldsOfWord w
    rw [hf] at h1 h2 hop
    simp only [ne_eq, not_not] at h1 h2
    simp only at hop
    simp [Instr.fields, h1, h2, hop]
  rw [e, f]
  rfl

/-! ### The life of a command -/

/-- The completion pseudocode of the command the engine runs. -/
def resultOf (i : Instr) (s : State) : Except Raise State :=
  match i with
  | .decode => decodeResult s
  | .derive => deriveResult s
  | .decrypt => decryptResult s
  | .run => runResult s
  | .clear => .ok s

/-- IDLE, a command the engine completes is accepted. -/
theorem exec_idle {i : Instr} (hi : runsInEngine i = true) {s : State} (h : s.phase = .idle) :
    exec i s = .next (acceptEngine i s) := by
  cases i <;>
    simp_all [exec, execDecode, execDerive, execDecrypt, execRun, runsInEngine]

/-- BUSY, a command the engine completes is completed. -/
theorem exec_busy {i : Instr} (hi : runsInEngine i = true) {s : State} (h : s.phase = .busy) :
    exec i s = .next (complete i (resultOf i s) s) := by
  cases i <;>
    simp_all [exec, execDecode, execDerive, execDecrypt, execRun, runsInEngine, resultOf]

/-- IDLE, CLEAR is accepted and completed at once. -/
theorem exec_clear_idle {s : State} (h : s.phase = .idle) :
    exec .clear s = .next (clearComplete (acceptHead (encode .clear) s)) := by
  simp [exec, execClear, h]

/-- BUSY, CLEAR is dropped. -/
theorem exec_clear_busy {s : State} (h : s.phase = .busy) : exec .clear s = .next (dropWrite s) := by
  simp [exec, execClear, h]

/-- A result, where the command raises nothing. -/
theorem complete_ok (i : Instr) {s s' : State} {r : Except Raise State} (h : r = .ok s') :
    complete i r s = doneComplete s' := by simp [complete, h]

/-- The error, where the command raises one. -/
theorem complete_error (i : Instr) {s : State} {e : Raise} {r : Except Raise State}
    (h : r = .error e) : complete i r s = errorComplete i e s := by simp [complete, h]

/-- What completion leaves of the fields no command writes. -/
structure SameInputs (s t : State) : Prop where
  build : t.build = s.build
  pendCmd : t.pendCmd = s.pendCmd
  ie : t.ie = s.ie
  werr : t.werr = s.werr
  inLen : t.inLen = s.inLen
  passLen : t.passLen = s.passLen
  inBuf : t.inBuf = s.inBuf
  passBuf : t.passBuf = s.passBuf
  pending : t.pending = s.pending
  reply : t.reply = s.reply

/-- DECODE's result is its container written. -/
theorem decodeResult_ok {s t : State} (h : decodeResult s = .ok t) :
    ∃ d, decodeCore s = .ok d ∧ t = writeCont d s := by
  unfold decodeResult at h
  split at h
  · rename_i d hd
    exact ⟨d, hd, (Except.ok.inj h).symm⟩
  · cases h

/-- DERIVE's result is its key written. -/
theorem deriveResult_ok {s t : State} (h : deriveResult s = .ok t) :
    s.contValid = true ∧ s.passLen.toNat ≤ s.build.maxPassLen ∧
      t = writeKey (deriveKey (opPass s) (opSalt s)) s := by
  unfold deriveResult at h
  split at h
  · rename_i dk hd
    unfold deriveCore at hd
    split_ifs at hd with h1 h2
    cases hd
    exact ⟨by simpa using h1, by omega, (Except.ok.inj h).symm⟩
  · cases h

/-- DECRYPT's result is its plaintext written. -/
theorem decryptResult_ok {s t : State} (h : decryptResult s = .ok t) :
    ∃ tp, decryptCore s = .ok tp ∧ t = writeOut tp.1 tp.2 s := by
  unfold decryptResult at h
  split at h
  · rename_i d hd
    exact ⟨d, hd, (Except.ok.inj h).symm⟩
  · cases h

/-- RUN's result is the results of its three stages in turn. -/
theorem runResult_ok {s t : State} (h : runResult s = .ok t) :
    ∃ s1 s2, decodeResult s = .ok s1 ∧ deriveResult s1 = .ok s2 ∧ decryptResult s2 = .ok t := by
  unfold runResult at h
  split at h
  · cases h
  · rename_i s1 h1
    split at h
    · cases h
    · rename_i s2 h2
      exact ⟨s1, s2, h1, h2, h⟩

/-- A container DECODE accepts is at least 48 bytes and fits DEC. -/
theorem decodeText_length {t d : List Byte} (h : decodeText t = .ok d) :
    48 ≤ d.length ∧ d.length ≤ 3 * t.length / 4 := by
  simp only [decodeText] at h
  by_cases h1 : t.length % 4 ≠ 0
  · rw [if_pos h1] at h
    cases h
  rw [if_neg h1] at h
  split at h
  · cases h
  · split_ifs at h with h2 h3
    cases h
    have hk : padStart t ≤ t.length := List.findIdx_le_length
    simp only [Config.hdrLen, ne_eq, not_not] at h1 h3
    simp only [List.length_take, base64Groups_length]
    omega

/-- DECODE reads its text only when the length is within capacity. -/
theorem decodeCore_ok {s : State} {d : List Byte} (h : decodeCore s = .ok d) :
    s.inLen.toNat ≤ s.build.maxB64Len ∧ decodeText (opText s) = .ok d := by
  unfold decodeCore at h
  split_ifs at h with h1
  exact ⟨by omega, h⟩

@[simp] theorem opText_length (s : State) : (opText s).length = s.inLen.toNat := by simp [opText]

@[simp] theorem opPass_length (s : State) : (opPass s).length = s.passLen.toNat := by simp [opPass]

@[simp] theorem opCipher_length (s : State) : (opCipher s).length = s.ctLen.toNat := by
  simp [opCipher]

@[simp] theorem opIv_length (s : State) : (opIv s).length = 16 := by simp [opIv, Config.ivLen]

/-- What DECRYPT needs and gives: a valid container and key, a positive whole number of blocks, and
a text of `n - p` bytes with no UTF-8 error. -/
theorem decryptCore_ok {s : State} {tp : List Byte × Byte} (h : decryptCore s = .ok tp) :
    s.contValid = true ∧ s.keyValid = true ∧ 0 < s.ctLen.toNat ∧ s.ctLen.toNat % 16 = 0 ∧
      1 ≤ tp.2.toNat ∧ tp.1.length + tp.2.toNat = s.ctLen.toNat ∧ utf8FirstError tp.1 = none := by
  unfold decryptCore at h
  split_ifs at h with h1 h2 h3
  simp only [Config.block, not_or, not_not] at h3
  unfold plaintextOf at h
  split at h
  · cases h
  · rename_i tp' ht
    unfold checkText at h
    split at h
    · cases h
    · rename_i hu
      cases h
      have hl : (cbcDec (opKey s) (opIv s) (opCipher s)).length = s.ctLen.toNat := by
        rw [cbcDec_length _ _ _ (opIv_length s) (by simpa using h3.2), opCipher_length]
      simp only [truncateByLast] at ht
      split_ifs at ht with h4
      cases ht
      simp only [hl, not_or, Nat.not_lt] at h4
      refine ⟨by simpa using h1, by simpa using h2, by omega, h3.2, ?_, ?_, hu⟩
      · simp only [hl]
        omega
      · simp only [List.length_take, hl]
        omega

/-- A result leaves the inputs. -/
theorem sameInputs_resultOf {i : Instr} {s t : State} (h : resultOf i s = .ok t) :
    SameInputs s t := by
  cases i <;> simp only [resultOf] at h
  · obtain ⟨_, _, rfl⟩ := decodeResult_ok h
    constructor <;> rfl
  · obtain ⟨_, _, rfl⟩ := deriveResult_ok h
    constructor <;> rfl
  · obtain ⟨_, _, rfl⟩ := decryptResult_ok h
    constructor <;> rfl
  · obtain ⟨s1, s2, h1, h2, h3⟩ := runResult_ok h
    obtain ⟨_, _, rfl⟩ := decodeResult_ok h1
    obtain ⟨_, _, rfl⟩ := deriveResult_ok h2
    obtain ⟨_, _, rfl⟩ := decryptResult_ok h3
    constructor <;> rfl
  · cases h
    constructor <;> rfl

/-- A completion leaves the inputs, whatever its outcome. -/
theorem sameInputs_complete (i : Instr) (s : State) :
    SameInputs s (complete i (resultOf i s) s) := by
  cases hr : resultOf i s with
  | ok t =>
    obtain ⟨a, b, c, d, e, f, g, h, j, k⟩ := sameInputs_resultOf hr
    exact ⟨a, b, c, d, e, f, g, h, j, k⟩
  | error e => cases i <;> constructor <;> rfl

/-- After a completion the engine is IDLE. -/
theorem complete_phase (i : Instr) (r : Except Raise State) (s : State) :
    (complete i r s).phase = .idle := by
  cases r <;> cases i <;> rfl

/-! ### The engine's turn -/

/-- What a turn of the engine can do. -/
theorem engineTurn_cases {s t : State} (h : engineTurn s = .next t) :
    (s.phase = .idle ∧ t = s) ∨
      ∃ i, s.phase = .busy ∧ s.pendCmd = encode i ∧ runsInEngine i = true ∧
        t = complete i (resultOf i s) s := by
  unfold engineTurn at h
  cases hp : s.phase with
  | idle =>
    simp only [hp] at h
    cases h
    exact .inl ⟨rfl, rfl⟩
  | busy =>
    simp only [hp] at h
    cases hd : decode s.pendCmd with
    | error e => simp [hd] at h
    | ok i =>
      simp only [hd] at h
      split_ifs at h with hr
      rw [exec_busy hr hp] at h
      cases h
      exact .inr ⟨i, rfl, eq_encode_of_decode hd, hr, rfl⟩

/-- The engine completes the command in PEND_CMD. -/
theorem engineTurn_busy {s : State} {i : Instr} (hp : s.phase = .busy)
    (hc : s.pendCmd = encode i) (hr : runsInEngine i = true) :
    engineTurn s = .next (complete i (resultOf i s) s) := by
  simp only [engineTurn, hp, hc, decode_encode, hr, if_true]
  exact exec_busy hr hp

/-- IDLE, the engine does nothing. -/
theorem engineTurn_idle {s : State} (hp : s.phase = .idle) : engineTurn s = .next s := by
  simp [engineTurn, hp]

/-! ### Host writes -/

/-- What acceptance of a word can do. -/
theorem accept_cases {w : Word} {s t : State} (hp : s.phase = .idle) (h : accept w s = .next t) :
    (∃ i, w = encode i ∧ runsInEngine i = true ∧ t = acceptEngine i s) ∨
      (w = encode .clear ∧ t = clearComplete (acceptHead (encode .clear) s)) ∨
      ((∃ e, decode w = .error e) ∧ t = illegalComplete w s) := by
  unfold accept at h
  cases hd : decode w with
  | error e =>
    simp only [hd] at h
    cases h
    exact .inr (.inr ⟨⟨e, rfl⟩, rfl⟩)
  | ok i =>
    simp only [hd] at h
    have hw := eq_encode_of_decode hd
    by_cases hr : runsInEngine i = true
    · rw [exec_idle hr hp] at h
      cases h
      exact .inl ⟨i, hw, hr, rfl⟩
    · have : i = .clear := by cases i <;> simp_all [runsInEngine]
      subst this
      rw [exec_clear_idle hp] at h
      cases h
      exact .inr (.inl ⟨hw, rfl⟩)

/-- What a host write can do. -/
inductive WriteEffect (s : State) : State → Prop
  | none : WriteEffect s s
  | drop (hp : s.phase = .busy) : WriteEffect s (dropWrite s)
  | ctrl (b : Bool) : WriteEffect s { s with ie := b }
  | w1c (v : Word) : WriteEffect s (writeOneToClear v s)
  | inLen (hp : s.phase = .idle) (v : Word) : WriteEffect s { s with inLen := v }
  | passLen (hp : s.phase = .idle) (v : Word) : WriteEffect s { s with passLen := v }
  | input (hp : s.phase = .idle) (o : Nat) (v : Word) (strb : Strobe) :
      WriteEffect s { s with inBuf := writeLanes s.inBuf s.build.maxB64Len o v strb }
  | pass (hp : s.phase = .idle) (o : Nat) (v : Word) (strb : Strobe) :
      WriteEffect s { s with passBuf := writeLanes s.passBuf s.build.maxPassLen o v strb }
  | accept (hp : s.phase = .idle) (i : Instr) (hr : runsInEngine i = true) :
      WriteEffect s (acceptEngine i s)
  | clear (hp : s.phase = .idle) : WriteEffect s (clearComplete (acceptHead (encode .clear) s))
  | illegal (hp : s.phase = .idle) (w : Word) (e : DecodeError) (hd : decode w = .error e) :
      WriteEffect s (illegalComplete w s)

theorem phase_idle_of_not_busy {s : State} (h : ¬ s.phase = .busy) : s.phase = .idle := by
  cases hp : s.phase with
  | idle => rfl
  | busy => exact absurd hp h

/-- A write to a target that is not dropped. -/
theorem writeTarget_effect {tg : Target} {v : Word} {strb : Strobe} {s t : State}
    (hd : droppable s.build tg = true → s.phase = .idle) (h : writeTarget tg v strb s = .next t) :
    WriteEffect s t := by
  cases tg with
  | reserved =>
    cases h
    exact .none
  | win w o =>
    cases w <;> simp only [writeTarget] at h
    case pass =>
      cases h
      by_cases hc : o < s.build.maxPassLen
      · exact .pass (hd (decide_eq_true hc)) _ _ _
      · rw [writeLanes_past (by omega)]
        exact .none
    case input =>
      cases h
      by_cases hc : o < s.build.maxB64Len
      · exact .input (hd (decide_eq_true hc)) _ _ _
      · rw [writeLanes_past (by omega)]
        exact .none
    all_goals
      cases h
      exact .none
  | reg r =>
    cases r <;> simp only [writeTarget] at h
    case ctrl =>
      cases h
      exact .ctrl _
    case status =>
      cases h
      exact .w1c _
    case inLen =>
      cases h
      exact .inLen (hd rfl) _
    case passLen =>
      cases h
      exact .passLen (hd rfl) _
    case cmd =>
      rcases accept_cases (hd rfl) h with ⟨i, -, hr, rfl⟩ | ⟨-, rfl⟩ | ⟨⟨e, he⟩, rfl⟩
      · exact .accept (hd rfl) i hr
      · exact .clear (hd rfl)
      · exact .illegal (hd rfl) _ e he
    all_goals
      cases h
      exact .none

/-- What a host write can do, whatever its offset, value and strobe. -/
theorem hostWrite_effect {a : Offset} {v : Word} {strb : Strobe} {s t : State}
    (h : hostWrite a v strb s = .next t) : WriteEffect s t := by
  unfold hostWrite at h
  split_ifs at h with h1 h2 h3
  · cases h
    exact .none
  · cases h
    exact .none
  · cases h
    simp only [Bool.and_eq_true, busy, beq_iff_eq] at h3
    exact .drop h3.1
  · refine writeTarget_effect (fun hd => phase_idle_of_not_busy fun hp => h3 ?_) h
    simp [busy, hp, hd]

/-- A target answers every write with a next state. -/
theorem writeTarget_next (tg : Target) (v : Word) (strb : Strobe) (s : State) :
    ∃ t, writeTarget tg v strb s = .next t := by
  cases tg with
  | reserved => exact ⟨_, rfl⟩
  | win w o => cases w <;> exact ⟨_, rfl⟩
  | reg r =>
    cases r <;> try exact ⟨_, rfl⟩
    simp only [writeTarget, accept]
    split
    · rename_i i _
      cases hp : s.phase <;> cases i <;>
        simp [exec, execDecode, execDerive, execDecrypt, execRun, execClear, hp]
    · exact ⟨_, rfl⟩

/-- Every host write answers with a next state. -/
theorem hostWrite_next (a : Offset) (v : Word) (strb : Strobe) (s : State) :
    ∃ t, hostWrite a v strb s = .next t := by
  unfold hostWrite
  split_ifs
  · exact ⟨_, rfl⟩
  · exact ⟨_, rfl⟩
  · exact ⟨_, rfl⟩
  · exact writeTarget_next _ _ _ _

/-! ### The step -/

/-- What a step can do: the engine's turn, a host read, a host write, or reset. -/
inductive StepEffect (s : State) : State → Prop
  | idle (p : List Event) (hp : s.phase = .idle) : StepEffect s { s with pending := p }
  | complete (p : List Event) (i : Instr) (hp : s.phase = .busy) (hc : s.pendCmd = encode i)
      (hr : runsInEngine i = true) :
      StepEffect s (complete i (resultOf i { s with pending := p }) { s with pending := p })
  | read (p : List Event) (r : Reply) : StepEffect s { s with pending := p, reply := some r }
  | write (p : List Event) (r : Reply) (t : State)
      (h : WriteEffect { s with pending := p, reply := some r } t) : StepEffect s t
  | reset (p : List Event) : StepEffect s (resetEvent { s with pending := p })

theorem engineTurn_effect {s t : State} {p : List Event}
    (h : engineTurn { s with pending := p } = .next t) : StepEffect s t := by
  rcases engineTurn_cases h with ⟨hp, rfl⟩ | ⟨i, hp, hc, hr, rfl⟩
  · exact .idle p hp
  · exact .complete p i hp hc hr

theorem step_effect {s t : State} (h : step s = .next t) : StepEffect s t := by
  unfold step at h
  cases hs : s.pending with
  | nil =>
    simp only [hs] at h
    have : s = { s with pending := s.pending } := rfl
    rw [this] at h
    exact engineTurn_effect h
  | cons e rest =>
    simp only [hs] at h
    cases e with
    | read a =>
      cases h
      exact .read rest _
    | write a v strb => exact .write rest _ t (hostWrite_effect h)
    | engine => exact engineTurn_effect h
    | reset =>
      cases h
      exact .reset rest

/-! ### Runs -/

theorem steps_zero (s : State) : steps 0 s = .next s := rfl

theorem steps_succ {s t : State} (n : Nat) (h : step s = .next t) :
    steps (n + 1) s = steps n t := by
  have h1 : Sys2Proof.core.step s = .next t := h
  simp only [steps, Host.Core.run]
  rw [h1]

/-- A command that runs in the engine, from its acceptance to its completion. -/
theorem command_idle {i : Instr} (hr : runsInEngine i = true) {s : State} (hp : s.phase = .idle) :
    command i s = .next (complete i (resultOf i (acceptEngine i s)) (acceptEngine i s)) := by
  rw [command, if_pos hr, exec_idle hr hp]
  exact exec_busy hr rfl

end Sys2Proof.Machine
end

