-- ==== Sys2Proof/Laws/Bus.lean ====
section
/-! SUPPORT. The map, said once: what each offset reaches, and which offset reaches what. -/

namespace Sys2Proof.Machine

/-- Alignment by the offset's value. -/
theorem aligned_eq (a : Offset) : aligned a = decide (a.toNat % 4 = 0) := by
  have h : (a.extractLsb' 0 2).toNat = a.toNat % 4 := by simp [BitVec.extractLsb'_toNat]
  rw [Bool.eq_iff_iff, decide_eq_true_eq, ← h]
  simp [aligned, ← BitVec.toNat_inj]

/-! ### The registers' offsets, spelled as simp spells them -/

@[simp] theorem target_id : target 0#22 = .reg .id := rfl
@[simp] theorem aligned_id : aligned 0#22 = true := rfl
@[simp] theorem target_cfg0 : target 4#22 = .reg .cfg0 := rfl
@[simp] theorem aligned_cfg0 : aligned 4#22 = true := rfl
@[simp] theorem target_cfg1 : target 8#22 = .reg .cfg1 := rfl
@[simp] theorem aligned_cfg1 : aligned 8#22 = true := rfl
@[simp] theorem target_cfg2 : target 12#22 = .reg .cfg2 := rfl
@[simp] theorem aligned_cfg2 : aligned 12#22 = true := rfl
@[simp] theorem target_cfg3 : target 16#22 = .reg .cfg3 := rfl
@[simp] theorem aligned_cfg3 : aligned 16#22 = true := rfl
@[simp] theorem target_cfg4 : target 20#22 = .reg .cfg4 := rfl
@[simp] theorem aligned_cfg4 : aligned 20#22 = true := rfl
@[simp] theorem target_ctrl : target 24#22 = .reg .ctrl := rfl
@[simp] theorem aligned_ctrl : aligned 24#22 = true := rfl
@[simp] theorem target_cmd : target 28#22 = .reg .cmd := rfl
@[simp] theorem aligned_cmd : aligned 28#22 = true := rfl
@[simp] theorem target_status : target 32#22 = .reg .status := rfl
@[simp] theorem aligned_status : aligned 32#22 = true := rfl
@[simp] theorem target_errCode : target 36#22 = .reg .errCode := rfl
@[simp] theorem aligned_errCode : aligned 36#22 = true := rfl
@[simp] theorem target_errInfo : target 40#22 = .reg .errInfo := rfl
@[simp] theorem aligned_errInfo : aligned 40#22 = true := rfl
@[simp] theorem target_inLen : target 44#22 = .reg .inLen := rfl
@[simp] theorem aligned_inLen : aligned 44#22 = true := rfl
@[simp] theorem target_passLen : target 48#22 = .reg .passLen := rfl
@[simp] theorem aligned_passLen : aligned 48#22 = true := rfl
@[simp] theorem target_decLen : target 52#22 = .reg .decLen := rfl
@[simp] theorem aligned_decLen : aligned 52#22 = true := rfl
@[simp] theorem target_ctLen : target 56#22 = .reg .ctLen := rfl
@[simp] theorem aligned_ctLen : aligned 56#22 = true := rfl
@[simp] theorem target_outLen : target 60#22 = .reg .outLen := rfl
@[simp] theorem aligned_outLen : aligned 60#22 = true := rfl
@[simp] theorem target_padVal : target 64#22 = .reg .padVal := rfl
@[simp] theorem aligned_padVal : aligned 64#22 = true := rfl

/-- The offset of a register (10_state R32). -/
def Reg.offset : Reg → Offset
  | .id => 0#22
  | .cfg0 => 4#22
  | .cfg1 => 8#22
  | .cfg2 => 12#22
  | .cfg3 => 16#22
  | .cfg4 => 20#22
  | .ctrl => 24#22
  | .cmd => 28#22
  | .status => 32#22
  | .errCode => 36#22
  | .errInfo => 40#22
  | .inLen => 44#22
  | .passLen => 48#22
  | .decLen => 52#22
  | .ctLen => 56#22
  | .outLen => 60#22
  | .padVal => 64#22

/-- The number of a register's offset determines it. -/
theorem regAt_some {n : Nat} {r : Reg} (h : regAt n = some r) : n = r.offset.toNat := by
  unfold regAt at h
  split at h <;> cases h <;> rfl

/-- Past the registers there is none. -/
theorem regAt_none {n : Nat} (h : 0x040 < n) : regAt n = none := by
  unfold regAt
  split <;> first | omega | rfl

/-- A target that is a register is its offset. -/
theorem target_reg {a : Offset} {r : Reg} (h : target a = .reg r) : regAt a.toNat = some r := by
  unfold target at h
  split at h
  · rename_i r' hr
    cases h
    exact hr
  · split at h <;> cases h

/-- A register is reached at its own offset and at no other. -/
theorem target_eq_reg {a : Offset} {r : Reg} : target a = .reg r ↔ a = r.offset := by
  constructor
  · exact fun h => BitVec.eq_of_toNat_eq (regAt_some (target_reg h))
  · rintro rfl
    cases r <;> rfl

/-- A target that is in a window lies past the registers. -/
theorem target_win {a : Offset} {w : Window} {o : Nat} (h : target a = .win w o) :
    windowAt a.toNat = some (w, o) := by
  unfold target at h
  split at h
  · cases h
  · split at h
    · rename_i w' o' hw
      cases h
      exact hw
    · cases h

/-- The target of an offset past the registers is its window's byte, or nothing. -/
theorem target_of_windowAt {a : Offset} (h : 0x040 < a.toNat) :
    target a = match windowAt a.toNat with
      | some (w, o) => .win w o
      | none => .reserved := by
  unfold target
  rcases windowAt a.toNat with _ | ⟨w, o⟩ <;> simp only [regAt_none h]

/-- The offset a write to CMD has. -/
theorem eq_of_target_cmd {a : Offset} (h : target a = .reg .cmd) : a = 28#22 := target_eq_reg.mp h

/-- The offset a write to STATUS has. -/
theorem eq_of_target_status {a : Offset} (h : target a = .reg .status) : a = 32#22 :=
  target_eq_reg.mp h

/-- An offset past the map's last register is none of its registers'. -/
theorem ne_offset {a : Offset} (h : 0x040 < a.toNat) (r : Reg) : a ≠ r.offset := by
  rintro rfl
  revert h
  cases r <;> decide

/-- The target of an offset of the IN window. -/
theorem target_input {a : Offset} (h1 : 0x100000 ≤ a.toNat) (h2 : a.toNat < 0x200000) :
    target a = .win .input (a.toNat - 0x100000) := by
  have : windowAt a.toNat = some (.input, a.toNat - 0x100000) := by
    unfold windowAt
    repeat rw [if_neg (by omega)]
    rw [if_pos ⟨h1, h2⟩]
  rw [target_of_windowAt (by omega), this]

/-- The target of an offset of the PASS window. -/
theorem target_pass {a : Offset} (h1 : 0x010000 ≤ a.toNat) (h2 : a.toNat < 0x020000) :
    target a = .win .pass (a.toNat - 0x010000) := by
  have : windowAt a.toNat = some (.pass, a.toNat - 0x010000) := by
    unfold windowAt
    repeat rw [if_neg (by omega)]
    rw [if_pos ⟨h1, h2⟩]
  rw [target_of_windowAt (by omega), this]

/-- The DROPPABLE offsets of a build (20_memory R82, R96, 10_state R60). -/
theorem droppable_iff (b : Build) (a : Offset) :
    droppable b (target a) = true ↔
      a = 28#22 ∨ a = 44#22 ∨ a = 48#22 ∨
        (0x100000 ≤ a.toNat ∧ a.toNat < 0x200000 ∧ a.toNat < 0x100000 + b.maxB64Len) ∨
        (0x010000 ≤ a.toNat ∧ a.toNat < 0x020000 ∧ a.toNat < 0x010000 + b.maxPassLen) := by
  constructor
  · intro h
    cases ht : target a with
    | reserved => simp [ht, droppable] at h
    | reg r =>
      have hr := target_eq_reg.mp ht
      cases r <;> simp [ht, droppable] at h
      · exact .inl hr
      · exact .inr (.inl hr)
      · exact .inr (.inr (.inl hr))
    | win w o =>
      have hw := target_win ht
      unfold windowAt at hw
      split_ifs at hw with h1 h2 h3 h4 h5 h6 h7 <;> cases hw <;> simp [ht, droppable] at h
      · exact .inr (.inr (.inr (.inr ⟨h4.1, h4.2, by omega⟩)))
      · exact .inr (.inr (.inr (.inl ⟨h5.1, h5.2, by omega⟩)))
  · rintro (rfl | rfl | rfl | ⟨h1, h2, h3⟩ | ⟨h1, h2, h3⟩)
    · rfl
    · rfl
    · rfl
    · rw [target_input h1 h2]
      exact decide_eq_true (by omega)
    · rw [target_pass h1 h2]
      exact decide_eq_true (by omega)

/-- A write to the IN window past its capacity changes nothing, BUSY or not (10_state R60, R61). -/
theorem hostWrite_past_input {s : State} {a : Offset} (v : Word) (strb : Strobe)
    (h1 : 0x100000 + s.build.maxB64Len ≤ a.toNat) (h2 : a.toNat < 0x200000) :
    hostWrite a v strb s = .next s := by
  have hd : droppable s.build (.win .input (a.toNat - 0x100000)) = false :=
    decide_eq_false (by omega)
  simp only [hostWrite, target_input (show 0x100000 ≤ a.toNat by omega) h2, hd, writeTarget,
    writeLanes_past (show s.build.maxB64Len ≤ a.toNat - 0x100000 by omega), Bool.and_false]
  simp

/-- A write to the PASS window past its capacity changes nothing, BUSY or not (10_state R60, R62). -/
theorem hostWrite_past_pass {s : State} {a : Offset} (v : Word) (strb : Strobe)
    (h1 : 0x010000 + s.build.maxPassLen ≤ a.toNat) (h2 : a.toNat < 0x020000) :
    hostWrite a v strb s = .next s := by
  have hd : droppable s.build (.win .pass (a.toNat - 0x010000)) = false :=
    decide_eq_false (by omega)
  simp only [hostWrite, target_pass (show 0x010000 ≤ a.toNat by omega) h2, hd, writeTarget,
    writeLanes_past (show s.build.maxPassLen ≤ a.toNat - 0x010000 by omega), Bool.and_false]
  simp

/-- The whole word, where every strobe is set. -/
theorem mask_all (w : Word) : mask w 15#4 = w := by simp [mask, merge]

/-! ### Windows -/

/-- The offset of byte `o` of the window at `base`. -/
theorem target_base_add {base o : Nat} {w : Window} (h1 : 0x40 < base + o)
    (h2 : base + o < 0x400000) (h3 : windowAt (base + o) = some (w, o)) :
    target (BitVec.ofNat 22 (base + o)) = .win w o := by
  have h : (BitVec.ofNat 22 (base + o)).toNat = base + o := by
    rw [BitVec.toNat_ofNat]
    exact Nat.mod_eq_of_lt h2
  rw [target_of_windowAt (by omega), h, h3]

/-- The lanes of a window's word are the window's bytes. -/
theorem lane_winWord (s : State) (w : Window) (o k : Nat) (hk : k < 4) :
    lane (winWord s w o) k = winByte s w (o + k) := by
  rw [winWord, lane_wordOfLanes _ _ _ _ _ hk]
  interval_cases k <;> rfl

end Sys2Proof.Machine
end

