-- ==== Sys2Proof/Laws/HostRun.lean ====
section
/-! SUPPORT. What a run of host reads returns, and where a loop of the host assembly ends
(spec/30_encoding.md R128, spec/20_memory.md R81). -/

namespace Sys2Proof.Machine

/-- A step that runs a host read. -/
theorem step_read {s : State} {a : Offset} {rest : List Event} (hs : s.pending = .read a :: rest) :
    step s = .next
      { s with pending := rest, reply := some (.data (readData s a) (busResp a)) } := by
  simp only [step, hs, runEvent]
  rfl

/-- A run that answers a next state begins with a step that does. -/
theorem steps_split {n : Nat} {s t : State} (h : steps (n + 1) s = .next t) :
    ∃ u, step s = .next u ∧ steps n u = .next t := by
  have h0 : Sys2Proof.core.step s = step s := rfl
  cases hs : step s with
  | next u => exact ⟨u, rfl, steps_succ n hs ▸ h⟩
  | fault r =>
    simp only [steps, Host.Core.run] at h
    rw [h0, hs] at h
    cases h
  | refused r =>
    simp only [steps, Host.Core.run] at h
    rw [h0, hs] at h
    cases h

/-- A step that runs a host read adds the word it returns. -/
theorem wordsRead_read {n : Nat} {s u : State} {a : Offset} {rest : List Event}
    (h : step s = .next u) (hs : s.pending = .read a :: rest) :
    wordsRead (n + 1) s = readData s a :: wordsRead n u := by
  simp only [wordsRead, h, hs]

/-- Every other step adds no word. -/
theorem wordsRead_other {n : Nat} {s u : State} (h : step s = .next u)
    (hs : ∀ a rest, s.pending ≠ .read a :: rest) : wordsRead (n + 1) s = wordsRead n u := by
  simp only [wordsRead, h]
  split <;> first | rfl | (rename_i g; exact absurd g (hs _ _))

/-- A run of host reads leaves the block as it was and returns what each offset reads in it. -/
theorem steps_reads (l : List Offset) {s : State} {rest : List Event}
    (hs : s.pending = l.map .read ++ rest) :
    ∃ t, steps l.length s = .next t ∧ t = { s with pending := rest, reply := t.reply } ∧
      wordsRead l.length s = l.map (readData s) := by
  induction l generalizing s with
  | nil =>
    have hs : s.pending = rest := hs
    exact ⟨s, rfl, by rw [← hs], rfl⟩
  | cons a l ih =>
    have hs : s.pending = .read a :: (l.map .read ++ rest) := hs
    have h1 := step_read hs
    obtain ⟨t, h2, h3, h4⟩ := ih
      (s := { s with
        pending := l.map .read ++ rest, reply := some (.data (readData s a) (busResp a)) }) rfl
    refine ⟨t, by rw [List.length_cons, steps_succ _ h1]; exact h2, h3, ?_⟩
    rw [List.length_cons, wordsRead_read h1 hs, h4]
    rfl

/-- A loop has issued no read beyond those that have returned exactly where its last word, and no
word before it, asks for no other turn. -/
theorem loopReads_eq_length_iff {again : Word → Bool} {ws : List Word} :
    loopReads again ws = ws.length ↔
      ∃ l w, ws = l ++ [w] ∧ (∀ u ∈ l, again u = true) ∧ again w = false := by
  induction ws with
  | nil => simp [loopReads]
  | cons v ws ih =>
    cases hv : again v with
    | false =>
      simp only [loopReads, hv, List.length_cons]
      constructor
      · intro h
        obtain rfl := List.length_eq_zero_iff.mp (show ws.length = 0 by simpa using h.symm)
        exact ⟨[], v, rfl, by simp, hv⟩
      · rintro ⟨l, w, e, h1, -⟩
        cases l with
        | nil => simp_all
        | cons y l => simp_all
    | true =>
      simp only [loopReads, hv, List.length_cons, if_true, Nat.add_right_cancel_iff, ih]
      constructor
      · rintro ⟨l, w, rfl, h1, h2⟩
        exact ⟨v :: l, w, rfl, List.forall_mem_cons.mpr ⟨hv, h1⟩, h2⟩
      · rintro ⟨l, w, e, h1, h2⟩
        cases l with
        | nil => simp_all
        | cons y l => exact ⟨l, w, (List.cons.inj e).2, (List.forall_mem_cons.mp h1).2, h2⟩

/-- Such a loop was ended by one of its words. -/
theorem exists_of_loopReads_eq {again : Word → Bool} {ws : List Word}
    (h : loopReads again ws = ws.length) : ∃ w ∈ ws, again w = false := by
  obtain ⟨l, w, rfl, -, hw⟩ := loopReads_eq_length_iff.mp h
  exact ⟨w, by simp, hw⟩

end Sys2Proof.Machine
end

