-- ==== Sys2Proof/Laws/PerInstr.lean ====
section
/-! SUPPORT. Laws of every command, one lemma per constructor: a command's word is its OPCODE byte
alone, is legal, and decodes to it (spec/30_encoding.md R120 to R125). -/

namespace Sys2Proof.Laws

/-- The word of a command is its OPCODE byte, PAD_POLICY and RSV being 0, and decodes to it. -/
def EncodingShape.Statement (i : Instr) : Prop :=
  i.wellFormed = true ∧ (encode i).toNat = i.opcode.toNat ∧ decode (encode i) = .ok i

theorem EncodingShape.decode : EncodingShape.Statement .decode := by
  unfold EncodingShape.Statement
  decide

theorem EncodingShape.derive : EncodingShape.Statement .derive := by
  unfold EncodingShape.Statement
  decide

theorem EncodingShape.decrypt : EncodingShape.Statement .decrypt := by
  unfold EncodingShape.Statement
  decide

theorem EncodingShape.run : EncodingShape.Statement .run := by
  unfold EncodingShape.Statement
  decide

theorem EncodingShape.clear : EncodingShape.Statement .clear := by
  unfold EncodingShape.Statement
  decide

end Sys2Proof.Laws
end

