-- ==== Sys2Proof/Laws/Utf8.lean ====
section
/-! SUPPORT. The sequence the UTF-8 check looks for at the front of a text is a sequence of the
table (spec/43_cipher_engine.md R290). -/

namespace Sys2Proof.Machine

theorem between_iff (lo hi b : Byte) : Between lo hi b ↔ inRange lo hi b = true := by
  simp [Between, inRange]

/-- A text that begins with a sequence of the table is seen to begin with it. -/
theorem utf8SeqLen_append {q : List Byte} (h : Utf8Seq q) (rest : List Byte) :
    utf8SeqLen (q ++ rest) = some q.length ∧ 0 < q.length := by
  have cs : ∀ b : Byte, Between 0x80 0xBF b → inRange 0x80#8 0xBF#8 b = true :=
    fun b => (between_iff _ _ _).mp
  cases h with
  | one b h =>
    have : utf8Lookup b = some ⟨0x00, 0x7F, 0x00, 0x00, 1⟩ := by
      have g : ∀ n : Fin 256, inRange 0x00 0x7F (BitVec.ofFin n) = true →
          utf8Lookup (BitVec.ofFin n) = some ⟨0x00, 0x7F, 0x00, 0x00, 1⟩ := by
        decide +kernel
      exact g b.toFin ((between_iff _ _ _).mp h)
    simp [utf8SeqLen, this, utf8Tail]
  | two b c h h2 =>
    have : utf8Lookup b = some ⟨0xC2, 0xDF, 0x80, 0xBF, 2⟩ := by
      have g : ∀ n : Fin 256, inRange 0xC2 0xDF (BitVec.ofFin n) = true →
          utf8Lookup (BitVec.ofFin n) = some ⟨0xC2, 0xDF, 0x80, 0xBF, 2⟩ := by
        decide +kernel
      exact g b.toFin ((between_iff _ _ _).mp h)
    simp [utf8SeqLen, this, utf8Tail, cs _ h2]
  | threeE0 c d h h2 =>
    have : utf8Lookup 0xE0#8 = some ⟨0xE0, 0xE0, 0xA0, 0xBF, 3⟩ := by decide
    simp [utf8SeqLen, this, utf8Tail, cs _ h2]
    exact (between_iff _ _ _).mp h
  | threeLow b c d h h1 h2 =>
    have : utf8Lookup b = some ⟨0xE1, 0xEC, 0x80, 0xBF, 3⟩ := by
      have g : ∀ n : Fin 256, inRange 0xE1 0xEC (BitVec.ofFin n) = true →
          utf8Lookup (BitVec.ofFin n) = some ⟨0xE1, 0xEC, 0x80, 0xBF, 3⟩ := by
        decide +kernel
      exact g b.toFin ((between_iff _ _ _).mp h)
    simp [utf8SeqLen, this, utf8Tail, cs _ h2, cs _ h1]
  | threeED c d h h2 =>
    have : utf8Lookup 0xED#8 = some ⟨0xED, 0xED, 0x80, 0x9F, 3⟩ := by decide
    simp [utf8SeqLen, this, utf8Tail, cs _ h2]
    exact (between_iff _ _ _).mp h
  | threeHigh b c d h h1 h2 =>
    have : utf8Lookup b = some ⟨0xEE, 0xEF, 0x80, 0xBF, 3⟩ := by
      have g : ∀ n : Fin 256, inRange 0xEE 0xEF (BitVec.ofFin n) = true →
          utf8Lookup (BitVec.ofFin n) = some ⟨0xEE, 0xEF, 0x80, 0xBF, 3⟩ := by
        decide +kernel
      exact g b.toFin ((between_iff _ _ _).mp h)
    simp [utf8SeqLen, this, utf8Tail, cs _ h2, cs _ h1]
  | fourF0 c d e h h1 h2 =>
    have : utf8Lookup 0xF0#8 = some ⟨0xF0, 0xF0, 0x90, 0xBF, 4⟩ := by decide
    simp [utf8SeqLen, this, utf8Tail, cs _ h2, cs _ h1]
    exact (between_iff _ _ _).mp h
  | fourMid b c d e h h0 h1 h2 =>
    have : utf8Lookup b = some ⟨0xF1, 0xF3, 0x80, 0xBF, 4⟩ := by
      have g : ∀ n : Fin 256, inRange 0xF1 0xF3 (BitVec.ofFin n) = true →
          utf8Lookup (BitVec.ofFin n) = some ⟨0xF1, 0xF3, 0x80, 0xBF, 4⟩ := by
        decide +kernel
      exact g b.toFin ((between_iff _ _ _).mp h)
    simp [utf8SeqLen, this, utf8Tail, cs _ h2, cs _ h1, cs _ h0]
  | fourF4 c d e h h1 h2 =>
    have : utf8Lookup 0xF4#8 = some ⟨0xF4, 0xF4, 0x80, 0x8F, 4⟩ := by decide
    simp [utf8SeqLen, this, utf8Tail, cs _ h2, cs _ h1]
    exact (between_iff _ _ _).mp h

/-- A text seen to begin with a sequence begins with one of the table. -/
theorem utf8Seq_of_seqLen {t : List Byte} {l : Nat} (h : utf8SeqLen t = some l) :
    Utf8Seq (t.take l) ∧ l ≤ t.length := by
  match t with
  | [] => simp [utf8SeqLen] at h
  | b :: rest =>
    simp only [utf8SeqLen] at h
    split at h
    · cases h
    · rename_i r hr
      split_ifs at h with ht
      cases h
      have hm := List.mem_of_find?_eq_some hr
      have hb := List.find?_some hr
      simp only [utf8Tail, Bool.and_eq_true, decide_eq_true_eq, Bool.or_eq_true, beq_iff_eq] at ht
      obtain ⟨⟨hl, hs⟩, hc⟩ := ht
      simp only [utf8Table, List.mem_cons, List.not_mem_nil, or_false] at hm
      have iff := between_iff
      have sing : ∀ k : Byte, inRange k k b = true → b = k := by
        intro k h; simp [inRange] at h; bv_omega
      rcases hm with rfl | rfl | rfl | rfl | rfl | rfl | rfl | rfl | rfl <;> simp only at hl hs hc hb ⊢
      · exact ⟨.one b ((iff _ _ _).mpr hb), by simp⟩
      · match rest, hl with
        | c :: u, hl =>
          exact ⟨.two b c ((iff _ _ _).mpr hb) ((iff _ _ _).mpr (by simpa using hs)), by simp⟩
      · match rest, hl with
        | c :: d :: u, hl =>
          simp at hs hc
          obtain rfl := sing _ hb
          exact ⟨.threeE0 c d ((iff _ _ _).mpr hs) ((iff _ _ _).mpr hc), by simp⟩
      · match rest, hl with
        | c :: d :: u, hl =>
          simp at hs hc
          exact ⟨.threeLow b c d ((iff _ _ _).mpr hb) ((iff _ _ _).mpr hs)
            ((iff _ _ _).mpr hc), by simp⟩
      · match rest, hl with
        | c :: d :: u, hl =>
          simp at hs hc
          obtain rfl := sing _ hb
          exact ⟨.threeED c d ((iff _ _ _).mpr hs) ((iff _ _ _).mpr hc), by simp⟩
      · match rest, hl with
        | c :: d :: u, hl =>
          simp at hs hc
          exact ⟨.threeHigh b c d ((iff _ _ _).mpr hb) ((iff _ _ _).mpr hs)
            ((iff _ _ _).mpr hc), by simp⟩
      · match rest, hl with
        | c :: d :: e :: u, hl =>
          simp at hs hc
          obtain rfl := sing _ hb
          exact ⟨.fourF0 c d e ((iff _ _ _).mpr hs) ((iff _ _ _).mpr hc.1)
            ((iff _ _ _).mpr hc.2), by simp⟩
      · match rest, hl with
        | c :: d :: e :: u, hl =>
          simp at hs hc
          exact ⟨.fourMid b c d e ((iff _ _ _).mpr hb) ((iff _ _ _).mpr hs) ((iff _ _ _).mpr hc.1)
            ((iff _ _ _).mpr hc.2), by simp⟩
      · match rest, hl with
        | c :: d :: e :: u, hl =>
          simp at hs hc
          obtain rfl := sing _ hb
          exact ⟨.fourF4 c d e ((iff _ _ _).mpr hs) ((iff _ _ _).mpr hc.1)
            ((iff _ _ _).mpr hc.2), by simp⟩

end Sys2Proof.Machine
end

