-- ==== Sys2Proof/Tests/Slice0.lean ====
section
/-! SUPPORT. The model's own tests.  Expected values are those of spec/95_test_vectors.md or of the
rule a comment names; the `witness_…` theorems each show a concrete input that meets the hypotheses
of the obligation of that name. -/

namespace Sys2Proof.Tests

open Sys2Proof Sys2Proof.Machine

/-! ### Well-formedness: an ill-formed term for each check -/

/-- R125: RSV must be 0. -/
theorem test_wf_rsv : CmdFields.wellFormed { opcode := 0x04, padPolicy := 0, rsv := 1 } = false := by
  decide

/-- R124: PAD_POLICY must be 0. -/
theorem test_wf_padPolicy :
    CmdFields.wellFormed { opcode := 0x03, padPolicy := 1, rsv := 0 } = false := by decide

/-- R125: OPCODE must be at least 1. -/
theorem test_wf_opcode_low :
    CmdFields.wellFormed { opcode := 0x00, padPolicy := 0, rsv := 0 } = false := by decide

/-- R125: OPCODE must be at most 5. -/
theorem test_wf_opcode_high :
    CmdFields.wellFormed { opcode := 0x06, padPolicy := 0, rsv := 0 } = false := by decide

/-- R122: every command is well-formed. -/
theorem test_wf_commands :
    [Instr.decode, .derive, .decrypt, .run, .clear].all Instr.wellFormed = true := by decide

/-- R9: MAX_B64_LEN is a multiple of 4. -/
theorem test_wf_build_multiple : Build.ok { Config.tc with maxB64Len := 66 } = false := by decide

/-- R9: MAX_B64_LEN is at least 64. -/
theorem test_wf_build_low : Build.ok { Config.tc with maxB64Len := 60 } = false := by decide

/-- R9: MAX_B64_LEN is at most 1048576. -/
theorem test_wf_build_high : Build.ok { Config.tc with maxB64Len := 1048580 } = false := by decide

/-- R9: MAX_PASS_LEN is at least 1. -/
theorem test_wf_build_pass_low : Build.ok { Config.tc with maxPassLen := 0 } = false := by decide

/-- R9: MAX_PASS_LEN is at most 65536. -/
theorem test_wf_build_pass_high : Build.ok { Config.tc with maxPassLen := 65537 } = false := by decide

/-! ### Decoding: each word written out from the table of R122, bit 31 first -/

theorem test_decode_word_decode :
    decode 0b00000000000000000000000_0_00000001#32 = .ok .decode := by decide
theorem test_decode_word_derive :
    decode 0b00000000000000000000000_0_00000010#32 = .ok .derive := by decide
theorem test_decode_word_decrypt :
    decode 0b00000000000000000000000_0_00000011#32 = .ok .decrypt := by decide
theorem test_decode_word_run :
    decode 0b00000000000000000000000_0_00000100#32 = .ok .run := by decide
theorem test_decode_word_clear :
    decode 0b00000000000000000000000_0_00000101#32 = .ok .clear := by decide

/-- The illegal words of V-C1, with the check of R123 that turns each away. -/
theorem test_decode_illegal :
    decode 0x00000000 = .error .unknownOpcode ∧ decode 0x00000006 = .error .unknownOpcode ∧
      decode 0x000000FF = .error .unknownOpcode ∧ decode 0x00000103 = .error .padPolicyReserved ∧
      decode 0x00000104 = .error .padPolicyReserved ∧ decode 0x00000200 = .error .reservedBits ∧
      decode 0x80000004 = .error .reservedBits := by decide

/-- The words of the opcode table, and one that is none. -/
theorem test_decodeTableWord :
    decodeTableWord 32 1 = some .decode ∧ decodeTableWord 32 2 = some .derive ∧
      decodeTableWord 32 3 = some .decrypt ∧ decodeTableWord 32 4 = some .run ∧
      decodeTableWord 32 5 = some .clear ∧ decodeTableWord 32 0x105 = none := by decide

/-- After reset, the next step of a state with a command word placed runs the command. -/
theorem test_step_runs_placed_word (i : Instr) :
    step (State.reset.withFetchWord 32 (encode i).toNat) =
      exec i { State.reset with reply := some (.written .okay) } := by
  cases i <;> rfl

/-! ### Small states -/

/-- A fresh block with a text in IN. -/
def withText (text : List Byte) : State :=
  { State.reset with
    inBuf := Memory.writeN [] 0 text, inLen := BitVec.ofNat 32 text.length }

/-- 64 times `A`: the text of 48 zero bytes. -/
def text48 : List Byte := List.replicate 64 0x41

/-- A fresh block, BUSY with a command. -/
def busyIn (i : Instr) (s : State) : State := acceptEngine i s

/-- The scenario key (V-K1). -/
def key1 : List Byte :=
  [0x3b, 0x89, 0x0f, 0x01, 0x01, 0x61, 0xa7, 0x9a, 0x76, 0x13, 0x82, 0xea, 0x55, 0x08, 0xc7, 0x9a,
   0x13, 0xd8, 0xe4, 0xda, 0x50, 0x28, 0x01, 0x0d, 0xfa, 0xba, 0x93, 0x9b, 0x83, 0x65, 0x43, 0x1a]

/-- The scenario passphrase. -/
def pass1 : List Byte :=
  [0x63, 0x6f, 0x72, 0x72, 0x65, 0x63, 0x74, 0x20, 0x68, 0x6f, 0x72, 0x73, 0x65]

/-- BUSY with DECRYPT, the scenario's salt and initialization vector and a ciphertext in DEC, and
the scenario key. -/
def busyDecrypt (ct : List Byte) : State :=
  busyIn .decrypt
    (writeKey key1
      (writeCont (List.replicate 32 0x01 ++ List.replicate 16 0x02 ++ ct) State.reset))

/-- The scenario's ciphertext (V-S1). -/
def ct1 : List Byte :=
  [0x96, 0x15, 0x62, 0x1f, 0x82, 0xb5, 0x67, 0xe2, 0x27, 0x5c, 0x2d, 0x45, 0xeb, 0x7e, 0x86, 0x11]

/-- A test of the state a command leaves. -/
def after (o : Host.Outcome State Fault Refusal) (p : State → Bool) : Bool :=
  match o with
  | .next t => p t
  | .fault _ => false
  | .refused _ => false

/-- STATUS, ERR_CODE and ERR_INFO as a host reads them. -/
def report (s : State) : Word × Word × Word :=
  (readData s 0x020, readData s 0x024, readData s 0x028)

/-! ### The commands: at most two tests each -/

/-- V-B17: 64 × `A`, `QR==`: the discarded bits are ignored. -/
theorem test_decode_discarded_bits :
    after (exec .decode (busyIn .decode (withText (text48 ++ [0x51, 0x52, 0x3D, 0x3D])))) (fun t =>
      report t == (0x12, 0, 0) && readData t 0x034 == 49 && readData t 0x038 == 1 &&
        t.decBuf.read 48 == 0x41 && t.decBuf.read 49 == 0) = true := by decide +kernel

/-- V-B8: 60 × `A`, `AB==`, `AAAA`: BadPadding with the first `=` at 62. -/
theorem test_decode_bad_padding :
    after (exec .decode (busyIn .decode (withText
        (List.replicate 60 0x41 ++ [0x41, 0x42, 0x3D, 0x3D, 0x41, 0x41, 0x41, 0x41]))))
      (fun t => report t == (0x04, 0x01, 0x3000003E)) = true := by decide +kernel

/-- V-K4: PBKDF2 with c = 1 on the scenario's passphrase and salt. -/
theorem test_derive_first_iteration :
    pbkdf2 pass1 (List.replicate 32 0x01) 1 32 =
      [0x53, 0x02, 0x93, 0x89, 0x5a, 0xd3, 0xff, 0xa7, 0x50, 0x28, 0x70, 0x13, 0xb2, 0x6d, 0xc6, 0x04,
       0x52, 0x54, 0xff, 0xae, 0x6b, 0xdf, 0xfd, 0x00, 0x6c, 0xac, 0x33, 0x60, 0x19, 0xd2, 0x59, 0x71] := by
  decide +kernel

/-- The first 64 primes. -/
def primes64 : List Nat :=
  [2, 3, 5, 7, 11, 13, 17, 19, 23, 29, 31, 37, 41, 43, 47, 53, 59, 61, 67, 71, 73, 79, 83, 89, 97,
   101, 103, 107, 109, 113, 127, 131, 137, 139, 149, 151, 157, 163, 167, 173, 179, 181, 191, 193, 197,
   199, 211, 223, 227, 229, 233, 239, 241, 251, 257, 263, 269, 271, 277, 281, 283, 293, 307, 311]

/-- R213: each round constant is the first 32 bits of the fractional part of its prime's cube root. -/
theorem test_sha_constants_are_cube_roots :
    (List.zip primes64 shaK).all (fun pk => (List.range 7).any fun i =>
      let r := 2 ^ 32 * i + pk.2.toNat
      decide (r ^ 3 ≤ pk.1 * 2 ^ 96 ∧ pk.1 * 2 ^ 96 < (r + 1) ^ 3)) = true ∧ shaK.length = 64 := by
  decide +kernel

/-- V-K8: DERIVE without a container. -/
theorem test_derive_without_container :
    after (exec .derive (busyIn .derive State.reset))
      (fun t => report t == (0x04, 0x11, 0)) = true := by decide +kernel

/-- V-S1: DECRYPT of the scenario's ciphertext under its key gives `[]`. -/
theorem test_decrypt_scenario :
    after (exec .decrypt (busyDecrypt ct1)) (fun t =>
      report t == (0x72, 0, 0) && readData t 0x03C == 2 && readData t 0x040 == 14 &&
        readData t 0x300000 == 0x00005D5B) = true := by decide +kernel

/-- V-D4: a last byte of 17 with 16 bytes decrypted is out of range. -/
theorem test_decrypt_count_out_of_range :
    after (exec .decrypt (busyDecrypt
        [0x0e, 0x7b, 0x06, 0xc9, 0xb9, 0x3b, 0x8f, 0x2e, 0x76, 0x1f, 0xca, 0x15, 0x7e, 0xd9, 0xd9, 0x6c]))
      (fun t => report t == (0x34, 0x03, 0x00001011)) = true := by decide +kernel

/-- V-B12 under RUN: too short, and all groups are cleared. -/
theorem test_run_too_short :
    after (exec .run (busyIn .run (withText (List.replicate 14 0x41 ++ [0x3D, 0x3D]))))
      (fun t => report t == (0x04, 0x01, 0x4000000A)) = true := by decide +kernel

/-- R330: RUN's acceptance leaves it BUSY, with CMD reading its word. -/
theorem test_run_accepted :
    after (hostWrite 0x01C 0x00000004 0xF (withText text48))
      (fun t => report t == (0x01, 0, 0) && readData t 0x01C == 4) = true := by decide +kernel

/-- R341: CLEAR zeroizes IN and the groups, keeps IE, and ends with DONE. -/
theorem test_clear_zeroizes :
    after (exec .clear { busyDecrypt ct1 with phase := .idle, ie := true, werr := true })
      (fun t => report t == (0x02, 0, 0) && t.ie && t.decBuf == [] &&
        t.key == Vector.replicate 32 0 && readData t 0x034 == 0) = true := by decide +kernel

/-- R333, R340: a CLEAR written while BUSY is dropped and sets WERR. -/
theorem test_clear_dropped_while_busy :
    after (hostWrite 0x01C 0x00000005 0xF (busyIn .decode State.reset))
      (fun t => readData t 0x020 == 0x09 && readData t 0x01C == 1) = true := by decide +kernel

/-- R60, R96: past the capacity a BUSY write to the PASS window sets no WERR, within it one does. -/
theorem test_busy_write_at_capacity :
    after (hostWrite 0x010400 0x41 0xF (busyIn .decode State.reset)) (fun t => !t.werr) = true ∧
      after (hostWrite 0x0103FC 0x41 0xF (busyIn .decode State.reset)) (fun t => t.werr) = true := by
  decide

/-! ### Witnesses: states that meet the invariants -/

theorem inv_reset : Inv State.reset := by
  constructor <;> simp [State.reset, State.resetOf, Config.tc, Build.ok]

theorem results_reset : Results State.reset := by
  constructor <;> simp [State.reset, State.resetOf]

/-- BUSY with DECODE and an empty text. -/
def busyEmpty : State := busyIn .decode State.reset

theorem inv_busyEmpty : Inv busyEmpty := by
  constructor <;>
    simp [busyEmpty, busyIn, State.reset, State.resetOf, Config.tc, Build.ok, clearsCont, clearsKey]
  all_goals exact ⟨.decode, rfl, rfl⟩

/-- A state with events to come. -/
def upcoming (es : List Event) (s : State) : State := { s with pending := es }

theorem inv_upcoming {s : State} (h : Inv s) (es : List Event) : Inv (upcoming es s) := { h with }

/-! ### Witnesses: reset, invariants, completion -/

theorem witness_ResetGivesEveryResetValue :
    (upcoming [.reset] busyEmpty).pending = .reset :: [] := rfl

theorem witness_ResetMeetsTheInvariants : Config.tc.ok = true := by decide

theorem witness_EveryStepKeepsTheInvariant :
    ∃ t, Inv (upcoming [.engine] busyEmpty) ∧ step (upcoming [.engine] busyEmpty) = .next t :=
  ⟨_, inv_upcoming inv_busyEmpty _, rfl⟩

theorem witness_EveryStepKeepsTheResultsTrue :
    ∃ t, Inv State.reset ∧ Results State.reset ∧ step State.reset = .next t :=
  ⟨_, inv_reset, results_reset, rfl⟩

theorem witness_NoStepOfAGoodStateStops : Inv busyEmpty := inv_busyEmpty

theorem witness_BusyEndsOnlyByCompletionOrReset_reset :
    ∃ t, Inv (upcoming [.reset] busyEmpty) ∧ (upcoming [.reset] busyEmpty).phase = .busy ∧
      step (upcoming [.reset] busyEmpty) = .next t ∧ t.phase = .idle :=
  ⟨_, inv_upcoming inv_busyEmpty _, rfl, rfl, rfl⟩

theorem witness_BusyEndsOnlyByCompletionOrReset_engine :
    ∃ t, Inv busyEmpty ∧ busyEmpty.phase = .busy ∧ step busyEmpty = .next t ∧ t.phase = .idle :=
  ⟨_, inv_busyEmpty, rfl, rfl, rfl⟩

theorem witness_BusyCompletesUnderEverySchedule :
    Inv (upcoming [.read 0x020, .write 0x01C 5 0xF] busyEmpty) ∧
      (upcoming [.read 0x020, .write 0x01C 5 0xF] busyEmpty).phase = .busy ∧
      ∀ e ∈ (upcoming [.read 0x020, .write 0x01C 5 0xF] busyEmpty).pending, e ≠ .reset :=
  ⟨inv_upcoming inv_busyEmpty _, rfl, by decide⟩

/-! ### Witnesses: the bus -/

theorem witness_MisalignedTransactionDoesNothing :
    (0x000001 : Offset).toNat % 4 ≠ 0 ∧ (0x3FFFFF : Offset).toNat % 4 ≠ 0 ∧
      (upcoming [.read 0x000001] busyEmpty).pending = .read 0x000001 :: [] ∧
      (upcoming [.write 0x3FFFFF 5 0xF] busyEmpty).pending = .write 0x3FFFFF 5 0xF :: [] := by decide

theorem witness_UnstrobedWriteDoesNothing :
    (upcoming [.write 0x00001C 5 0] busyEmpty).pending = .write 0x00001C 5 0 :: [] := rfl

theorem witness_RegisterWritesMergeStrobedLanes :
    (0 < 4 ∧ 3 < 4) ∧ State.reset.phase = .idle ∧ (1 : Strobe) ≠ 0 ∧ (8 : Strobe) ≠ 0 := by decide

theorem witness_CommandAndStatusWritesActOnMaskedWord :
    (0 < 4 ∧ 3 < 4) ∧ State.reset.phase = .idle ∧ (1 : Strobe) ≠ 0 ∧ (15 : Strobe) ≠ 0 := by decide

/-- The first and the last word of each window. -/
theorem witness_HostReadsSeeEachWindowsBytes :
    (0 % 4 = 0 ∧ 28 % 4 = 0 ∧ 12 % 4 = 0 ∧ 0xFFFC % 4 = 0 ∧ 0xFFFFC % 4 = 0) ∧
      (28 < 32 ∧ 12 < 16 ∧ 0xFFFC < 0x10000 ∧ 0xFFFFC < 0x100000) ∧ 0 < 4 ∧ 3 < 4 := by decide

theorem witness_HostReadChangesNothing :
    (0x000020 : Offset).toNat % 4 = 0 ∧
      (upcoming [.read 0x000020] busyEmpty).pending = .read 0x000020 :: [] := by decide

/-- The first and the last word of the IN and of the PASS window. -/
theorem witness_BufferWritesStoreStrobedBytes :
    State.reset.phase = .idle ∧ (15 : Strobe) ≠ 0 ∧ (0 % 4 = 0 ∧ 0xFFFC % 4 = 0 ∧ 0xFFFFC % 4 = 0) ∧
      0xFFFFC < 0x100000 ∧ 0xFFFC < 0x10000 ∧ State.reset.inBuf.wf = true ∧
      State.reset.passBuf.wf = true := by decide

/-- Each clause at the ends of its ranges: the dropped offsets, CTRL, and the offsets outside. -/
theorem witness_WritesWhileBusyAreDropped :
    busyEmpty.phase = .busy ∧ (1 : Strobe) ≠ 0 ∧
      [(0x00001C : Offset), 0x00002C, 0x000030, 0x100000, 0x10FFFC, 0x010000, 0x0103FC].all
        (fun a => decide (a.toNat % 4 = 0 ∧
          (a = 0x01C ∨ a = 0x02C ∨ a = 0x030 ∨
            (0x100000 ≤ a.toNat ∧ a.toNat < 0x200000 ∧
              a.toNat < 0x100000 + busyEmpty.build.maxB64Len) ∨
            (0x010000 ≤ a.toNat ∧ a.toNat < 0x020000 ∧
              a.toNat < 0x010000 + busyEmpty.build.maxPassLen)))) = true ∧
      (0x000018 : Offset).toNat % 4 = 0 ∧
      [(0x000000 : Offset), 0x000024, 0x00FFFC, 0x020000, 0x0FFFFC, 0x200000, 0x3FFFFC].all
        (fun a => decide (a.toNat % 4 = 0 ∧ a ≠ 0x01C ∧ a ≠ 0x02C ∧ a ≠ 0x030 ∧ a ≠ 0x018 ∧
          a ≠ 0x020 ∧ ¬ (0x100000 ≤ a.toNat ∧ a.toNat < 0x200000) ∧
          ¬ (0x010000 ≤ a.toNat ∧ a.toNat < 0x020000))) = true := by decide

/-- On both sides of each capacity, and at each window's ends. -/
theorem witness_BusyWindowWriteSetsWerrExactlyWithinCapacity :
    busyEmpty.phase = .busy ∧ (1 : Strobe) ≠ 0 ∧
      [(0x100000 : Offset), 0x10FFFC, 0x110000, 0x1FFFFC].all
        (fun a => decide (a.toNat % 4 = 0 ∧ 0x100000 ≤ a.toNat ∧ a.toNat < 0x200000)) = true ∧
      [(0x010000 : Offset), 0x0103FC, 0x010400, 0x01FFFC].all
        (fun a => decide (a.toNat % 4 = 0 ∧ 0x010000 ≤ a.toNat ∧ a.toNat < 0x020000)) = true := by
  decide

/-- Each clause at the ends of its ranges, BUSY or not. -/
theorem witness_ReservedAndReadOnlyOffsetsIgnoreWrites (s : State)
    (hs : s = State.reset ∨ s = busyEmpty) :
    [(0x000044 : Offset), 0x00005C, 0x0000B0, 0x00FFFC, 0x020000, 0x0FFFFC, 0x110000, 0x1FFFFC,
        0x010400, 0x01FFFC].all
      (fun a => decide (a.toNat % 4 = 0 ∧
        ((0x044 ≤ a.toNat ∧ a.toNat < 0x060) ∨ (0x0B0 ≤ a.toNat ∧ a.toNat < 0x010000) ∨
          (0x020000 ≤ a.toNat ∧ a.toNat < 0x100000) ∨
          (0x100000 + s.build.maxB64Len ≤ a.toNat ∧ a.toNat < 0x200000) ∨
          (0x010000 + s.build.maxPassLen ≤ a.toNat ∧ a.toNat < 0x020000)))) = true ∧
    [(0x200000 : Offset), 0x2FFFFC, 0x300000, 0x3FFFFC].all (fun a => decide (a.toNat % 4 = 0 ∧
      ((0x200000 + s.decLen.toNat ≤ a.toNat ∧ a.toNat < 0x300000) ∨
        0x300000 + s.outLen.toNat ≤ a.toNat))) = true ∧
    [(0x000024 : Offset), 0x000040, 0x000060, 0x0000AC, 0x200000, 0x3FFFFC].all
      (fun a => decide (a.toNat % 4 = 0 ∧
        (a = 0x024 ∨ a = 0x028 ∨ a = 0x034 ∨ a = 0x038 ∨ a = 0x03C ∨ a = 0x040 ∨
          (0x060 ≤ a.toNat ∧ a.toNat < 0x0B0) ∨ 0x200000 ≤ a.toNat))) = true := by
  rcases hs with rfl | rfl <;> decide

theorem witness_RegistersReadTheirFieldsAndIrqTheFlags : 0 < 32 ∧ 31 < 32 := by decide

/-- A read of the KEY window, and a write to the PASS window. -/
theorem witness_HostTransactionsRevealNoSecret (k : Vector Byte 32) (m : Memory) (e : Event)
    (he : e = .read 0x000090 ∨ e = .write 0x010000 0x41 0xF) :
    ∃ t t', (upcoming [e] State.reset).build.keyReadbackEn = false ∧
      (upcoming [e] State.reset).pending = e :: [] ∧ isHostEvent e = true ∧
      step (upcoming [e] State.reset) = .next t ∧
      step { upcoming [e] State.reset with key := k, passBuf := m } = .next t' := by
  rcases he with rfl | rfl
  · exact ⟨_, _, rfl, rfl, rfl, rfl, rfl⟩
  · exact ⟨_, _, rfl, rfl, rfl, rfl, rfl⟩

theorem witness_OnlyADroppedWriteRaisesWerr :
    ∃ t, step (upcoming [.write 0x01C 5 0xF] busyEmpty) = .next t ∧
      (upcoming [.write 0x01C 5 0xF] busyEmpty).werr = false ∧ t.werr = true :=
  ⟨_, rfl, rfl, rfl⟩

/-- A state with WERR set and events to come. -/
def werrState (es : List Event) : State := { State.reset with werr := true, pending := es }

/-- The three events that clear WERR. -/
theorem witness_WerrIsStickyAndRaisesNoInterrupt (e : Event)
    (he : e = .write 0x020 8 0xF ∨ e = .write 0x01C 5 0xF ∨ e = .reset) :
    ∃ t, step (werrState [e]) = .next t ∧ (werrState [e]).werr = true ∧ t.werr = false := by
  rcases he with rfl | rfl | rfl
  · exact ⟨_, rfl, rfl, rfl⟩
  · exact ⟨_, rfl, rfl, rfl⟩
  · exact ⟨_, rfl, rfl, rfl⟩

/-- A KEY register other than a given one. -/
def otherKey (dk : List Byte) : Vector Byte 32 := (keyOfBytes dk).map (· ^^^ 1)

theorem otherKey_ne (dk : List Byte) : keyOfBytes dk ≠ otherKey dk := by
  intro h
  have h0 := congrArg (fun v : Vector Byte 32 => v[0]) h
  simp only [otherKey, Vector.getElem_map] at h0
  have h1 := congrArg (fun b : Byte => b.getLsbD 0) h0
  simp at h1

/-- BUSY with DERIVE, a container of zeros, and the KEY register at hand. -/
def busyDerive (k : Vector Byte 32) : State :=
  { busyIn .derive (writeCont (List.replicate 48 0) State.reset) with key := k }

theorem witness_KeyIsWrittenOnlyByDeriveAndRun_zero :
    ∃ t, step (upcoming [.reset] (writeKey key1 State.reset)) = .next t ∧
      t.key ≠ (upcoming [.reset] (writeKey key1 State.reset)).key := ⟨_, rfl, by decide⟩

theorem witness_KeyIsWrittenOnlyByDeriveAndRun_derive :
    ∃ k t, step (busyDerive k) = .next t ∧ t.key ≠ (busyDerive k).key := by
  have h : ∀ k, deriveCore (busyDerive k) =
      .ok (deriveKey (opPass (busyDerive default)) (opSalt (busyDerive default))) := by
    intro k
    unfold deriveCore
    rw [if_neg (by simp [busyDerive, writeCont, busyIn, clearsCont])]
    exact if_neg (by decide : ¬ 1024 < 0)
  generalize deriveKey (opPass (busyDerive default)) (opSalt (busyDerive default)) = dk at h
  refine ⟨otherKey dk, _, engineTurn_busy (s := busyDerive (otherKey dk)) (i := .derive) rfl rfl rfl, ?_⟩
  have h1 : resultOf .derive (busyDerive (otherKey dk)) = .ok (writeKey dk (busyDerive (otherKey dk))) := by
    simp only [resultOf, deriveResult, h]
  rw [h1]
  exact otherKey_ne dk

/-! ### Witnesses: commands -/

theorem witness_StepRunsTheDecodedCommand_host :
    (upcoming [.write 0x01C 0x00000004 1] State.reset).pending = .write 0x01C 0x00000004 1 :: [] ∧
      (upcoming [.write 0x01C 0x00000004 1] State.reset).phase = .idle ∧ (1 : Strobe) ≠ 0 ∧
      decode (mask 0x00000004 1) = .ok .run ∧ Instr.run.wellFormed = true := by decide

theorem witness_StepRunsTheDecodedCommand_engine :
    busyEmpty.phase = .busy ∧ decode busyEmpty.pendCmd = .ok .decode ∧
      Instr.decode.wellFormed = true ∧ runsInEngine .decode = true ∧ busyEmpty.pending = [] ∧
      (upcoming [.engine] busyEmpty).pending = .engine :: [] := by decide

theorem witness_AcceptanceClearsTheTablesGroups : (withText text48).phase = .idle := rfl

theorem witness_ClearLeavesTheResetStateButThreeFields : (withText text48).phase = .idle := rfl

theorem witness_IllegalWordEndsWithIllegalCommand :
    (withText text48).phase = .idle ∧ decode 0x00000103 = .error .padPolicyReserved := by decide

theorem witness_ClearWhileBusyOnlySetsWerr : busyEmpty.phase = .busy := rfl

theorem witness_DecodeRecoversEveryEncodedContainer :
    (busyIn .decode (withText text48)).phase = .busy ∧
      (busyIn .decode (withText text48)).inLen.toNat ≤
        (busyIn .decode (withText text48)).build.maxB64Len ∧
      decodeText (opText (busyIn .decode (withText text48))) = .ok (List.replicate 48 0) ∧
      48 ≤ (List.replicate 48 (0 : Byte)).length := by decide +kernel

/-- `R` and `Q` before `==`, and `B` and `A` before `=`, differ in discarded bits alone. -/
theorem witness_AcceptedTextsAreExactlyTheLegalOnes :
    base64Val 0x52 = some 17#6 ∧ base64Val 0x51 = some 16#6 ∧ 17#6 >>> 4 = 16#6 >>> 4 ∧
      base64Val 0x42 = some 1#6 ∧ base64Val 0x41 = some 0#6 ∧ 1#6 >>> 2 = 0#6 >>> 2 := by decide

/-- IN_LEN one over the capacity, a text of one character, a bad character at 3, an `=` at 1 of 4
and at 2 before another character, and the texts of 0 and of 10 bytes. -/
theorem witness_DecodeReportsTheFirstFailure :
    busyEmpty.phase = .busy ∧
      ({ busyEmpty with inLen := 65537 } : State).build.maxB64Len <
        ({ busyEmpty with inLen := 65537 } : State).inLen.toNat ∧
      opText (busyIn .decode (withText [0x41])) = [0x41] ∧
      opText (busyIn .decode (withText [0x41, 0x41, 0x41, 0x2D])) = [0x41, 0x41, 0x41, 0x2D] ∧
      legalChar 0x41 = true ∧ legalChar 0x2D = false ∧
      opText (busyIn .decode (withText [0x41, 0x3D, 0x41, 0x41])) = [0x41, 0x3D, 0x41, 0x41] ∧
      1 + 2 < [(0x41 : Byte), 0x3D, 0x41, 0x41].length ∧
      opText (busyIn .decode (withText [0x41, 0x42, 0x3D, 0x43])) = [0x41, 0x42, 0x3D, 0x43] ∧
      [(0x41 : Byte), 0x42, 0x3D, 0x43].getD 3 0 ≠ 0x3D ∧
      opText busyEmpty = [] ++ List.replicate 0 0x3D ∧
      opText (busyIn .decode (withText (List.replicate 14 0x41 ++ [0x3D, 0x3D]))) =
        List.replicate 14 0x41 ++ List.replicate 2 0x3D := by decide +kernel

theorem witness_DeriveWritesThePassphrasesKey :
    (busyDerive default).phase = .busy ∧ (busyDerive default).contValid = true ∧
      (busyDerive default).passLen.toNat ≤ (busyDerive default).build.maxPassLen := by decide

theorem witness_DeriveReportsTheFirstFailure :
    (busyIn .derive State.reset).phase = .busy ∧ (busyIn .derive State.reset).contValid = false ∧
      ({ busyDerive default with passLen := 1025 } : State).contValid = true ∧
      ({ busyDerive default with passLen := 1025 } : State).build.maxPassLen <
        ({ busyDerive default with passLen := 1025 } : State).passLen.toNat := by decide

theorem witness_DerivedKeyXorsOneHundredThousandHmacs :
    ∃ u1, u1 = hmac pass1 (List.replicate 32 0x01 ++ [0x00, 0x00, 0x00, 0x01]) := ⟨_, rfl⟩

theorem witness_Sha256SchedulesItsBlocksAndDigestsAbc :
    (List.replicate 64 (0x61 : Byte)).length = 64 ∧ 0 < 16 ∧ 15 < 16 ∧ 16 ≤ 16 ∧ 63 < 64 := by decide

/-- The lengths about the block size. -/
theorem witness_HmacHashesOnlyKeysOverOneBlock :
    64 < (List.replicate 65 (0x41 : Byte)).length ∧ (List.replicate 63 (0x41 : Byte)).length < 64 ∧
      ([] : List Byte).length < 64 ∧ (List.replicate 64 (0x41 : Byte)).length = 64 := by decide

theorem witness_SboxIsTheAffineImageOfTheInverse : (0x01 : Byte) ≠ 0 ∧ (0xFF : Byte) ≠ 0 := by decide

theorem witness_InverseCipherIsABijection :
    key1.length = 32 ∧ ct1.length = 16 ∧ aes256Dec key1 ct1 = aes256Dec key1 ct1 :=
  ⟨rfl, rfl, rfl⟩

theorem witness_CbcChainsThePreviousBlock :
    (List.replicate 16 (0x02 : Byte)).length = 16 ∧ (ct1 ++ ct1).length = 16 * 2 ∧ 0 < 2 ∧ 1 < 2 := by
  decide

/-- A bad lead byte after one sequence, and a sequence the end of the text cuts. -/
theorem witness_Utf8ErrorOffsetIsTheFirstIllFormedSequence :
    utf8FirstError [0x61, 0xFF] = some 1 ∧ utf8FirstError [0xE2, 0x82] = some 0 := by decide +kernel

/-- The scenario's decrypted buffer (V-S1). -/
def plain1 : List Byte := [0x5B, 0x5D] ++ List.replicate 14 0x0E

theorem wellFormed_brackets : WellFormedUtf8 [0x5B, 0x5D] :=
  .cons [0x5B] [0x5D] (.one 0x5B (by unfold Between; decide))
    (.cons [0x5D] [] (.one 0x5D (by unfold Between; decide)) .nil)

theorem witness_DecryptWritesTheTruncatedPlaintext :
    ((busyDecrypt ct1).phase = .busy ∧ (busyDecrypt ct1).contValid = true ∧
      (busyDecrypt ct1).keyValid = true ∧ 0 < (busyDecrypt ct1).ctLen.toNat ∧
      (busyDecrypt ct1).ctLen.toNat % 16 = 0 ∧
      plain1 = cbcDec (busyDecrypt ct1).key.toList ((busyDecrypt ct1).decBuf.readN 32 16)
        ((busyDecrypt ct1).decBuf.readN 48 (busyDecrypt ct1).ctLen.toNat) ∧
      plain1.getLast? = some 0x0E ∧ 1 ≤ (0x0E : Byte).toNat ∧ (0x0E : Byte).toNat ≤ plain1.length) ∧
      WellFormedUtf8 (plain1.take (plain1.length - (0x0E : Byte).toNat)) :=
  ⟨by decide +kernel, wellFormed_brackets⟩

/-- Neither valid, no key, a ciphertext of 0 and of 15 bytes, a last byte of 17 over 16 bytes
(V-D4), and an overlong first sequence (V-D13). -/
theorem witness_DecryptReportsTheFirstFailure :
    (busyIn .decrypt State.reset).phase = .busy ∧
      (busyIn .decrypt State.reset).contValid = false ∧
      (busyIn .decrypt (writeCont (List.replicate 48 0) State.reset)).contValid = true ∧
      (busyIn .decrypt (writeCont (List.replicate 48 0) State.reset)).keyValid = false ∧
      (busyDecrypt []).ctLen.toNat = 0 ∧ (busyDecrypt (List.replicate 15 0)).ctLen.toNat % 16 ≠ 0 ∧
      (let s := busyDecrypt [0x0e, 0x7b, 0x06, 0xc9, 0xb9, 0x3b, 0x8f, 0x2e, 0x76, 0x1f, 0xca, 0x15,
          0x7e, 0xd9, 0xd9, 0x6c];
        (cbcDec s.key.toList (s.decBuf.readN 32 16) (s.decBuf.readN 48 s.ctLen.toNat)).getLast? =
          some 0x11 ∧ s.ctLen.toNat < (0x11 : Byte).toNat) ∧
      (let s := busyDecrypt [0xcf, 0xfc, 0xa7, 0x90, 0x1d, 0xa5, 0x79, 0xf5, 0x4b, 0x56, 0xf5, 0x03,
          0x16, 0xc6, 0x0d, 0x9c];
        let b := cbcDec s.key.toList (s.decBuf.readN 32 16) (s.decBuf.readN 48 s.ctLen.toNat);
        b.getLast? = some 0x0E ∧ (0x0E : Byte).toNat ≤ s.ctLen.toNat ∧
          utf8FirstError (b.take (s.ctLen.toNat - (0x0E : Byte).toNat)) = some 0) := by
  decide +kernel

theorem witness_DecryptCanBeRepeated :
    ∃ t, State.reset.phase = .idle ∧ command .decrypt State.reset = .next t := ⟨_, rfl, rfl⟩

/-! ### The witness of RUN

The key of an empty passphrase and a salt of zeros is not evaluated: the initialization vector is
chosen so that the one block of zeros decrypts to 15 × `A` and the count 1. -/

/-- The plaintext block RUN's witness decrypts to. -/
def runPlain : List Byte := List.replicate 15 0x41 ++ [0x01]

/-- The key of RUN's witness. -/
def runKey : List Byte := deriveKey [] (List.replicate 32 0)

/-- The initialization vector of RUN's witness. -/
def runIv : List Byte := xorBytes (aes256Dec runKey (List.replicate 16 0)) runPlain

/-- The container of RUN's witness. -/
def runContainer : List Byte := List.replicate 32 0 ++ runIv ++ List.replicate 16 0

/-- BUSY with RUN, the container's text in IN. -/
def busyRun : State := busyIn .run (withText (base64Encode runContainer))

theorem aes256Dec_length (k c : List Byte) : (aes256Dec k c).length = 16 := rfl

theorem runIv_length : runIv.length = 16 := by
  simp only [runIv, xorBytes_length, aes256Dec_length]
  rfl

theorem runContainer_length : runContainer.length = 64 := by
  simp only [runContainer, List.length_append, List.length_replicate, runIv_length]

theorem xorBytes_cancel (x t : List Byte) (h : x.length = t.length) :
    xorBytes x (xorBytes x t) = t := by
  refine List.ext_getElem (by simp [h]) fun i h1 h2 => ?_
  simp only [xorBytes, List.getElem_zipWith]
  rw [← BitVec.xor_assoc, BitVec.xor_self, BitVec.zero_xor]

theorem runText_length : (base64Encode runContainer).length = 88 := by
  rw [base64Encode_length, runContainer_length]

theorem opText_busyRun : opText busyRun = base64Encode runContainer := by
  have h : busyRun.inLen.toNat = (base64Encode runContainer).length := by
    simp only [busyRun, busyIn, withText, acceptEngine_inLen, runText_length]
    rfl
  have h1 : busyRun.inBuf = Memory.writeN [] 0 (base64Encode runContainer) := by
    simp only [busyRun, busyIn, withText, acceptEngine_inBuf]
  unfold opText
  rw [h, h1]
  generalize base64Encode runContainer = text
  exact Memory.readN_writeN Memory.wf_nil 0 text

theorem runPlain_eq : runPlain = cbcDec runKey runIv (List.replicate 16 0) := by
  have h : cbcDec runKey runIv (List.replicate 16 0) =
      xorBytes (aes256Dec runKey (List.replicate 16 0)) runIv ++ [] := rfl
  have hl : (aes256Dec runKey (List.replicate 16 0)).length = runPlain.length :=
    aes256Dec_length _ _
  rw [h, List.append_nil, runIv]
  generalize aes256Dec runKey (List.replicate 16 0) = x at hl
  exact (xorBytes_cancel x runPlain hl).symm

theorem runWellFormed : ∀ n, WellFormedUtf8 (List.replicate n 0x41)
  | 0 => .nil
  | n + 1 => .cons [0x41] _ (.one 0x41 (by unfold Between; decide)) (runWellFormed n)

theorem witness_RunDecryptsTheWholeContainer :
    busyRun.phase = .busy ∧ busyRun.decBuf.wf = true ∧
      busyRun.inLen.toNat ≤ busyRun.build.maxB64Len ∧
      opText busyRun = base64Encode runContainer ∧
      48 < runContainer.length ∧ runContainer.length % 16 = 0 ∧
      busyRun.passLen.toNat ≤ busyRun.build.maxPassLen ∧
      runKey = deriveKey (busyRun.passBuf.readN 0 busyRun.passLen.toNat) (runContainer.take 32) ∧
      runPlain = cbcDec runKey ((runContainer.drop 32).take 16) (runContainer.drop 48) ∧
      runPlain.getLast? = some 0x01 ∧ 1 ≤ (0x01 : Byte).toNat ∧
      (0x01 : Byte).toNat ≤ runPlain.length ∧
      WellFormedUtf8 (runPlain.take (runPlain.length - (0x01 : Byte).toNat)) := by
  have h1 : runContainer.take 32 = List.replicate 32 0 := by
    simp only [runContainer, List.append_assoc]
    exact List.take_left' rfl
  have h2 : (runContainer.drop 32).take 16 = runIv := by
    simp only [runContainer, List.append_assoc]
    have h : ∀ l : List Byte, (List.replicate 32 (0 : Byte) ++ l).drop 32 = l :=
      fun _ => List.drop_left' rfl
    rw [h, List.take_left' runIv_length]
  have h3 : runContainer.drop 48 = List.replicate 16 0 := by
    rw [runContainer]
    exact List.drop_left' (by simp only [List.length_append, List.length_replicate, runIv_length])
  have h4 : busyRun.inLen.toNat = 88 := by
    rw [← opText_length, opText_busyRun, runText_length]
  refine ⟨rfl, rfl, ?_, opText_busyRun, ?_, ?_, by decide, ?_, ?_, rfl, by decide, by decide, ?_⟩
  · rw [h4]
    exact (by decide : 88 ≤ 65536)
  · rw [runContainer_length]
    decide
  · rw [runContainer_length]
  · rw [h1]
    rfl
  · rw [h2, h3]
    exact runPlain_eq
  · exact runWellFormed 15

theorem witness_RunEqualsTheThreeCommandsInTurn : (withText text48).phase = .idle := rfl

theorem witness_RunNeverLacksContainerOrKey :
    ∃ t, (busyIn .run State.reset).phase = .busy ∧ (busyIn .run State.reset).errCode = 0 ∧
      exec .run (busyIn .run State.reset) = .next t := ⟨_, rfl, rfl, rfl⟩

theorem witness_CompletionIgnoresHostTraffic :
    Inv busyEmpty ∧ busyEmpty.phase = .busy ∧
      ([.read 0x020, .write 0x01C 5 0xF, .write 0x020 0x0E 0xF, .write 0x100000 0 0xF] : List Event).all
        isHostEvent = true := ⟨inv_busyEmpty, rfl, rfl⟩

/-! ### Witnesses: frames and host assembly -/

theorem witness_CommandsLeaveTheInputsAlone (i : Instr) (h : i ≠ .clear) :
    runsInEngine i = true ∧ (∃ t, exec i State.reset = .next t) ∧
      ∃ t, exec i (busyIn i State.reset) = .next t := by
  have hr : runsInEngine i = true := by
    cases i
    case clear => exact absurd rfl h
    all_goals rfl
  exact ⟨hr, ⟨_, exec_idle hr rfl⟩, ⟨_, exec_busy hr rfl⟩⟩

/-- DECODE with a result and with an error, DERIVE with an error, DECRYPT with a result and with an
error, and RUN with an error, each from BUSY and with buffers in canonical form. -/
theorem witness_CompletionsStoreOnlyTheirResult :
    (∀ i, (busyIn i State.reset).phase = .busy ∧ (busyIn i State.reset).decBuf.wf = true ∧
      (busyIn i State.reset).outBuf.wf = true ∧ (busyIn i State.reset).done = false ∧
      (busyIn i State.reset).err = false) ∧
      (∃ d, decodeCore (busyIn .decode (withText text48)) = .ok d) ∧
      (∃ e, decodeCore busyEmpty = .error e) ∧
      after (exec .derive (busyIn .derive State.reset)) (fun t => t.err) = true ∧
      (busyDecrypt ct1).decBuf.wf = true ∧ (∃ tp, decryptCore (busyDecrypt ct1) = .ok tp) ∧
      (∃ e, decryptCore (busyIn .decrypt State.reset) = .error e) ∧
      after (exec .run (busyIn .run State.reset)) (fun t => !t.done) = true := by
  refine ⟨fun i => by cases i <;> exact ⟨rfl, rfl, rfl, rfl, rfl⟩,
    ⟨List.replicate 48 0, by decide +kernel⟩, ⟨_, rfl⟩, rfl, by decide +kernel,
    ⟨([0x5B, 0x5D], 0x0E), by decide +kernel⟩, ⟨_, rfl⟩, rfl⟩

/-- Two states that differ past the texts. -/
theorem witness_CommandsReadOnlyTheirOperands :
    (withText [0x41, 0x41]).inLen =
        ({ withText [0x41, 0x41, 0x42] with inLen := 2, passBuf := [(5, 1)] } : State).inLen ∧
      (∀ j, j < 2 → (withText [0x41, 0x41]).inBuf.read j = (withText [0x41, 0x41, 0x42]).inBuf.read j) ∧
      Memory.read [] 5 ≠ Memory.read [(5, 1)] 5 := by decide

theorem witness_LoadinPlacesTheText :
    Inv (upcoming (hostEvents (expand (.loadin pass1) [])) State.reset) ∧
      (upcoming (hostEvents (expand (.loadin pass1) [])) State.reset).phase = .idle ∧
      pass1.length ≤ State.reset.build.maxB64Len ∧
      (upcoming (hostEvents (expand (.loadin pass1) [])) State.reset).pending =
        hostEvents (expand (.loadin pass1) []) ++ [] :=
  ⟨inv_upcoming inv_reset _, rfl, by decide, rfl⟩

/-- A BUSY engine polled twice before it completes, and a poll of STATUS. -/
theorem witness_WaitAndPollStopAtTheFirstWordAskedFor :
    Inv (upcoming [.read 0x020, .read 0x020, .engine, .read 0x020] busyEmpty) ∧
      (upcoming [.read 0x020, .read 0x020, .engine, .read 0x020] busyEmpty).phase = .busy ∧
      (upcoming [.read 0x020, .read 0x020, .engine, .read 0x020] busyEmpty).pending =
        List.replicate 2 (.read 0x020) ++ .engine :: .read 0x020 :: [] ∧
      runsPseudo .wait 4 (upcoming [.read 0x020, .read 0x020, .engine, .read 0x020] busyEmpty) =
        true ∧
      runsPseudo (.poll 0x020 1 0) 4
        (upcoming [.read 0x020, .read 0x020, .engine, .read 0x020] busyEmpty) = true ∧
      runsPseudo (.poll 0x020 1 0) 2
        (upcoming [.read 0x020, .read 0x020, .engine, .read 0x020] busyEmpty) = false ∧
      (∃ t, steps 4 (upcoming [.read 0x020, .read 0x020, .engine, .read 0x020] busyEmpty) =
        .next t) :=
  ⟨inv_upcoming inv_busyEmpty _, rfl, rfl, by decide +kernel, by decide +kernel,
    by decide +kernel, _, rfl⟩

/-- A block that holds the plaintext `[]`, with the transactions of a readout to come. -/
def readoutState : State :=
  upcoming [.read 0x03C, .read 0x300000]
    (writeOut [0x5B, 0x5D] 14
      (writeKey key1 (writeCont (List.replicate 48 0 ++ List.replicate 16 1) State.reset)))

theorem inv_readoutState : Inv readoutState where
  build_ok := by decide
  in_wf := rfl
  in_cap := rfl
  pass_wf := rfl
  pass_cap := rfl
  dec_wf := by decide +kernel
  dec_cap := by decide +kernel
  out_wf := by decide +kernel
  out_cap := by decide +kernel
  cont_off h := by cases h
  key_off h := by cases h
  out_off h := by cases h
  cont_on _ := by decide
  out_on _ := by decide
  key_cont _ := rfl
  out_key _ := rfl
  done_err h := by cases h
  busy_cmd h := by cases h
  busy_flags h := by cases h
  code_table := .inl rfl
  err_code h := by cases h
  done_code h := by cases h
  no_code_info _ := rfl

theorem witness_ReadoutBindsThePlaintext :
    Inv readoutState ∧ readoutState.outValid = true ∧
      2 = 1 + (readoutState.outLen.toNat + 3) / 4 ∧
      readoutState.pending = .read 0x03C ::
        ((List.range ((readoutState.outLen.toNat + 3) / 4)).map fun k =>
          .read (BitVec.ofNat 22 (0x300000 + 4 * k))) ++ [] :=
  ⟨inv_readoutState, rfl, by decide, by decide⟩

end Sys2Proof.Tests
end

section
/-! A command's outcome does not depend on host traffic (O53): while the engine is BUSY a host
transaction moves only CTRL.IE, STATUS.WERR and the reply (20_memory R96), and no completion reads
those three. -/

namespace Sys2Proof.Machine

/-! ### The fields the host can change while the engine is BUSY -/

/-- A state with other values of IE, WERR and the last reply. -/
def setHostFields (ie werr : Bool) (r : Option Reply) (s : State) : State :=
  { s with ie := ie, werr := werr, reply := r }

theorem eq_setHostFields_self (s : State) : s = setHostFields s.ie s.werr s.reply s := rfl

/-! ### Completion reads none of them -/

section Completion

variable (ie werr : Bool) (r : Option Reply) (s : State)

theorem decodeResult_setHostFields :
    decodeResult (setHostFields ie werr r s) =
      (decodeResult s).map (setHostFields ie werr r) := by
  have hcore : decodeCore (setHostFields ie werr r s) = decodeCore s := rfl
  unfold decodeResult
  rw [hcore]
  cases decodeCore s <;> rfl

theorem deriveResult_setHostFields :
    deriveResult (setHostFields ie werr r s) =
      (deriveResult s).map (setHostFields ie werr r) := by
  have hcore : deriveCore (setHostFields ie werr r s) = deriveCore s := rfl
  unfold deriveResult
  rw [hcore]
  cases deriveCore s <;> rfl

theorem decryptResult_setHostFields :
    decryptResult (setHostFields ie werr r s) =
      (decryptResult s).map (setHostFields ie werr r) := by
  have hcore : decryptCore (setHostFields ie werr r s) = decryptCore s := rfl
  unfold decryptResult
  rw [hcore]
  cases decryptCore s <;> rfl

/-- RUN's stages in turn, each of which reads none of the three fields. -/
theorem runResult_setHostFields :
    runResult (setHostFields ie werr r s) = (runResult s).map (setHostFields ie werr r) := by
  unfold runResult
  rw [decodeResult_setHostFields]
  cases decodeResult s with
  | error e => rfl
  | ok s1 =>
    simp only [Except.map, deriveResult_setHostFields]
    cases deriveResult s1 with
    | error e => rfl
    | ok s2 => exact decryptResult_setHostFields ie werr r s2

theorem resultOf_setHostFields (i : Instr) :
    resultOf i (setHostFields ie werr r s) =
      (resultOf i s).map (setHostFields ie werr r) := by
  cases i with
  | decode => exact decodeResult_setHostFields ie werr r s
  | derive => exact deriveResult_setHostFields ie werr r s
  | decrypt => exact decryptResult_setHostFields ie werr r s
  | run => exact runResult_setHostFields ie werr r s
  | clear => rfl

theorem errorComplete_setHostFields (i : Instr) (e : Raise) :
    errorComplete i e (setHostFields ie werr r s) =
      setHostFields ie werr r (errorComplete i e s) := by
  cases i <;> rfl

/-- Completion commutes with a change of IE, WERR and the reply, whatever its outcome. -/
theorem complete_setHostFields (i : Instr) :
    complete i (resultOf i (setHostFields ie werr r s)) (setHostFields ie werr r s) =
      setHostFields ie werr r (complete i (resultOf i s) s) := by
  rw [resultOf_setHostFields]
  cases resultOf i s with
  | ok t => rfl
  | error e => exact errorComplete_setHostFields ie werr r s i e

end Completion

/-! ### Host traffic while BUSY -/

/-- Nothing of the running command is reported yet, so there is no DONE or ERR to clear. -/
theorem writeOneToClear_of_flags_off {s : State} (hd : s.done = false) (he : s.err = false)
    (v : Word) :
    writeOneToClear v s = setHostFields s.ie (s.werr && !v.getLsbD 3) s.reply s := by
  simp [writeOneToClear, setHostFields, hd, he]

/-- BUSY, a host write changes at most IE and WERR (20_memory R96). -/
theorem WriteEffect.setHostFields_of_busy {s t : State} (h : WriteEffect s t)
    (hp : s.phase = .busy) (hd : s.done = false) (he : s.err = false) :
    ∃ ie werr, t = setHostFields ie werr s.reply s := by
  cases h with
  | none => exact ⟨_, _, eq_setHostFields_self s⟩
  | drop => exact ⟨s.ie, true, rfl⟩
  | ctrl b => exact ⟨b, s.werr, rfl⟩
  | w1c v => exact ⟨_, _, writeOneToClear_of_flags_off hd he v⟩
  | inLen hi | passLen hi | input hi | pass hi | accept hi | clear hi | illegal hi =>
    rw [hp] at hi
    cases hi

/-- BUSY, a host transaction answers with a state that differs in IE, WERR and the reply only. -/
theorem runEvent_host_busy {s : State} {e : Event} (hp : s.phase = .busy) (hd : s.done = false)
    (he : s.err = false) (hhost : isHostEvent e = true) :
    ∃ ie werr r, runEvent e s = .next (setHostFields ie werr r s) := by
  cases e with
  | read a => exact ⟨s.ie, s.werr, _, rfl⟩
  | write a v strb =>
    obtain ⟨t, ht⟩ := hostWrite_next a v strb { s with reply := some (.written (busResp a)) }
    obtain ⟨ie, werr, rfl⟩ := (hostWrite_effect ht).setHostFields_of_busy hp hd he
    exact ⟨ie, werr, _, ht⟩
  | engine => cases hhost
  | reset => cases hhost

/-- BUSY, the host transactions at the head of the schedule are used up, one step each, and leave
everything but IE, WERR and the reply as it was. -/
theorem steps_host_busy {es : List Event} (hhost : ∀ e ∈ es, isHostEvent e = true) {s : State}
    (hp : s.phase = .busy) (hd : s.done = false) (he : s.err = false) (rest : List Event)
    (n : Nat) :
    ∃ ie werr r, steps (es.length + n) { s with pending := es ++ rest } =
      steps n (setHostFields ie werr r { s with pending := rest }) := by
  induction es generalizing s with
  | nil =>
    refine ⟨s.ie, s.werr, s.reply, ?_⟩
    rw [List.length_nil, Nat.zero_add]
    rfl
  | cons e es ih =>
    obtain ⟨hhead, htail⟩ := List.forall_mem_cons.mp hhost
    obtain ⟨ie, werr, r, hev⟩ :=
      runEvent_host_busy (s := { s with pending := es ++ rest }) hp hd he hhead
    have hstep : step { s with pending := (e :: es) ++ rest } =
        .next { setHostFields ie werr r s with pending := es ++ rest } := hev
    obtain ⟨ie', werr', r', hrun⟩ := ih htail (s := setHostFields ie werr r s) hp hd he
    refine ⟨ie', werr', r', ?_⟩
    rw [List.length_cons, Nat.add_right_comm, steps_succ _ hstep]
    exact hrun

/-- BUSY with the engine's turn first in the schedule, one step completes the command. -/
theorem steps_one_engine_busy {s : State} {i : Instr} {rest : List Event} (hp : s.phase = .busy)
    (hc : s.pendCmd = encode i) (hr : runsInEngine i = true) :
    steps 1 { s with pending := .engine :: rest } =
      .next (complete i (resultOf i { s with pending := rest }) { s with pending := rest }) := by
  have hstep : step { s with pending := .engine :: rest } = _ :=
    engineTurn_busy (s := { s with pending := rest }) hp hc hr
  rw [steps_succ 0 hstep, steps_zero]

/-- Settles O53: the host transactions change only IE, WERR and the reply (`steps_host_busy`), and
completion commutes with such a change (`complete_setHostFields`). -/
theorem completionIgnoresHostTraffic : Obligations.CompletionIgnoresHostTraffic := by
  unfold Obligations.CompletionIgnoresHostTraffic
  intro s es rest hinv hp hhost
  obtain ⟨i, hc, hr, -⟩ := hinv.busy_cmd hp
  obtain ⟨hd, he, -⟩ := hinv.busy_flags hp
  obtain ⟨ie, werr, r, hrun⟩ := steps_host_busy hhost hp hd he (.engine :: rest) 1
  have hend := steps_one_engine_busy (s := setHostFields ie werr r s) (rest := rest) hp hc hr
  have hcomm := complete_setHostFields ie werr r { s with pending := rest } i
  exact ⟨_, _, steps_one_engine_busy hp hc hr, hrun.trans (hend.trans (congrArg _ hcomm)), rfl⟩

end Sys2Proof.Machine
end

section
/-! The invariants of every reachable state (O5, O6, O7): the operations on the result groups keep
them, so acceptance, completion and host writes do, so every step does (10_state R46 to R48, R66). -/

namespace Sys2Proof.Machine

/-! ### Bounds of a legal build (00_scope R9) -/

theorem Build.maxDecLen_lt {b : Build} (h : b.ok = true) : b.maxDecLen < 2 ^ 32 := by
  simp only [Build.ok, Bool.and_eq_true, decide_eq_true_eq] at h
  obtain ⟨⟨-, -, hmax⟩, -⟩ := h
  simp only [Build.maxDecLen]
  omega

/-- A length that fits a register reads back from it. -/
theorem toNat_ofNat_of_lt {n : Nat} (h : n < 2 ^ 32) : (BitVec.ofNat 32 n).toNat = n := by
  rw [BitVec.toNat_ofNat, Nat.mod_eq_of_lt h]

theorem ErrorCode.code_ne_zero (e : ErrorCode) : e.code ≠ 0 := by
  cases e <;> decide

/-- A container DECODE accepts has its header and fits DEC. -/
theorem decodeCore_length {s : State} {d : List Byte} (h : decodeCore s = .ok d) :
    48 ≤ d.length ∧ d.length ≤ s.build.maxDecLen := by
  obtain ⟨hin, htext⟩ := decodeCore_ok h
  obtain ⟨hmin, hmax⟩ := decodeText_length htext
  rw [opText_length] at hmax
  simp only [Build.maxDecLen]
  omega

/-- A byte sequence stored from offset 0 with its length in a register reads back as it is. -/
theorem readN_stored {m : Memory} (hm : m.wf = true) {d : List Byte} (hd : d.length < 2 ^ 32) :
    (m.writeN 0 d).readN 0 (BitVec.ofNat 32 d.length).toNat = d := by
  rw [toNat_ofNat_of_lt hd, Memory.readN_writeN hm]

/-! ### The invariant but for what it says of a BUSY engine -/

/-- The invariant without its two clauses on a BUSY engine, which the steps between the start and
the end of a completion do not meet. -/
def InvIdle (s : State) : Prop := Inv { s with phase := .idle }

theorem Inv.invIdle {s : State} (h : Inv s) : InvIdle s :=
  { h with busy_cmd := nofun, busy_flags := nofun }

theorem InvIdle.inv {s : State} (h : InvIdle s) (hp : s.phase = .idle) : Inv s := by
  have hs : { s with phase := .idle } = s := by rw [← hp]
  exact hs ▸ h

/-- The schedule and the last reply are not the block's. -/
theorem Inv.set_pending_reply {s : State} (h : Inv s) (p : List Event) (r : Option Reply) :
    Inv { s with pending := p, reply := r } := { h with }

namespace InvIdle

variable {s : State} (h : InvIdle s)
include h

/-- No valid container means no valid key. -/
theorem keyValid_of_no_cont (hc : s.contValid = false) : s.keyValid = false :=
  Bool.eq_false_iff.mpr fun hk => absurd (h.key_cont hk) (by simp [hc])

/-- No valid key means no valid plaintext. -/
theorem outValid_of_no_key (hk : s.keyValid = false) : s.outValid = false :=
  Bool.eq_false_iff.mpr fun ho => absurd (h.out_key ho) (by simp [hk])

theorem decBuf_of_no_cont (hc : s.contValid = false) : s.decBuf = [] := by
  have hlen : s.decLen = 0 := (h.cont_off hc).1
  have hcap : s.decBuf.below s.decLen.toNat = true := h.dec_cap
  rw [hlen] at hcap
  exact Memory.below_zero hcap

theorem outBuf_of_no_out (ho : s.outValid = false) : s.outBuf = [] := by
  have hlen : s.outLen = 0 := (h.out_off ho).1
  have hcap : s.outBuf.below s.outLen.toNat = true := h.out_cap
  rw [hlen] at hcap
  exact Memory.below_zero hcap

theorem clearOut : InvIdle (clearOut s) :=
  { h with
    out_wf := rfl, out_cap := rfl, out_off := fun _ => ⟨rfl, rfl⟩, out_on := nofun
    out_key := nofun, busy_cmd := nofun }

theorem clearKey (ho : s.outValid = false) : InvIdle (clearKey s) :=
  { h with
    key_off := fun _ => rfl, key_cont := nofun, busy_cmd := nofun
    out_key := fun hv => absurd (ho.symm.trans hv) nofun }

theorem clearCont (hk : s.keyValid = false) : InvIdle (clearCont s) :=
  { h with
    dec_wf := rfl, dec_cap := rfl, cont_off := fun _ => ⟨rfl, rfl⟩, cont_on := nofun
    out_on := fun hv => absurd ((h.outValid_of_no_key hk).symm.trans hv) nofun
    key_cont := fun hv => absurd (hk.symm.trans hv) nofun, busy_cmd := nofun }

/-- Clearing the groups of a command: a cleared container takes its key with it, a cleared key its
plaintext (R66). -/
theorem clearGroups (i : Instr) : InvIdle (clearGroups i s) := by
  cases i with
  | decode | run | clear => exact (h.clearOut.clearKey rfl).clearCont rfl
  | derive => exact h.clearOut.clearKey rfl
  | decrypt => exact h.clearOut

/-- Acceptance of any word, before its command's own part. -/
theorem acceptHead (w : Word) : InvIdle (acceptHead w s) :=
  { h with
    done_err := nofun, busy_cmd := nofun, busy_flags := nofun, code_table := .inl rfl
    err_code := nofun, done_code := nofun, no_code_info := fun _ => rfl }

/-- DECODE's store, into an invalid container. -/
theorem writeCont {d : List Byte} (hc : s.contValid = false) (hmin : 48 ≤ d.length)
    (hmax : d.length ≤ s.build.maxDecLen) : InvIdle (writeCont d s) := by
  have hk := h.keyValid_of_no_cont hc
  have ho := h.outValid_of_no_key hk
  have hlt : d.length < 2 ^ 32 := Nat.lt_of_le_of_lt hmax (Build.maxDecLen_lt h.build_ok)
  have hdec : (BitVec.ofNat 32 d.length).toNat = d.length := toNat_ofNat_of_lt hlt
  have hct : (BitVec.ofNat 32 (d.length - 48)).toNat = d.length - 48 :=
    toNat_ofNat_of_lt (by omega)
  exact { h with
    busy_cmd := nofun
    dec_wf := Memory.wf_writeN h.dec_wf 0 d
    dec_cap := by
      have hempty : s.decBuf = [] := h.decBuf_of_no_cont hc
      simp only [writeCont_decBuf, writeCont_decLen, hempty, hdec]
      exact Memory.below_writeN rfl 0 d (by omega)
    cont_off := nofun
    cont_on := fun _ => by
      simp only [writeCont_decLen, writeCont_ctLen, writeCont_build, Config.hdrLen, hdec, hct]
      omega
    out_on := fun hv => absurd (ho.symm.trans hv) nofun
    key_cont := fun _ => rfl }

/-- DERIVE's store, under a valid container. -/
theorem writeKey (dk : List Byte) (hc : s.contValid = true) : InvIdle (writeKey dk s) :=
  { h with
    busy_cmd := nofun, key_off := nofun, key_cont := fun _ => hc, out_key := fun _ => rfl }

/-- DECRYPT's store, into an invalid plaintext under a valid key. -/
theorem writeOut {t : List Byte} {p : Byte} (hk : s.keyValid = true) (ho : s.outValid = false)
    (hp : 1 ≤ p.toNat) (hlen : t.length + p.toNat = s.ctLen.toNat) :
    InvIdle (writeOut t p s) := by
  have hlt : t.length < 2 ^ 32 := by
    have := s.ctLen.isLt
    omega
  have hout : (BitVec.ofNat 32 t.length).toNat = t.length := toNat_ofNat_of_lt hlt
  exact { h with
    busy_cmd := nofun
    out_wf := Memory.wf_writeN h.out_wf 0 t
    out_cap := by
      have hempty : s.outBuf = [] := h.outBuf_of_no_out ho
      simp only [writeOut_outBuf, writeOut_outLen, hempty, hout]
      exact Memory.below_writeN rfl 0 t (by omega)
    out_off := nofun
    out_on := fun _ => by
      simp only [writeOut_outLen, writeOut_padVal, writeOut_ctLen, hout]
      exact ⟨hlen, hp⟩
    out_key := fun _ => hk }

/-- A successful completion, with nothing of the command reported before. -/
theorem doneComplete (he : s.err = false) (hcode : s.errCode = 0) : Inv (doneComplete s) :=
  { h with
    done_err := fun _ => he, busy_cmd := nofun, busy_flags := nofun, done_code := fun _ => hcode }

/-- An error recorded, with nothing of the command reported before. -/
theorem recordError (e : Raise) (hd : s.done = false) : InvIdle (recordError e s) :=
  { h with
    busy_cmd := nofun, busy_flags := nofun
    done_err := fun h1 => absurd (hd.symm.trans h1) nofun
    code_table := .inr ⟨e.code, rfl⟩
    err_code := fun _ => e.code.code_ne_zero
    done_code := fun h1 => absurd (hd.symm.trans h1) nofun
    no_code_info := fun h0 => absurd h0 e.code.code_ne_zero }

/-! ### Completion -/

section Completion

variable {t : State}

theorem decodeResult (hc : s.contValid = false) (hr : decodeResult s = .ok t) : InvIdle t := by
  obtain ⟨d, hd, rfl⟩ := decodeResult_ok hr
  obtain ⟨hmin, hmax⟩ := decodeCore_length hd
  exact h.writeCont hc hmin hmax

theorem deriveResult (hr : deriveResult s = .ok t) : InvIdle t := by
  obtain ⟨hc, -, rfl⟩ := deriveResult_ok hr
  exact h.writeKey _ hc

theorem decryptResult (ho : s.outValid = false) (hr : decryptResult s = .ok t) : InvIdle t := by
  obtain ⟨tp, hd, rfl⟩ := decryptResult_ok hr
  obtain ⟨-, hk, -, -, hp, hlen, -⟩ := decryptCore_ok hd
  exact h.writeOut hk ho hp hlen

/-- RUN's stages in turn: the first two leave the plaintext invalid. -/
theorem runResult (hc : s.contValid = false) (ho : s.outValid = false)
    (hr : runResult s = .ok t) : InvIdle t := by
  obtain ⟨s1, s2, h1, h2, h3⟩ := runResult_ok hr
  have hinv : InvIdle s2 := (h.decodeResult hc h1).deriveResult h2
  obtain ⟨_, _, rfl⟩ := decodeResult_ok h1
  obtain ⟨-, -, rfl⟩ := deriveResult_ok h2
  exact hinv.decryptResult ho h3

/-- The result of a command whose groups its acceptance has cleared. -/
theorem resultOf {i : Instr} (ho : s.outValid = false)
    (hc : clearsCont i = true → s.contValid = false) (hr : resultOf i s = .ok t) :
    InvIdle t := by
  cases i with
  | decode => exact h.decodeResult (hc rfl) hr
  | derive => exact h.deriveResult hr
  | decrypt => exact h.decryptResult ho hr
  | run => exact h.runResult (hc rfl) ho hr
  | clear =>
    cases hr
    exact h

end Completion

theorem errorComplete (i : Instr) (e : Raise) (hd : s.done = false) :
    Inv (errorComplete i e s) := by
  cases i with
  | run => exact (h.clearGroups .run).recordError e (by simpa using hd)
  | decode | derive | decrypt | clear => exact h.recordError e hd

end InvIdle

/-- A result reports nothing yet. -/
theorem flags_resultOf {i : Instr} {s t : State} (hr : resultOf i s = .ok t) :
    t.err = s.err ∧ t.errCode = s.errCode := by
  cases i with
  | decode =>
    obtain ⟨_, -, rfl⟩ := decodeResult_ok hr
    exact ⟨rfl, rfl⟩
  | derive =>
    obtain ⟨-, -, rfl⟩ := deriveResult_ok hr
    exact ⟨rfl, rfl⟩
  | decrypt =>
    obtain ⟨_, -, rfl⟩ := decryptResult_ok hr
    exact ⟨rfl, rfl⟩
  | run =>
    obtain ⟨s1, s2, h1, h2, h3⟩ := runResult_ok hr
    obtain ⟨_, -, rfl⟩ := decodeResult_ok h1
    obtain ⟨-, -, rfl⟩ := deriveResult_ok h2
    obtain ⟨_, -, rfl⟩ := decryptResult_ok h3
    exact ⟨rfl, rfl⟩
  | clear =>
    cases hr
    exact ⟨rfl, rfl⟩

/-- While BUSY, the groups that the pending command's acceptance cleared are invalid. -/
theorem Inv.cleared_of_busy {s : State} (h : Inv s) {i : Instr} (hp : s.phase = .busy)
    (hc : s.pendCmd = encode i) :
    s.outValid = false ∧ (clearsKey i = true → s.keyValid = false) ∧
      (clearsCont i = true → s.contValid = false) := by
  obtain ⟨j, hj, -, hcleared⟩ := h.busy_cmd hp
  obtain rfl : i = j := encode_injective (hc.symm.trans hj)
  exact hcleared

/-- Completion keeps the invariant, whatever its outcome. -/
theorem Inv.complete {s : State} (h : Inv s) {i : Instr} (hp : s.phase = .busy)
    (hc : s.pendCmd = encode i) : Inv (complete i (resultOf i s) s) := by
  obtain ⟨hdone, herr, hcode⟩ := h.busy_flags hp
  obtain ⟨hout, -, hcont⟩ := h.cleared_of_busy hp hc
  cases hr : resultOf i s with
  | ok t =>
    obtain ⟨he, hec⟩ := flags_resultOf hr
    exact (h.invIdle.resultOf hout hcont hr).doneComplete (he.trans herr) (hec.trans hcode)
  | error e => exact h.invIdle.errorComplete i e hdone

/-! ### Acceptance and host writes -/

/-- Acceptance of a command the engine completes. -/
theorem Inv.acceptEngine {s : State} (h : Inv s) {i : Instr} (hr : runsInEngine i = true) :
    Inv (acceptEngine i s) :=
  { (h.invIdle.acceptHead (encode i)).clearGroups i with
    busy_cmd := fun _ => ⟨i, by simp, hr, by simp, by simp_all, by simp_all⟩
    busy_flags := fun _ => by simp }

/-- CLEAR, accepted and completed at once. -/
theorem Inv.clearComplete {s : State} (h : Inv s) (hp : s.phase = .idle) (w : Word) :
    Inv (clearComplete (acceptHead w s)) := by
  have hgroups : Inv (clearGroups .clear (Machine.acceptHead w s)) :=
    ((h.invIdle.acceptHead w).clearGroups .clear).inv hp
  exact { hgroups with
    in_wf := rfl, in_cap := rfl, pass_wf := rfl, pass_cap := rfl
    done_err := fun _ => rfl
    busy_flags := fun hb => absurd (hp.symm.trans hb) nofun
    code_table := .inl rfl, err_code := nofun, done_code := fun _ => rfl
    no_code_info := fun _ => rfl }

/-- An illegal word. -/
theorem Inv.illegalComplete {s : State} (h : Inv s) (hp : s.phase = .idle) (w : Word) :
    Inv (illegalComplete w s) :=
  ((h.invIdle.acceptHead w).recordError _ rfl).inv hp

/-- Clearing DONE and ERR by a STATUS write leaves ERR_CODE as it is. -/
theorem Inv.writeOneToClear {s : State} (h : Inv s) (v : Word) : Inv (writeOneToClear v s) :=
  { h with
    done_err := fun hd => by
      simp only [writeOneToClear_done, Bool.and_eq_true] at hd
      simp [h.done_err hd.1]
    busy_flags := fun hb => by
      obtain ⟨hdone, herr, hcode⟩ := h.busy_flags hb
      simp [hdone, herr, hcode]
    err_code := fun he => by
      simp only [writeOneToClear_err, Bool.and_eq_true] at he
      exact h.err_code he.1
    done_code := fun hd => by
      simp only [writeOneToClear_done, Bool.and_eq_true] at hd
      exact h.done_code hd.1 }

/-- Every host write keeps the invariant. -/
theorem Inv.write {s t : State} (h : Inv s) (hw : WriteEffect s t) : Inv t := by
  cases hw with
  | none => exact h
  | drop | ctrl | inLen | passLen => exact { h with }
  | w1c v => exact h.writeOneToClear v
  | input _ o v strb =>
    exact { h with
      in_wf := writeLanes_wf h.in_wf _ _ _ _, in_cap := writeLanes_below h.in_cap _ _ _ }
  | pass _ o v strb =>
    exact { h with
      pass_wf := writeLanes_wf h.pass_wf _ _ _ _, pass_cap := writeLanes_below h.pass_cap _ _ _ }
  | accept _ i hr => exact h.acceptEngine hr
  | clear hp => exact h.clearComplete hp _
  | illegal hp w => exact h.illegalComplete hp w

/-! ### Every step keeps the invariant -/

theorem inv_resetOf {b : Build} (h : b.ok = true) : Inv (State.resetOf b) := by
  constructor <;> simp [State.resetOf, h]

theorem Inv.step {s t : State} (h : Inv s) (hs : StepEffect s t) : Inv t := by
  have hsched (p : List Event) : Inv { s with pending := p } := { h with }
  cases hs with
  | idle p => exact hsched p
  | complete p i hp hc => exact (hsched p).complete hp hc
  | read p r => exact { h with }
  | write p r _ hw => exact (h.set_pending_reply p (some r)).write hw
  | reset p => exact { inv_resetOf h.build_ok with }

/-- Settles O6: each thing a step can do (`step_effect`) keeps the invariant. -/
theorem everyStepKeepsTheInvariant : Obligations.EveryStepKeepsTheInvariant := by
  unfold Obligations.EveryStepKeepsTheInvariant
  exact fun s t h hs => h.step (step_effect hs)

/-! ### What the valid bits mean -/

/-- Nothing valid, nothing to mean. -/
theorem results_of_invalid {s : State} (hc : s.contValid = false) (hk : s.keyValid = false)
    (ho : s.outValid = false) : Results s where
  cont hv := absurd (hc.symm.trans hv) nofun
  key hv := absurd (hk.symm.trans hv) nofun
  out hv := absurd (ho.symm.trans hv) nofun

namespace Results

variable {s : State} (h : Results s)
include h

theorem clearOut : Results (clearOut s) := { h with out := nofun }

theorem clearKey (ho : s.outValid = false) : Results (clearKey s) :=
  { h with key := nofun, out := fun hv => absurd (ho.symm.trans hv) nofun }

theorem clearGroups (i : Instr) : Results (clearGroups i s) := by
  cases i with
  | decode | run | clear => exact results_of_invalid rfl rfl rfl
  | derive => exact h.clearOut.clearKey rfl
  | decrypt => exact h.clearOut

theorem recordError (e : Raise) : Results (recordError e s) := { h with }

theorem doneComplete : Results (doneComplete s) := { h with }

theorem errorComplete (i : Instr) (e : Raise) : Results (errorComplete i e s) := by
  cases i with
  | run => exact { (h.clearGroups .run).recordError e with }
  | decode | derive | decrypt | clear => exact { h.recordError e with }

section Completion

variable {t : State} (hinv : InvIdle s)
include hinv

omit h in
/-- DECODE stores a decoded text. -/
theorem decodeResult (hc : s.contValid = false) (hr : decodeResult s = .ok t) : Results t := by
  obtain ⟨d, hd, rfl⟩ := decodeResult_ok hr
  obtain ⟨hin, htext⟩ := decodeCore_ok hd
  obtain ⟨-, hmax⟩ := decodeCore_length hd
  have hk := hinv.keyValid_of_no_cont hc
  have ho := hinv.outValid_of_no_key hk
  have hdec : (s.decBuf.writeN 0 d).readN 0 (BitVec.ofNat 32 d.length).toNat = d :=
    readN_stored hinv.dec_wf (Nat.lt_of_le_of_lt hmax (Build.maxDecLen_lt hinv.build_ok))
  exact {
    cont := fun _ => ⟨opText s, by simpa using hin, by
      rw [writeCont_decBuf, writeCont_decLen, hdec]
      exact htext⟩
    key := fun hv => absurd (hk.symm.trans hv) nofun
    out := fun hv => absurd (ho.symm.trans hv) nofun }

omit hinv in
/-- DERIVE stores the key of the passphrase under the container's salt. -/
theorem deriveResult (ho : s.outValid = false) (hr : deriveResult s = .ok t) : Results t := by
  obtain ⟨-, hpass, rfl⟩ := deriveResult_ok hr
  exact { h with
    key := fun _ => ⟨opPass s, by simpa using hpass, keyBytes_keyOfBytes _ (deriveKey_length _ _)⟩
    out := fun hv => absurd (ho.symm.trans hv) nofun }

/-- DECRYPT stores what its checks and its cipher give. -/
theorem decryptResult (hr : decryptResult s = .ok t) : Results t := by
  obtain ⟨tp, hd, rfl⟩ := decryptResult_ok hr
  obtain ⟨-, -, -, -, -, hlen, -⟩ := decryptCore_ok hd
  have hlt : tp.1.length < 2 ^ 32 := by
    have := s.ctLen.isLt
    omega
  have hout : (s.outBuf.writeN 0 tp.1).readN 0 (BitVec.ofNat 32 tp.1.length).toNat = tp.1 :=
    readN_stored hinv.out_wf hlt
  have hcore : decryptCore (writeOut tp.1 tp.2 s) = decryptCore s := rfl
  exact { h with
    out := fun _ => by
      rw [hcore, hd, writeOut_outBuf, writeOut_outLen, writeOut_padVal, hout] }

omit h in
/-- RUN's stages in turn. -/
theorem runResult (hc : s.contValid = false) (ho : s.outValid = false)
    (hr : runResult s = .ok t) : Results t := by
  obtain ⟨s1, s2, h1, h2, h3⟩ := runResult_ok hr
  have hinv1 : InvIdle s1 := hinv.decodeResult hc h1
  have hres1 : Results s1 := Results.decodeResult hinv hc h1
  have ho1 : s1.outValid = false := by
    obtain ⟨_, -, rfl⟩ := decodeResult_ok h1
    exact ho
  exact (hres1.deriveResult ho1 h2).decryptResult (hinv1.deriveResult h2) h3

theorem resultOf {i : Instr} (ho : s.outValid = false)
    (hc : clearsCont i = true → s.contValid = false) (hr : resultOf i s = .ok t) :
    Results t := by
  cases i with
  | decode => exact Results.decodeResult hinv (hc rfl) hr
  | derive => exact h.deriveResult ho hr
  | decrypt => exact h.decryptResult hinv hr
  | run => exact Results.runResult hinv (hc rfl) ho hr
  | clear =>
    cases hr
    exact h

end Completion

/-- Completion keeps the meaning of the valid bits, whatever its outcome. -/
theorem complete (hinv : Inv s) {i : Instr} (hp : s.phase = .busy) (hc : s.pendCmd = encode i) :
    Results (complete i (Machine.resultOf i s) s) := by
  obtain ⟨hout, -, hcont⟩ := hinv.cleared_of_busy hp hc
  cases hr : Machine.resultOf i s with
  | ok t => exact (h.resultOf hinv.invIdle hout hcont hr).doneComplete
  | error e => exact h.errorComplete i e

/-- No host write touches a valid result: it leaves the groups, or clears them. -/
theorem write {t : State} (hw : WriteEffect s t) : Results t := by
  cases hw with
  | none => exact h
  | drop | ctrl | w1c | inLen | passLen | input | pass | illegal => exact { h with }
  | accept _ i =>
    have hhead : Results (acceptHead (encode i) s) := { h with }
    exact { hhead.clearGroups i with }
  | clear => exact results_of_invalid rfl rfl rfl

theorem step (hinv : Inv s) {t : State} (hs : StepEffect s t) : Results t := by
  cases hs with
  | idle p => exact { h with }
  | complete p i hp hc =>
    have hsched : Results { s with pending := p } := { h with }
    exact hsched.complete { hinv with } hp hc
  | read p r => exact { h with }
  | write p r _ hw =>
    have hsched : Results { s with pending := p, reply := some r } := { h with }
    exact hsched.write hw
  | reset p => exact results_of_invalid rfl rfl rfl

end Results

/-- Settles O7: each thing a step can do (`step_effect`) keeps the meaning of the valid bits. -/
theorem everyStepKeepsTheResultsTrue : Obligations.EveryStepKeepsTheResultsTrue := by
  unfold Obligations.EveryStepKeepsTheResultsTrue
  exact fun s t hinv h hs => h.step hinv (step_effect hs)

/-- Settles O5: at reset every buffer is empty and nothing is valid. -/
theorem resetMeetsTheInvariants : Obligations.ResetMeetsTheInvariants := by
  unfold Obligations.ResetMeetsTheInvariants
  exact fun b hb => ⟨inv_resetOf hb, results_of_invalid rfl rfl rfl⟩

end Sys2Proof.Machine
end

section
/-! What the host reads and what its writes do at each offset of the map (O4, O11, O12, O18, O19,
O21, O22, O23; 10_state R32 to R64, R70, 20_memory R81 to R96). -/

namespace Sys2Proof.Machine

/-! ### What a read returns -/

theorem target_offset (r : Reg) : target r.offset = .reg r := target_eq_reg.mpr rfl

theorem aligned_of_mod {a : Offset} (ha : a.toNat % 4 = 0) : aligned a = true := by
  rw [aligned_eq, decide_eq_true ha]

/-- An aligned transaction answers OKAY (20_memory R83). -/
theorem busResp_of_mod {a : Offset} (ha : a.toNat % 4 = 0) : busResp a = .okay := by
  rw [busResp, if_pos (aligned_of_mod ha)]

/-- A register is read at its offset. -/
theorem readData_reg (s : State) (r : Reg) : readData s r.offset = regRead s r := by
  have ha : aligned r.offset = true := by cases r <;> rfl
  simp only [readData, ha, target_offset, if_true]

/-- A word of zero bytes. -/
theorem winWord_eq_zero {s : State} {w : Window} {o : Nat}
    (h : ∀ k, k < 4 → winByte s w (o + k) = 0) : winWord s w o = 0 := by
  have h0 : winByte s w o = 0 := h 0 (by omega)
  rw [winWord, h0, h 1 (by omega), h 2 (by omega), h 3 (by omega)]
  rfl

/-- A window reads 0 where its four bytes do. -/
theorem readData_win_eq_zero {s : State} {a : Offset} {w : Window} {o : Nat}
    (ht : target a = .win w o) (h : ∀ k, k < 4 → winByte s w (o + k) = 0) :
    readData s a = 0 := by
  simp only [readData, ht, winWord_eq_zero h, ite_self]

theorem readData_reserved {s : State} {a : Offset} (ht : target a = .reserved) :
    readData s a = 0 := by
  simp only [readData, ht, ite_self]

/-! ### What a write does -/

/-- A target that is neither DROPPABLE nor written keeps the whole state, BUSY or not. -/
theorem hostWrite_ignored {s : State} {a : Offset} {v : Word} {strb : Strobe} {tg : Target}
    (ht : target a = tg) (hd : droppable s.build tg = false)
    (hw : writeTarget tg v strb s = .next s) : hostWrite a v strb s = .next s := by
  simp only [hostWrite, ht, hd, hw, Bool.and_false, Bool.false_eq_true, if_false, ite_self]

/-- A constant or result register ignores writes. -/
theorem hostWrite_reg_ignored {s : State} {v : Word} {strb : Strobe} (r : Reg)
    (hd : droppable s.build (.reg r) = false) (hw : writeTarget (.reg r) v strb s = .next s) :
    hostWrite r.offset v strb s = .next s :=
  hostWrite_ignored (target_offset r) hd hw

/-- An aligned, strobed write is dropped or reaches its target (20_memory R82, R96). -/
theorem hostWrite_strobed {s : State} {a : Offset} {strb : Strobe} (v : Word)
    (ha : a.toNat % 4 = 0) (hs : strb ≠ 0) :
    hostWrite a v strb s =
      if busy s && droppable s.build (target a) then .next (dropWrite s)
      else writeTarget (target a) v strb s := by
  rw [hostWrite, if_neg (by simp [aligned_of_mod ha]), if_neg hs]

/-- While IDLE such a write reaches its target. -/
theorem hostWrite_idle {s : State} {a : Offset} {strb : Strobe} (v : Word) (hp : s.phase = .idle)
    (ha : a.toNat % 4 = 0) (hs : strb ≠ 0) :
    hostWrite a v strb s = writeTarget (target a) v strb s := by
  rw [hostWrite_strobed v ha hs, if_neg (by simp [hp])]

/-- While BUSY such a write to a DROPPABLE target is dropped. -/
theorem hostWrite_dropped {s : State} {a : Offset} {strb : Strobe} (v : Word)
    (hp : s.phase = .busy) (ha : a.toNat % 4 = 0) (hs : strb ≠ 0)
    (hd : droppable s.build (target a) = true) : hostWrite a v strb s = .next (dropWrite s) := by
  rw [hostWrite_strobed v ha hs, if_pos (by simp [hp, hd])]

/-! ### The rest of the map -/

/-- The offsets between the registers and the windows reach nothing (10_state R32, R60). -/
theorem target_reserved {a : Offset}
    (h : (0x044 ≤ a.toNat ∧ a.toNat < 0x060) ∨ (0x0B0 ≤ a.toNat ∧ a.toNat < 0x010000) ∨
      (0x020000 ≤ a.toNat ∧ a.toNat < 0x100000)) : target a = .reserved := by
  have hnone : windowAt a.toNat = none := by
    unfold windowAt
    repeat rw [if_neg (by omega)]
  rw [target_of_windowAt (by omega), hnone]

/-- The target of an offset of the DEC window. -/
theorem target_dec {a : Offset} (h1 : 0x200000 ≤ a.toNat) (h2 : a.toNat < 0x300000) :
    target a = .win .dec (a.toNat - 0x200000) := by
  have hwin : windowAt a.toNat = some (.dec, a.toNat - 0x200000) := by
    unfold windowAt
    repeat rw [if_neg (by omega)]
    rw [if_pos ⟨h1, h2⟩]
  rw [target_of_windowAt (by omega), hwin]

/-- The target of an offset of the OUT window, the map's last. -/
theorem target_out {a : Offset} (h : 0x300000 ≤ a.toNat) :
    target a = .win .out (a.toNat - 0x300000) := by
  have hlt := a.isLt
  have hwin : windowAt a.toNat = some (.out, a.toNat - 0x300000) := by
    unfold windowAt
    repeat rw [if_neg (by omega)]
    rw [if_pos ⟨h, hlt⟩]
  rw [target_of_windowAt (by omega), hwin]

/-- The offsets of the SALT, IV and KEY windows reach one of them. -/
theorem target_view {a : Offset} (h1 : 0x060 ≤ a.toNat) (h2 : a.toNat < 0x0B0) :
    ∃ w o, target a = .win w o ∧ (w = .salt ∨ w = .iv ∨ w = .key) := by
  rw [target_of_windowAt (by omega)]
  unfold windowAt
  split_ifs
  · exact ⟨_, _, rfl, .inl rfl⟩
  · exact ⟨_, _, rfl, .inr (.inl rfl)⟩
  · exact ⟨_, _, rfl, .inr (.inr rfl)⟩
  all_goals omega

/-- The views and the two result buffers are read-only (10_state R57 to R59, R63, R64). -/
theorem hostWrite_view {s : State} {a : Offset} (v : Word) (strb : Strobe) {w : Window} {o : Nat}
    (ht : target a = .win w o) (hw : w ≠ .input ∧ w ≠ .pass) :
    hostWrite a v strb s = .next s := by
  obtain ⟨hin, hpass⟩ := hw
  cases w with
  | input => exact absurd rfl hin
  | pass => exact absurd rfl hpass
  | salt | iv | key | dec | out => exact hostWrite_ignored ht rfl rfl

/-! ### The registers -/

/-- Settles O11: the three constant registers by their rows of the map. -/
theorem constantRegistersReadTheirWords : Obligations.ConstantRegistersReadTheirWords := by
  unfold Obligations.ConstantRegistersReadTheirWords
  exact fun s v strb =>
    ⟨⟨readData_reg s .id, hostWrite_reg_ignored .id rfl rfl⟩,
      ⟨readData_reg s .cfg0, hostWrite_reg_ignored .cfg0 rfl rfl⟩,
      readData_reg s .cfg1, hostWrite_reg_ignored .cfg1 rfl rfl⟩

/-- A register whose one flag is bit 0. -/
theorem bitAt_zero (b : Bool) : bitAt b 0 = if b then 1 else 0 := by
  cases b <;> rfl

/-- Settles O12: the three build registers by their rows of the map. -/
theorem buildRegistersReadTheParameters : Obligations.BuildRegistersReadTheParameters := by
  unfold Obligations.BuildRegistersReadTheParameters
  exact fun s v strb =>
    ⟨⟨readData_reg s .cfg2, hostWrite_reg_ignored .cfg2 rfl rfl⟩,
      ⟨readData_reg s .cfg3, hostWrite_reg_ignored .cfg3 rfl rfl⟩,
      (readData_reg s .cfg4).trans (bitAt_zero _), hostWrite_reg_ignored .cfg4 rfl rfl⟩

/-- Settles O18: an aligned read answers OKAY and changes only the schedule and the reply. -/
theorem hostReadChangesNothing : Obligations.HostReadChangesNothing := by
  unfold Obligations.HostReadChangesNothing
  intro s a rest ha hs
  rw [step_read hs, busResp_of_mod ha]

/-- The STATUS word bit by bit, the reserved ones 0 (10_state R41). -/
theorem statusWord_bits (s : State) (k : Nat) (hk : k < 32) :
    (statusWord s).getLsbD k =
      if k = 0 then decide (s.phase = .busy)
      else if k = 1 then s.done else if k = 2 then s.err else if k = 3 then s.werr
      else if k = 4 then s.contValid else if k = 5 then s.keyValid
      else if k = 6 then s.outValid else false := by
  rw [statusWord_bit s k hk]
  match k with
  | 0 | 1 | 2 | 3 | 4 | 5 | 6 => rfl
  | k + 7 => simp

/-- Settles O23: each register by its row of the map, the two flag words bit by bit. -/
theorem registersReadTheirFieldsAndIrqTheFlags :
    Obligations.RegistersReadTheirFieldsAndIrqTheFlags := by
  unfold Obligations.RegistersReadTheirFieldsAndIrqTheFlags
  intro s
  have hctrl : readData s 0x018 = ctrlWord s := readData_reg s .ctrl
  have hstatus : readData s 0x020 = statusWord s := readData_reg s .status
  refine ⟨hctrl.trans (bitAt_zero _), readData_reg s .cmd, ?_, readData_reg s .errCode,
    readData_reg s .errInfo, readData_reg s .inLen, readData_reg s .passLen,
    readData_reg s .decLen, readData_reg s .ctLen, readData_reg s .outLen,
    readData_reg s .padVal, ?_⟩
  · intro k hk
    rw [hstatus, statusWord_bits s k hk]
  · rw [hctrl, hstatus, ctrlWord_bit0, statusWord_bits s 1 (by omega),
      statusWord_bits s 2 (by omega)]
    rfl

/-! ### Reset -/

/-- After reset every byte a window shows is 0. -/
theorem winByte_resetEvent (s : State) (w : Window) (o : Nat) :
    winByte (resetEvent s) w o = 0 := by
  cases w with
  | input =>
    simp only [winByte]
    split <;> rfl
  | key => exact if_neg (by simp [State.resetOf])
  | salt | iv | pass | dec | out => rfl

/-- After reset no bit of STATUS is set. -/
theorem statusWord_resetEvent (s : State) : statusWord (resetEvent s) = 0 := by
  simp [statusWord, busy, bitAt, State.resetOf]

/-- An offset of no register reads 0 where every window does. -/
theorem readData_eq_zero {s : State} {a : Offset} (hreg : ∀ r : Reg, a ≠ r.offset)
    (hwin : ∀ w o, winByte s w o = 0) : readData s a = 0 := by
  cases ht : target a with
  | reg r => exact absurd (target_eq_reg.mp ht) (hreg r)
  | win w o => exact readData_win_eq_zero ht fun k _ => hwin w (o + k)
  | reserved => exact readData_reserved ht

/-- What a host reads at every offset after reset (10_state R32, R70). -/
theorem readData_resetEvent (s : State) (a : Offset) :
    readData (resetEvent s) a =
      if a = 0x000 then 0x53560100
      else if a = 0x004 then 0x10201020
      else if a = 0x008 then 0x000186A0
      else if a = 0x00C then BitVec.ofNat 32 s.build.maxB64Len
      else if a = 0x010 then BitVec.ofNat 32 s.build.maxPassLen
      else if a = 0x014 then (if s.build.keyReadbackEn then 1 else 0)
      else 0 := by
  by_cases hreg : ∃ r : Reg, a = r.offset
  · obtain ⟨r, rfl⟩ := hreg
    rw [readData_reg]
    cases r with
    | cfg4 => exact bitAt_zero _
    | status => exact statusWord_resetEvent s
    | _ => rfl
  · have hne (r : Reg) : a ≠ r.offset := fun h => hreg ⟨r, h⟩
    rw [readData_eq_zero hne (winByte_resetEvent s), if_neg (show a ≠ 0x000 from hne .id),
      if_neg (show a ≠ 0x004 from hne .cfg0), if_neg (show a ≠ 0x008 from hne .cfg1),
      if_neg (show a ≠ 0x00C from hne .cfg2), if_neg (show a ≠ 0x010 from hne .cfg3),
      if_neg (show a ≠ 0x014 from hne .cfg4)]

/-- Settles O4: the reads by `readData_resetEvent`, the fields by the reset event itself. -/
theorem resetGivesEveryResetValue : Obligations.ResetGivesEveryResetValue := by
  unfold Obligations.ResetGivesEveryResetValue
  intro s rest hs
  have hstep : step s = .next (resetEvent { s with pending := rest }) := by
    simp only [step, hs, runEvent]
  have hkey (j : Nat) : (Vector.replicate 32 (0 : Byte)).toList.getD j 0 = 0 := by
    rw [Vector.toList_replicate, List.getD_eq_getElem?_getD,
      List.getElem?_getD_replicate_default_eq]
  exact ⟨_, hstep, rfl, rfl, readData_resetEvent _, ⟨rfl, rfl, rfl, rfl⟩,
    fun _ => ⟨rfl, rfl, rfl, rfl⟩, hkey, ⟨rfl, rfl, rfl, rfl, rfl, rfl, rfl⟩, rfl, rfl, rfl⟩

/-! ### The windows -/

theorem toNat_ofNat_offset {n : Nat} (h : n < 0x400000) : (BitVec.ofNat 22 n).toNat = n := by
  rw [BitVec.toNat_ofNat, Nat.mod_eq_of_lt h]

/-- Settles O19: the write reaches `writeLanes`, whose bytes are `writeLanes_read`. -/
theorem bufferWritesStoreStrobedBytes : Obligations.BufferWritesStoreStrobedBytes := by
  unfold Obligations.BufferWritesStoreStrobedBytes
  intro s o v strb hp hs ho
  refine ⟨fun hlt hwf => ⟨_, ?_, writeLanes_wf hwf _ _ _ _, writeLanes_read hwf _ o v strb⟩,
    fun hlt hwf => ⟨_, ?_, writeLanes_wf hwf _ _ _ _, writeLanes_read hwf _ o v strb⟩⟩
  · have ha : (BitVec.ofNat 22 (0x100000 + o)).toNat = 0x100000 + o :=
      toNat_ofNat_offset (by omega)
    rw [hostWrite_idle v hp (by omega) hs, target_input (by omega) (by omega), ha,
      Nat.add_sub_cancel_left]
    rfl
  · have ha : (BitVec.ofNat 22 (0x010000 + o)).toNat = 0x010000 + o :=
      toNat_ofNat_offset (by omega)
    rw [hostWrite_idle v hp (by omega) hs, target_pass (by omega) (by omega), ha,
      Nat.add_sub_cancel_left]
    rfl

/-- Settles O21: within capacity the window is DROPPABLE, past it the write stores nothing. -/
theorem busyWindowWriteSetsWerrExactlyWithinCapacity :
    Obligations.BusyWindowWriteSetsWerrExactlyWithinCapacity := by
  unfold Obligations.BusyWindowWriteSetsWerrExactlyWithinCapacity
  intro s a v strb hp hs ha
  refine ⟨fun h1 h2 => ?_, fun h1 h2 => ?_⟩
  · split
    · next hcap =>
      exact hostWrite_dropped v hp ha hs
        ((droppable_iff _ _).mpr (.inr (.inr (.inr (.inl ⟨h1, h2, hcap⟩)))))
    · exact hostWrite_past_input v strb (by omega) h2
  · split
    · next hcap =>
      exact hostWrite_dropped v hp ha hs
        ((droppable_iff _ _).mpr (.inr (.inr (.inr (.inr ⟨h1, h2, hcap⟩)))))
    · exact hostWrite_past_pass v strb (by omega) h2

/-- A reserved offset reads 0 and ignores writes. -/
theorem reserved_reads_zero_ignores_writes {s : State} {a : Offset} (v : Word) (strb : Strobe)
    (ht : target a = .reserved) : readData s a = 0 ∧ hostWrite a v strb s = .next s :=
  ⟨readData_reserved ht, hostWrite_ignored ht rfl rfl⟩

/-- The IN window past its capacity reads 0. -/
theorem readData_past_input {s : State} {a : Offset} (h1 : 0x100000 + s.build.maxB64Len ≤ a.toNat)
    (h2 : a.toNat < 0x200000) : readData s a = 0 := by
  refine readData_win_eq_zero (target_input (by omega) h2) fun k _ => ?_
  exact if_neg (by omega)

/-- The PASS window is write-only (10_state R62). -/
theorem readData_pass {s : State} {a : Offset} (h1 : 0x010000 ≤ a.toNat)
    (h2 : a.toNat < 0x020000) : readData s a = 0 :=
  readData_win_eq_zero (target_pass h1 h2) fun _ _ => rfl

/-- The DEC window past DEC_LEN reads 0. -/
theorem readData_past_dec {s : State} {a : Offset} (h1 : 0x200000 + s.decLen.toNat ≤ a.toNat)
    (h2 : a.toNat < 0x300000) : readData s a = 0 := by
  refine readData_win_eq_zero (target_dec (by omega) h2) fun k _ => if_neg ?_
  simp only [Bool.and_eq_true, decide_eq_true_eq]
  omega

/-- The OUT window past OUT_LEN reads 0. -/
theorem readData_past_out {s : State} {a : Offset} (h : 0x300000 + s.outLen.toNat ≤ a.toNat) :
    readData s a = 0 := by
  refine readData_win_eq_zero (target_out (by omega)) fun k _ => if_neg ?_
  simp only [Bool.and_eq_true, decide_eq_true_eq]
  omega

/-- The DEC and OUT windows are read-only whole. -/
theorem hostWrite_result_window {s : State} {a : Offset} (v : Word) (strb : Strobe)
    (h : 0x200000 ≤ a.toNat) : hostWrite a v strb s = .next s := by
  rcases Nat.lt_or_ge a.toNat 0x300000 with h3 | h3
  · exact hostWrite_view v strb (target_dec h h3) (by decide)
  · exact hostWrite_view v strb (target_out h3) (by decide)

/-- Settles O22: each range of the map by its target. -/
theorem reservedAndReadOnlyOffsetsIgnoreWrites :
    Obligations.ReservedAndReadOnlyOffsetsIgnoreWrites := by
  unfold Obligations.ReservedAndReadOnlyOffsetsIgnoreWrites
  intro s a v strb ha
  have hresp : busResp a = .okay := busResp_of_mod ha
  refine ⟨fun h => ?_, fun h => ?_, fun h => ⟨hresp, ?_⟩⟩
  · suffices hrw : readData s a = 0 ∧ hostWrite a v strb s = .next s from ⟨hrw.1, hresp, hrw.2⟩
    rcases h with h | h | h | ⟨h1, h2⟩ | ⟨h1, h2⟩
    · exact reserved_reads_zero_ignores_writes v strb (target_reserved (.inl h))
    · exact reserved_reads_zero_ignores_writes v strb (target_reserved (.inr (.inl h)))
    · exact reserved_reads_zero_ignores_writes v strb (target_reserved (.inr (.inr h)))
    · exact ⟨readData_past_input h1 h2, hostWrite_past_input v strb h1 h2⟩
    · exact ⟨readData_pass (by omega) h2, hostWrite_past_pass v strb h1 h2⟩
  · rcases h with ⟨h1, h2⟩ | h
    · exact readData_past_dec h1 h2
    · exact readData_past_out h
  · rcases h with rfl | rfl | rfl | rfl | rfl | rfl | ⟨h1, h2⟩ | h
    · exact hostWrite_reg_ignored .errCode rfl rfl
    · exact hostWrite_reg_ignored .errInfo rfl rfl
    · exact hostWrite_reg_ignored .decLen rfl rfl
    · exact hostWrite_reg_ignored .ctLen rfl rfl
    · exact hostWrite_reg_ignored .outLen rfl rfl
    · exact hostWrite_reg_ignored .padVal rfl rfl
    · obtain ⟨w, o, ht, hw⟩ := target_view h1 h2
      exact hostWrite_view v strb ht (by rcases hw with rfl | rfl | rfl <;> decide)
    · exact hostWrite_result_window v strb h

end Sys2Proof.Machine
end

section
/-! What no event can do (O24, O25, O26, O27): tell the secrets apart, raise or clear WERR but at its
named events, write KEY but by DERIVE and RUN (10_state R45, R59, R62, R65, 60_exceptions R380). -/

namespace Sys2Proof.Machine

/-! ### The step at each event -/

/-- A step that runs a host write. -/
theorem step_write {s : State} {a : Offset} {v : Word} {strb : Strobe} {rest : List Event}
    (hs : s.pending = .write a v strb :: rest) :
    step s = hostWrite a v strb
      { s with pending := rest, reply := some (.written (busResp a)) } := by
  simp only [step, hs, runEvent]

/-- A misaligned or unstrobed write changes nothing (20_memory R83, R88). -/
theorem hostWrite_ineffective {s : State} {a : Offset} {strb : Strobe} (v : Word)
    (h : a.toNat % 4 ≠ 0 ∨ strb = 0) : hostWrite a v strb s = .next s := by
  rcases h with h | rfl
  · rw [hostWrite, if_pos (by simp [aligned_eq, h])]
  · rw [hostWrite, if_pos rfl, ite_self]

/-- A write that is not dropped reaches a DROPPABLE target only while IDLE. -/
theorem idle_of_not_dropped {s : State} {tg : Target}
    (h : ¬ (busy s && droppable s.build tg) = true) (hd : droppable s.build tg = true) :
    s.phase = .idle :=
  phase_idle_of_not_busy fun hp => h (by simp [hp, hd])

/-! ### The KEY register -/

/-- A completion writes KEY only as the result of DERIVE or RUN, and reports it (R65). -/
theorem key_complete {i : Instr} {s : State} (hk : (complete i (resultOf i s) s).key ≠ s.key) :
    (complete i (resultOf i s) s).key = Vector.replicate 32 0 ∨
      ((i = .derive ∨ i = .run) ∧ (complete i (resultOf i s) s).done = true ∧
        (complete i (resultOf i s) s).keyValid = true) := by
  revert hk
  cases hr : resultOf i s with
  | error e =>
    intro hk
    cases i with
    | run => exact .inl rfl
    | decode | derive | decrypt | clear => exact absurd rfl hk
  | ok t =>
    intro hk
    cases i with
    | decode =>
      obtain ⟨_, -, rfl⟩ := decodeResult_ok hr
      exact absurd rfl hk
    | derive =>
      obtain ⟨-, -, rfl⟩ := deriveResult_ok hr
      exact .inr ⟨.inl rfl, rfl, rfl⟩
    | decrypt =>
      obtain ⟨_, -, rfl⟩ := decryptResult_ok hr
      exact absurd rfl hk
    | run =>
      obtain ⟨s1, s2, -, h2, h3⟩ := runResult_ok hr
      obtain ⟨-, -, rfl⟩ := deriveResult_ok h2
      obtain ⟨_, -, rfl⟩ := decryptResult_ok h3
      exact .inr ⟨.inr rfl, rfl, rfl⟩
    | clear =>
      cases hr
      exact absurd rfl hk

/-- A host write leaves KEY or zeroes it. -/
theorem WriteEffect.key {s t : State} (h : WriteEffect s t) :
    t.key = s.key ∨ t.key = Vector.replicate 32 0 := by
  cases h with
  | accept _ i =>
    rw [acceptEngine_key]
    split
    · exact .inr rfl
    · exact .inl rfl
  | clear => exact .inr rfl
  | none | drop | ctrl | w1c | inLen | passLen | input | pass | illegal => exact .inl rfl

/-- Settles O27: of the things a step can do, only a completion writes a KEY that is not zero. -/
theorem keyIsWrittenOnlyByDeriveAndRun : Obligations.KeyIsWrittenOnlyByDeriveAndRun := by
  unfold Obligations.KeyIsWrittenOnlyByDeriveAndRun
  intro s t hs hk
  cases step_effect hs with
  | idle | read => exact absurd rfl hk
  | complete p i hp hc =>
    refine (key_complete hk).imp id fun ⟨hi, hdone, hvalid⟩ =>
      ⟨hp, ?_, hdone, hvalid, complete_phase _ _ _⟩
    rw [hc]
    rcases hi with rfl | rfl
    · exact .inl rfl
    · exact .inr rfl
  | write p r _ hw => exact .inl (hw.key.resolve_left hk)
  | reset => exact .inl rfl

/-! ### WERR -/

/-- Of the targets a write reaches, STATUS can clear WERR, and CMD by an accepted CLEAR; no other
changes it (10_state R45). -/
theorem werr_writeTarget {tg : Target} {v : Word} {strb : Strobe} {s t : State}
    (hd : droppable s.build tg = true → s.phase = .idle) (h : writeTarget tg v strb s = .next t) :
    t.werr = s.werr ∨
      (tg = .reg .status ∧ t.werr = (s.werr && !(mask v strb).getLsbD 3)) ∨
      (tg = .reg .cmd ∧ mask v strb = encode .clear ∧ t.werr = false) := by
  cases tg with
  | reserved =>
    cases h
    exact .inl rfl
  | win w o => cases w <;> cases h <;> exact .inl rfl
  | reg r =>
    cases r with
    | status =>
      cases h
      exact .inr (.inl ⟨rfl, rfl⟩)
    | cmd =>
      rcases accept_cases (hd rfl) h with ⟨i, -, -, rfl⟩ | ⟨hw, rfl⟩ | ⟨-, rfl⟩
      · exact .inl (acceptEngine_werr i s)
      · exact .inr (.inr ⟨rfl, hw, rfl⟩)
      · exact .inl rfl
    | _ =>
      cases h
      exact .inl rfl

/-- The four things a host write can do to WERR: leave it, set it by being dropped, and clear it by a
STATUS write or an accepted CLEAR. -/
theorem werr_hostWrite {a : Offset} {v : Word} {strb : Strobe} {s t : State}
    (h : hostWrite a v strb s = .next t) :
    t.werr = s.werr ∨
      (s.phase = .busy ∧ a.toNat % 4 = 0 ∧ strb ≠ 0 ∧ droppable s.build (target a) = true ∧
        t.werr = true) ∨
      (a = 0x020 ∧ t.werr = (s.werr && !(mask v strb).getLsbD 3)) ∨
      (a = 0x01C ∧ s.phase = .idle ∧ mask v strb = encode .clear ∧ t.werr = false) := by
  by_cases hno : a.toNat % 4 ≠ 0 ∨ strb = 0
  · rw [hostWrite_ineffective v hno] at h
    cases h
    exact .inl rfl
  · obtain ⟨ha, hs⟩ : a.toNat % 4 = 0 ∧ strb ≠ 0 := by simpa using hno
    rw [hostWrite_strobed v ha hs] at h
    split at h
    · next hdrop =>
      cases h
      simp only [Bool.and_eq_true, busy, beq_iff_eq] at hdrop
      exact .inr (.inl ⟨hdrop.1, ha, hs, hdrop.2, rfl⟩)
    · next hdrop =>
      have hd := idle_of_not_dropped hdrop
      rcases werr_writeTarget hd h with hw | ⟨ht, hw⟩ | ⟨ht, hclear, hw⟩
      · exact .inl hw
      · exact .inr (.inr (.inl ⟨eq_of_target_status ht, hw⟩))
      · exact .inr (.inr (.inr ⟨eq_of_target_cmd ht, hd (by rw [ht]; rfl), hclear, hw⟩))

/-- The engine's turn leaves WERR. -/
theorem werr_engineTurn {s t : State} (h : engineTurn s = .next t) : t.werr = s.werr := by
  rcases engineTurn_cases h with ⟨-, rfl⟩ | ⟨i, -, -, -, rfl⟩
  · rfl
  · exact (sameInputs_complete i s).werr

/-- Only a reset and a host write can change WERR. -/
theorem werr_step {s t : State} (h : step s = .next t) :
    t.werr = s.werr ∨ (∃ rest, s.pending = .reset :: rest ∧ t.werr = false) ∨
      ∃ a v strb rest, s.pending = .write a v strb :: rest ∧
        hostWrite a v strb { s with pending := rest, reply := some (.written (busResp a)) } =
          .next t := by
  cases hs : s.pending with
  | nil =>
    simp only [step, hs] at h
    exact .inl (werr_engineTurn h)
  | cons e rest =>
    cases e with
    | write a v strb => exact .inr (.inr ⟨a, v, strb, rest, rfl, (step_write hs).symm.trans h⟩)
    | read a =>
      rw [step_read hs] at h
      cases h
      exact .inl rfl
    | engine =>
      simp only [step, hs] at h
      exact .inl (werr_engineTurn (s := { s with pending := rest }) h)
    | reset =>
      simp only [step, hs] at h
      cases h
      exact .inr (.inl ⟨rest, rfl, rfl⟩)

/-- Settles O25: of the four things a host write can do to WERR, only a drop sets it. -/
theorem onlyADroppedWriteRaisesWerr : Obligations.OnlyADroppedWriteRaisesWerr := by
  unfold Obligations.OnlyADroppedWriteRaisesWerr
  intro s t h hoff hon
  rcases werr_step h with hw | ⟨rest, -, hw⟩ | ⟨a, v, strb, rest, hs, hwrite⟩
  · simp [hw, hoff] at hon
  · simp [hw] at hon
  · rcases werr_hostWrite hwrite with hw | ⟨hp, ha, hstrb, hd, -⟩ | ⟨-, hw⟩ | ⟨-, -, -, hw⟩
    · simp [hw, hoff] at hon
    · exact ⟨hp, a, v, strb, rest, hs, ha, hstrb, (droppable_iff _ a).mp hd⟩
    · simp [hw, hoff] at hon
    · simp [hw] at hon

/-- Settles O26: of the four things a host write can do to WERR, only a STATUS write of bit 3 and an
accepted CLEAR clear it; and IRQ does not read it. -/
theorem werrIsStickyAndRaisesNoInterrupt : Obligations.WerrIsStickyAndRaisesNoInterrupt := by
  unfold Obligations.WerrIsStickyAndRaisesNoInterrupt
  refine ⟨fun s t h hon hoff => ?_, fun s b => rfl⟩
  rcases werr_step h with hw | ⟨rest, hs, -⟩ | ⟨a, v, strb, rest, hs, hwrite⟩
  · simp [hw, hon] at hoff
  · exact .inr (.inr ⟨rest, hs⟩)
  · rcases werr_hostWrite hwrite with hw | ⟨-, -, -, -, hw⟩ | ⟨rfl, hw⟩ | ⟨rfl, hp, hclear, -⟩
    · simp [hw, hon] at hoff
    · simp [hw] at hoff
    · have hbit : (mask v strb).getLsbD 3 = true := by simpa [hw, hon] using hoff
      rw [mask_getLsbD v strb 3 (by omega), Bool.and_eq_true] at hbit
      exact .inl ⟨v, strb, rest, hs, hbit⟩
    · exact .inr (.inl ⟨v, strb, rest, hs, hp, hclear⟩)

/-! ### The secrets -/

/-- A state with another KEY register and another PASS buffer. -/
def setSecrets (k : Vector Byte 32) (m : Memory) (s : State) : State :=
  { s with key := k, passBuf := m }

/-- With KEY readback built out no window shows a secret: the KEY window reads 0, and the PASS
window always does (10_state R59, R62). -/
theorem winByte_setSecrets {s : State} (hb : s.build.keyReadbackEn = false) (k : Vector Byte 32)
    (m : Memory) (w : Window) (o : Nat) :
    winByte (setSecrets k m s) w o = winByte s w o := by
  cases w with
  | key => simp [winByte, setSecrets, hb]
  | salt | iv | pass | input | dec | out => rfl

/-- Nor does any read return one. -/
theorem readData_setSecrets {s : State} (hb : s.build.keyReadbackEn = false)
    (k : Vector Byte 32) (m : Memory) (a : Offset) :
    readData (setSecrets k m s) a = readData s a := by
  unfold readData
  cases target a with
  | reg r => cases r <;> rfl
  | win w o => simp only [winWord, winByte_setSecrets hb]
  | reserved => rfl

/-- Acceptance reads no secret: it leaves KEY and PASS, or clears them. -/
theorem accept_setSecrets {w : Word} {s t : State} (hp : s.phase = .idle)
    (h : accept w s = .next t) (k : Vector Byte 32) (m : Memory) :
    ∃ k' m', accept w (setSecrets k m s) = .next (setSecrets k' m' t) := by
  have hp' : (setSecrets k m s).phase = .idle := hp
  rcases accept_cases hp h with ⟨i, rfl, hr, rfl⟩ | ⟨rfl, rfl⟩ | ⟨⟨e, he⟩, rfl⟩
  · rw [accept, decode_encode]
    refine ⟨(acceptEngine i (setSecrets k m s)).key, m, (exec_idle hr hp').trans ?_⟩
    cases i <;> rfl
  · rw [accept, decode_encode]
    exact ⟨_, _, exec_clear_idle hp'⟩
  · rw [accept, he]
    exact ⟨k, m, rfl⟩

/-- A write that is not dropped reads no secret. -/
theorem writeTarget_setSecrets {tg : Target} {v : Word} {strb : Strobe} {s t : State}
    (hd : droppable s.build tg = true → s.phase = .idle) (h : writeTarget tg v strb s = .next t)
    (k : Vector Byte 32) (m : Memory) :
    ∃ k' m', writeTarget tg v strb (setSecrets k m s) = .next (setSecrets k' m' t) := by
  cases tg with
  | reserved =>
    cases h
    exact ⟨k, m, rfl⟩
  | win w o => cases w <;> cases h <;> exact ⟨_, _, rfl⟩
  | reg r =>
    cases r with
    | cmd => exact accept_setSecrets (hd rfl) h k m
    | _ =>
      cases h
      exact ⟨k, m, rfl⟩

/-- No host write reads a secret. -/
theorem hostWrite_setSecrets {a : Offset} {v : Word} {strb : Strobe} {s t : State}
    (h : hostWrite a v strb s = .next t) (k : Vector Byte 32) (m : Memory) :
    ∃ k' m', hostWrite a v strb (setSecrets k m s) = .next (setSecrets k' m' t) := by
  by_cases hno : a.toNat % 4 ≠ 0 ∨ strb = 0
  · rw [hostWrite_ineffective v hno] at h
    cases h
    exact ⟨k, m, hostWrite_ineffective v hno⟩
  · obtain ⟨ha, hs⟩ : a.toNat % 4 = 0 ∧ strb ≠ 0 := by simpa using hno
    rw [hostWrite_strobed v ha hs] at h
    rw [hostWrite_strobed v ha hs]
    split at h
    · next hdrop =>
      cases h
      exact ⟨k, m, if_pos hdrop⟩
    · next hdrop =>
      obtain ⟨k', m', ht⟩ := writeTarget_setSecrets (idle_of_not_dropped hdrop) h k m
      exact ⟨k', m', (if_neg hdrop).trans ht⟩

/-- Settles O24: neither what a read returns nor what a write does depends on a secret. -/
theorem hostTransactionsRevealNoSecret : Obligations.HostTransactionsRevealNoSecret := by
  unfold Obligations.HostTransactionsRevealNoSecret
  intro s k m e rest t t' hb hs hhost h h'
  have hs' : (setSecrets k m s).pending = e :: rest := hs
  cases e with
  | read a =>
    have hread : step (setSecrets k m s) = .next t' := h'
    rw [step_read hs] at h
    rw [step_read hs', readData_setSecrets hb] at hread
    cases h
    cases hread
    exact ⟨rfl, k, m, rfl⟩
  | write a v strb =>
    have hwrite : step (setSecrets k m s) = .next t' := h'
    rw [step_write hs] at h
    obtain ⟨k', m', ht⟩ := hostWrite_setSecrets h k m
    rw [step_write hs'] at hwrite
    cases ht.symm.trans hwrite
    exact ⟨rfl, k', m', rfl⟩
  | engine | reset => cases hhost

end Sys2Proof.Machine
end

section
/-! The host bus as spec/20_memory.md states it: every transaction completes (O8), register writes
act on merged and masked words (O15, O16), windows show their bytes (O17), a BUSY engine drops
writes (O20), and misaligned or unstrobed transactions do nothing (O13, O14). -/

namespace Sys2Proof.Machine

/-! ### Transactions without effect -/

/-- A misaligned transaction answers SLVERR (20_memory R83). -/
theorem busResp_of_misaligned {a : Offset} (ha : a.toNat % 4 ≠ 0) : busResp a = .slverr := by
  rw [busResp, aligned_eq, decide_eq_false ha]
  rfl

/-- A misaligned read returns 0 (20_memory R83). -/
theorem readData_misaligned (s : State) {a : Offset} (ha : a.toNat % 4 ≠ 0) :
    readData s a = 0 := by
  rw [readData, aligned_eq, decide_eq_false ha]
  rfl

/-- Settles O13: read and write at a misaligned offset leave the schedule's tail and the reply. -/
theorem misalignedTransactionDoesNothing : Obligations.MisalignedTransactionDoesNothing := by
  unfold Obligations.MisalignedTransactionDoesNothing
  intro s a v strb rest ha
  refine ⟨fun hs => ?_, fun hs => ?_⟩
  · rw [step_read hs, readData_misaligned s ha, busResp_of_misaligned ha]
  · rw [step_write hs, hostWrite_ineffective v (.inl ha), busResp_of_misaligned ha]

/-- Settles O14: an unstrobed write is ineffective, whatever its target. -/
theorem unstrobedWriteDoesNothing : Obligations.UnstrobedWriteDoesNothing := by
  unfold Obligations.UnstrobedWriteDoesNothing
  intro s a v rest hs
  rw [step_write hs, hostWrite_ineffective v (.inr rfl)]

/-! ### No lock-up -/

/-- The engine's turn completes: IDLE it does nothing, and BUSY the invariant gives PEND_CMD a
command the engine runs (44_pipeline_control R331). -/
theorem Inv.engineTurn_next {s : State} (h : Inv s) : ∃ t, engineTurn s = .next t := by
  cases hp : s.phase with
  | idle => exact ⟨s, engineTurn_idle hp⟩
  | busy =>
    obtain ⟨i, hc, hr, -⟩ := h.busy_cmd hp
    exact ⟨_, engineTurn_busy hp hc hr⟩

/-- Every event of a good state completes; only the engine's turn needs the invariant. -/
theorem Inv.runEvent_next {s : State} (h : Inv s) (e : Event) : ∃ t, runEvent e s = .next t := by
  cases e with
  | read a => exact ⟨_, rfl⟩
  | write a v strb => exact hostWrite_next a v strb _
  | engine => exact h.engineTurn_next
  | reset => exact ⟨_, rfl⟩

/-- A good state has a next state. -/
theorem Inv.step_next {s : State} (h : Inv s) : ∃ t, Machine.step s = .next t := by
  unfold Machine.step
  cases s.pending with
  | nil => exact h.engineTurn_next
  | cons e rest => exact (h.set_pending_reply rest s.reply).runEvent_next e

/-- Settles O8: a good state has a next state (`Inv.step_next`), which is good again
(`Inv.step`). -/
theorem noStepOfAGoodStateStops : Obligations.NoStepOfAGoodStateStops := by
  unfold Obligations.NoStepOfAGoodStateStops
  intro s h
  obtain ⟨t, ht⟩ := h.step_next
  exact ⟨t, ht, h.step (step_effect ht)⟩

/-! ### Register writes -/

/-- An aligned, strobed write to a target that is not DROPPABLE reaches it, BUSY or not. -/
theorem hostWrite_not_droppable {s : State} {a : Offset} {strb : Strobe} (v : Word)
    (ha : a.toNat % 4 = 0) (hs : strb ≠ 0) (hd : droppable s.build (target a) = false) :
    hostWrite a v strb s = writeTarget (target a) v strb s := by
  rw [hostWrite_strobed v ha hs, hd, Bool.and_false, if_neg Bool.false_ne_true]

/-- A CTRL write sets IE where lane 0 is strobed, in every phase (10_state R39, 20_memory R86). -/
theorem hostWrite_ctrl (s : State) (v : Word) {strb : Strobe} (hs : strb ≠ 0) :
    hostWrite 0x018 v strb s =
      .next { s with ie := if strb.getLsbD 0 then v.getLsbD 0 else s.ie } := by
  have hreach : hostWrite 0x018 v strb s =
      .next { s with ie := (merge (ctrlWord s) v strb).getLsbD 0 } :=
    hostWrite_not_droppable v rfl hs rfl
  rw [hreach, merge_getLsbD _ _ _ _ (by omega), ctrlWord_bit0]

/-- Settles O15: Merge by its lanes (`lane_merge`), and the three registers written with it. -/
theorem registerWritesMergeStrobedLanes : Obligations.RegisterWritesMergeStrobedLanes := by
  unfold Obligations.RegisterWritesMergeStrobedLanes
  refine ⟨lane_merge, fun s v strb hp hs => ⟨?_, ?_⟩, fun s v strb hs => ?_⟩
  · exact hostWrite_idle v hp rfl hs
  · exact hostWrite_idle v hp rfl hs
  · exact ⟨_, hostWrite_ctrl s v hs, rfl, (readData_reg _ .ctrl).trans (bitAt_zero _)⟩

/-- The lanes of a masked value. -/
theorem lane_mask (v : Word) (strb : Strobe) (k : Nat) (hk : k < 4) :
    lane (mask v strb) k = if strb.getLsbD k then lane v k else 0 := by
  have hzero : lane 0 k = 0 := BitVec.extractLsb'_zero
  rw [mask, lane_merge _ _ _ _ hk, hzero]

/-- A STATUS write clears DONE, ERR and WERR by the masked bits, in every phase (10_state R41). -/
theorem hostWrite_status (s : State) (v : Word) {strb : Strobe} (hs : strb ≠ 0) :
    hostWrite 0x020 v strb s = .next (writeOneToClear (mask v strb) s) :=
  hostWrite_not_droppable v rfl hs rfl

/-- Settles O16: Mask by its lanes and its bits, and the two registers written with it. -/
theorem commandAndStatusWritesActOnMaskedWord :
    Obligations.CommandAndStatusWritesActOnMaskedWord := by
  unfold Obligations.CommandAndStatusWritesActOnMaskedWord
  refine ⟨lane_mask, fun s v strb hp hs => ?_, fun s v strb hs => ?_⟩
  · exact hostWrite_idle v hp rfl hs
  · rw [hostWrite_status s v hs, writeOneToClear, mask_getLsbD _ _ 1 (by omega),
      mask_getLsbD _ _ 2 (by omega), mask_getLsbD _ _ 3 (by omega)]

/-! ### The windows' extents -/

/-- The offset of a window's first byte (10_state R32). -/
def Window.base : Window → Nat
  | .salt => 0x060
  | .iv => 0x080
  | .key => 0x090
  | .pass => 0x010000
  | .input => 0x100000
  | .dec => 0x200000
  | .out => 0x300000

/-- The bytes of a window (10_state R32). -/
def Window.size : Window → Nat
  | .salt => 32
  | .iv => 16
  | .key => 32
  | .pass => 0x10000
  | .input | .dec | .out => 0x100000

/-- An offset lies in a window exactly where the window's base and size say. -/
theorem windowAt_eq_some {n o : Nat} {w : Window} :
    windowAt n = some (w, o) ↔ n = w.base + o ∧ o < w.size := by
  unfold windowAt
  constructor
  · intro h
    split_ifs at h <;> cases h <;> simp only [Window.base, Window.size] <;> omega
  · rintro ⟨hn, hlt⟩
    obtain rfl : o = n - w.base := by omega
    cases w <;> simp only [Window.base, Window.size] at hn hlt ⊢
    all_goals
      repeat rw [if_neg (by omega)]
      rw [if_pos (by omega)]

/-- The lanes a host reads of a window are the window's bytes (20_memory R81, R84). -/
theorem lane_readData_window (s : State) (w : Window) {o k : Nat} (ho : o % 4 = 0) (hk : k < 4)
    (hlt : o < w.size) :
    lane (readData s (BitVec.ofNat 22 (w.base + o))) k = winByte s w (o + k) := by
  have hbase : 0x040 < w.base + o ∧ w.base + o < 0x400000 ∧ (w.base + o) % 4 = 0 := by
    cases w <;> simp only [Window.base, Window.size] at hlt ⊢ <;> omega
  obtain ⟨hpast, hmap, hmod⟩ := hbase
  have ht : target (BitVec.ofNat 22 (w.base + o)) = .win w o :=
    target_base_add hpast hmap (windowAt_eq_some.mpr ⟨rfl, hlt⟩)
  have ha : aligned (BitVec.ofNat 22 (w.base + o)) = true :=
    aligned_of_mod (by rw [toNat_ofNat_offset hmap, hmod])
  rw [readData, if_pos ha, ht]
  exact lane_winWord s w o k hk

/-- Settles O17: the lane is the window's byte (`lane_readData_window`), and each window's byte is
its row of R85. -/
theorem hostReadsSeeEachWindowsBytes : Obligations.HostReadsSeeEachWindowsBytes := by
  unfold Obligations.HostReadsSeeEachWindowsBytes
  intro s o k ho hk
  refine ⟨fun h => ?salt, fun h => ?iv, fun h => ?key, fun h => ?pass, fun h => ?input,
    fun h => ?dec, fun h => ?out⟩
  case salt =>
    have hin : o + k < 32 := by omega
    exact (lane_readData_window s .salt ho hk h).trans (by simp [winByte, hin])
  case iv =>
    have hin : o + k < 16 := by omega
    exact (lane_readData_window s .iv ho hk h).trans (by simp [winByte, hin])
  case key => exact (lane_readData_window s .key ho hk h).trans (by simp [winByte])
  case pass => exact lane_readData_window s .pass ho hk h
  case input => exact lane_readData_window s .input ho hk h
  case dec => exact (lane_readData_window s .dec ho hk h).trans (by simp [winByte])
  case out => exact (lane_readData_window s .out ho hk h).trans (by simp [winByte])

/-! ### Writes while BUSY -/

/-- Outside the five written registers and the IN and PASS windows a write changes nothing, BUSY or
not (10_state R60, 20_memory R82). -/
theorem hostWrite_read_only {s : State} {a : Offset} (v : Word) (strb : Strobe)
    (hreg : a ≠ 0x01C ∧ a ≠ 0x02C ∧ a ≠ 0x030 ∧ a ≠ 0x018 ∧ a ≠ 0x020)
    (hin : ¬ (0x100000 ≤ a.toNat ∧ a.toNat < 0x200000))
    (hpass : ¬ (0x010000 ≤ a.toNat ∧ a.toNat < 0x020000)) :
    hostWrite a v strb s = .next s := by
  obtain ⟨hcmd, hinLen, hpassLen, hctrl, hstatus⟩ := hreg
  cases ht : target a with
  | reserved => exact hostWrite_ignored ht rfl rfl
  | win w o =>
    obtain ⟨ha, ho⟩ := windowAt_eq_some.mp (target_win ht)
    refine hostWrite_view v strb ht ⟨?_, ?_⟩ <;> rintro rfl <;>
      simp only [Window.base, Window.size] at ha ho <;> omega
  | reg r =>
    have ha := target_eq_reg.mp ht
    cases r with
    | cmd => exact absurd ha hcmd
    | inLen => exact absurd ha hinLen
    | passLen => exact absurd ha hpassLen
    | ctrl => exact absurd ha hctrl
    | status => exact absurd ha hstatus
    | _ => exact hostWrite_ignored ht rfl rfl

/-- Settles O20: the first clause's offsets are the DROPPABLE ones (`droppable_iff`), CTRL is
written in every phase, and the rest of the map is read-only. -/
theorem writesWhileBusyAreDropped : Obligations.WritesWhileBusyAreDropped := by
  unfold Obligations.WritesWhileBusyAreDropped
  intro s a v strb hp hs ha
  refine ⟨busResp_of_mod ha, fun hdrop => ?_, ?_, ?_⟩
  · exact hostWrite_dropped v hp ha hs ((droppable_iff s.build a).mpr hdrop)
  · rintro rfl
    exact hostWrite_ctrl s v hs
  · rintro ⟨hcmd, hinLen, hpassLen, hctrl, hstatus, hin, hpass⟩
    exact hostWrite_read_only v strb ⟨hcmd, hinLen, hpassLen, hctrl, hstatus⟩ hin hpass

end Sys2Proof.Machine
end

section
/-! Decode and encode agree on every 32-bit word (O1, O2, O3; 30_encoding R120 to R125): a word is its
three fields, each field is a part of the word's value, and so the value decides every check. -/

namespace Sys2Proof

/-! ### A word is its three fields (R120) -/

theorem wordOfFields_fieldsOfWord (w : Word) : wordOfFields (fieldsOfWord w) = w := by
  apply BitVec.eq_of_getLsbD_eq
  intro k hk
  interval_cases k <;> simp [wordOfFields, fieldsOfWord]

theorem fieldsOfWord_wordOfFields (f : CmdFields) : fieldsOfWord (wordOfFields f) = f := by
  obtain ⟨op, pad, rsv⟩ := f
  simp only [fieldsOfWord, wordOfFields, CmdFields.mk.injEq]
  refine ⟨?opcode, ?padPolicy, ?rsv⟩ <;>
    · apply BitVec.eq_of_getLsbD_eq
      intro k hk
      interval_cases k <;> simp

theorem fieldsOfWord_eq_iff (w : Word) (f : CmdFields) :
    fieldsOfWord w = f ↔ w = wordOfFields f := by
  constructor
  · rintro rfl
    exact (wordOfFields_fieldsOfWord w).symm
  · rintro rfl
    exact fieldsOfWord_wordOfFields f

/-! ### The fields by the word's value -/

theorem rsv_eq_zero_iff (w : Word) : (fieldsOfWord w).rsv = 0 ↔ w.toNat < 512 := by
  have hw := w.isLt
  have hval : (fieldsOfWord w).rsv.toNat = w.toNat / 512 := by
    rw [fieldsOfWord, BitVec.extractLsb'_toNat, Nat.shiftRight_eq_div_pow]
    exact Nat.mod_eq_of_lt (by omega)
  rw [← BitVec.toNat_inj, hval]
  exact Nat.div_eq_zero_iff_lt (by omega)

theorem padPolicy_eq_zero_iff (w : Word) :
    (fieldsOfWord w).padPolicy = 0 ↔ w.toNat / 256 % 2 = 0 := by
  have hval : (fieldsOfWord w).padPolicy.toNat = w.toNat / 256 % 2 := by
    simp [fieldsOfWord, BitVec.extractLsb'_toNat, Nat.shiftRight_eq_div_pow]
  rw [← BitVec.toNat_inj, hval]
  exact Iff.rfl

theorem opcode_toNat (w : Word) : (fieldsOfWord w).opcode.toNat = w.toNat % 256 := by
  simp [fieldsOfWord, BitVec.extractLsb'_toNat]

/-- The fields of a word are legal exactly where its value is 1 to 5. -/
theorem wellFormed_fieldsOfWord_iff (w : Word) :
    (fieldsOfWord w).wellFormed = true ↔ 1 ≤ w.toNat ∧ w.toNat ≤ 5 := by
  simp only [CmdFields.wellFormed, Bool.and_eq_true, beq_iff_eq, decide_eq_true_eq,
    rsv_eq_zero_iff, padPolicy_eq_zero_iff, opcode_toNat]
  omega

/-! ### OPCODE and the commands (R122) -/

theorem opcodeInstr_of_le {op : BitVec 8} (h1 : 1 ≤ op.toNat) (h5 : op.toNat ≤ 5) :
    ∃ i, opcodeInstr op = some i := by
  obtain ⟨n, hn⟩ : ∃ n, op.toNat = n := ⟨_, rfl⟩
  obtain rfl : op = BitVec.ofNat 8 n := by rw [← hn, BitVec.ofNat_toNat, BitVec.setWidth_eq]
  rw [hn] at h1 h5
  interval_cases n <;> exact ⟨_, rfl⟩

theorem Instr.opcode_range (i : Instr) : 1 ≤ i.opcode.toNat ∧ i.opcode.toNat ≤ 5 := by
  cases i <;> decide

theorem opcode_of_opcodeInstr {op : BitVec 8} {i : Instr} (h : opcodeInstr op = some i) :
    op = i.opcode := by
  unfold opcodeInstr at h
  split_ifs at h <;> cases h <;> assumption

theorem opcodeInstr_eq_none {op : BitVec 8} (h : op.toNat = 0 ∨ 6 ≤ op.toNat) :
    opcodeInstr op = none := by
  rw [Option.eq_none_iff_forall_ne_some]
  intro i hi
  have hrange := i.opcode_range
  rw [← opcode_of_opcodeInstr hi] at hrange
  omega

/-! ### The three checks in their order (R123) -/

theorem decode_of_opcode {w : Word} {i : Instr} (h : w.toNat < 256)
    (hi : opcodeInstr (fieldsOfWord w).opcode = some i) : decode w = .ok i := by
  have hrsv := (rsv_eq_zero_iff w).mpr (by omega)
  have hpad := (padPolicy_eq_zero_iff w).mpr (by omega)
  rw [decode, if_neg (not_not_intro hrsv), if_neg (not_not_intro hpad), hi]

theorem decode_of_no_opcode {w : Word} (h : w.toNat < 256)
    (hnone : opcodeInstr (fieldsOfWord w).opcode = none) : decode w = .error .unknownOpcode := by
  have hrsv := (rsv_eq_zero_iff w).mpr (by omega)
  have hpad := (padPolicy_eq_zero_iff w).mpr (by omega)
  rw [decode, if_neg (not_not_intro hrsv), if_neg (not_not_intro hpad), hnone]

/-- What decoding answers, by the word's value: the four ranges share no value. -/
theorem decode_cases (w : Word) :
    (512 ≤ w.toNat ∧ decode w = .error .reservedBits) ∨
    (256 ≤ w.toNat ∧ w.toNat < 512 ∧ decode w = .error .padPolicyReserved) ∨
    ((w.toNat = 0 ∨ (6 ≤ w.toNat ∧ w.toNat < 256)) ∧ decode w = .error .unknownOpcode) ∨
    (1 ≤ w.toNat ∧ w.toNat ≤ 5 ∧ ∃ i, decode w = .ok i) := by
  have hop := opcode_toNat w
  by_cases h512 : 512 ≤ w.toNat
  · have hrsv := (rsv_eq_zero_iff w).not.mpr (by omega)
    exact .inl ⟨h512, by rw [decode, if_pos hrsv]⟩
  by_cases h256 : 256 ≤ w.toNat
  · have hrsv := (rsv_eq_zero_iff w).mpr (by omega)
    have hpad := (padPolicy_eq_zero_iff w).not.mpr (by omega)
    exact .inr (.inl ⟨h256, by omega, by rw [decode, if_neg (not_not_intro hrsv), if_pos hpad]⟩)
  by_cases h5 : 1 ≤ w.toNat ∧ w.toNat ≤ 5
  · obtain ⟨i, hi⟩ := opcodeInstr_of_le (op := (fieldsOfWord w).opcode) (by omega) (by omega)
    exact .inr (.inr (.inr ⟨h5.1, h5.2, i, decode_of_opcode (by omega) hi⟩))
  · have hnone := opcodeInstr_eq_none (op := (fieldsOfWord w).opcode) (by omega)
    exact .inr (.inr (.inl ⟨by omega, decode_of_no_opcode (by omega) hnone⟩))

theorem decode_ok_iff_value (w : Word) : (∃ i, decode w = .ok i) ↔ 1 ≤ w.toNat ∧ w.toNat ≤ 5 := by
  rcases decode_cases w with ⟨h, hd⟩ | ⟨h, h', hd⟩ | ⟨h, hd⟩ | ⟨h, h', i, hd⟩ <;> simp [hd] <;> omega

theorem Instr.wellFormed_eq_true (i : Instr) : i.wellFormed = true := by
  cases i <;> rfl

theorem decode_eq_ok_iff (w : Word) (i : Instr) : decode w = .ok i ↔ w = encode i := by
  constructor
  · exact Machine.eq_encode_of_decode
  · rintro rfl
    exact Machine.decode_encode i

/-- Settles O2: the fields by `fieldsOfWord_eq_iff`, the commands' words by `decode_eq_ok_iff`, and
the words that decode are those of value 1 to 5, as are those of legal fields. -/
theorem decodeGivesExactlyTheEncodedCommand :
    Obligations.DecodeGivesExactlyTheEncodedCommand := by
  unfold Obligations.DecodeGivesExactlyTheEncodedCommand
  refine ⟨fieldsOfWord_eq_iff, fun w i => ⟨i.wellFormed_eq_true, decode_eq_ok_iff w i⟩, fun w => ?_⟩
  rw [decode_ok_iff_value, wellFormed_fieldsOfWord_iff]

/-- Settles O3: what decoding answers on each of the four ranges (`decode_cases`). -/
theorem decodeRejectsByTheFirstFailingField :
    Obligations.DecodeRejectsByTheFirstFailingField := by
  unfold Obligations.DecodeRejectsByTheFirstFailingField
  intro w
  rcases decode_cases w with ⟨h, hd⟩ | ⟨h, h', hd⟩ | ⟨h, hd⟩ | ⟨h, h', i, hd⟩
  all_goals
    refine ⟨?_, ?_, ?_, decode_ok_iff_value w⟩ <;> simp [hd] <;> omega

/-- Settles O1: the table's words are the encoder's. -/
theorem fiveCommandWordsDecode : Obligations.FiveCommandWordsDecode := by
  unfold Obligations.FiveCommandWordsDecode
  exact ⟨Machine.decode_encode .decode, Machine.decode_encode .derive,
    Machine.decode_encode .decrypt, Machine.decode_encode .run, Machine.decode_encode .clear⟩

end Sys2Proof
end

section
/-! Where each completion stores (O55; 30_encoding R121, 44_pipeline_control R336, R356, 60_exceptions
R362): a result is written from offset 0 of its own buffer, and an error writes no buffer, but for
RUN's, which clears them. -/

namespace Sys2Proof.Machine

/-! ### A completion is a result or an error -/

/-- BUSY, a command the engine completes answers with its result or with its error. -/
theorem exec_busy_cases {i : Instr} (hi : runsInEngine i = true) {s t : State}
    (hp : s.phase = .busy) (h : exec i s = .next t) :
    (∃ u, resultOf i s = .ok u ∧ t = doneComplete u) ∨
      ∃ e, resultOf i s = .error e ∧ t = errorComplete i e s := by
  rw [exec_busy hi hp] at h
  cases h
  cases hr : resultOf i s with
  | ok u => exact .inl ⟨u, rfl, rfl⟩
  | error e => exact .inr ⟨e, rfl, rfl⟩

theorem decodeResult_error {s : State} {e : Raise} (h : decodeResult s = .error e) :
    decodeCore s = .error e := by
  unfold decodeResult at h
  split at h
  · cases h
  · cases h
    assumption

theorem decryptResult_error {s : State} {e : Raise} (h : decryptResult s = .error e) :
    decryptCore s = .error e := by
  unfold decryptResult at h
  split at h
  · cases h
  · cases h
    assumption

/-! ### The bytes a result leaves alone -/

/-- A sequence written from offset 0 leaves the bytes past its end. -/
theorem Memory.read_writeN_past {m : Memory} (hw : m.wf = true) {d : List Byte} {a : Nat}
    (h : d.length ≤ a) : (m.writeN 0 d).read a = m.read a := by
  rw [Memory.read_writeN hw, if_neg (by omega)]

/-- A plaintext's length fits its register, being at most CT_LEN. -/
theorem outLen_writeOut_of_decryptCore {s : State} {tp : List Byte × Byte}
    (h : decryptCore s = .ok tp) (u : State) :
    (writeOut tp.1 tp.2 u).outLen.toNat = tp.1.length := by
  obtain ⟨-, -, -, -, -, hlen, -⟩ := decryptCore_ok h
  have hct := s.ctLen.isLt
  exact toNat_ofNat_of_lt (by omega)

/-- RUN's result is the container, the key and the plaintext written in turn. -/
theorem runResult_stores {s u : State} (h : runResult s = .ok u) :
    ∃ (d dk : List Byte) (tp : List Byte × Byte), decodeCore s = .ok d ∧
      u = writeOut tp.1 tp.2 (writeKey dk (writeCont d s)) ∧ u.outLen.toNat = tp.1.length := by
  obtain ⟨s1, s2, h1, h2, h3⟩ := runResult_ok h
  obtain ⟨d, hd, rfl⟩ := decodeResult_ok h1
  obtain ⟨-, -, rfl⟩ := deriveResult_ok h2
  obtain ⟨tp, htp, rfl⟩ := decryptResult_ok h3
  exact ⟨d, _, tp, hd, rfl, outLen_writeOut_of_decryptCore htp _⟩

/-! ### The four completions -/

/-- Settles O55: each command by its result or its error (`exec_busy_cases`), a result's buffer past
its end by `Memory.read_writeN_past`. -/
theorem completionsStoreOnlyTheirResult : Obligations.CompletionsStoreOnlyTheirResult := by
  unfold Obligations.CompletionsStoreOnlyTheirResult
  intro s t hp hdec hout
  refine ⟨fun h => ?decode, fun h => ?derive, fun h => ?decrypt, fun h hdone => ?run⟩
  case decode =>
    rcases exec_busy_cases rfl hp h with ⟨u, hr, rfl⟩ | ⟨e, hr, rfl⟩
    · obtain ⟨d, hd, rfl⟩ := decodeResult_ok hr
      refine ⟨fun d' hd' a ha => ?_, fun e he => ?_, fun _ => rfl, rfl, rfl, rfl, rfl, rfl⟩
      · obtain rfl : d = d' := Except.ok.inj (hd.symm.trans hd')
        exact Memory.read_writeN_past hdec ha
      · cases hd.symm.trans he
    · have he := decodeResult_error hr
      refine ⟨fun d hd => ?_, fun _ _ => ⟨rfl, rfl, rfl, rfl⟩, fun _ => rfl, rfl, rfl, rfl, rfl, rfl⟩
      cases he.symm.trans hd
  case derive =>
    rcases exec_busy_cases rfl hp h with ⟨u, hr, rfl⟩ | ⟨e, hr, rfl⟩
    · obtain ⟨-, -, rfl⟩ := deriveResult_ok hr
      refine ⟨fun _ => rfl, fun _ => rfl, rfl, rfl, rfl, rfl, rfl, rfl, fun herr hno => ?_⟩
      cases hno.symm.trans herr
    · exact ⟨fun _ => rfl, fun _ => rfl, rfl, rfl, rfl, rfl, rfl, rfl, fun _ _ => ⟨rfl, rfl⟩⟩
  case decrypt =>
    rcases exec_busy_cases rfl hp h with ⟨u, hr, rfl⟩ | ⟨e, hr, rfl⟩
    · obtain ⟨tp, htp, rfl⟩ := decryptResult_ok hr
      refine ⟨fun _ => rfl, fun tp' htp' a ha => ?_, fun e he => ?_, rfl, rfl, rfl, rfl, rfl⟩
      · obtain rfl : tp = tp' := Except.ok.inj (htp.symm.trans htp')
        exact Memory.read_writeN_past hout ha
      · cases htp.symm.trans he
    · have he := decryptResult_error hr
      refine ⟨fun _ => rfl, fun tp htp => ?_, fun _ _ => ⟨rfl, rfl, rfl, rfl⟩, rfl, rfl, rfl, rfl, rfl⟩
      cases he.symm.trans htp
  case run =>
    rcases exec_busy_cases rfl hp h with ⟨u, hr, rfl⟩ | ⟨e, hr, rfl⟩
    · obtain ⟨d, dk, tp, hd, rfl, hlen⟩ := runResult_stores hr
      refine ⟨fun _ => ⟨d, hd, fun a ha => Memory.read_writeN_past hdec ha, fun a ha => ?_⟩, nofun⟩
      exact Memory.read_writeN_past hout (hlen ▸ ha)
    · refine ⟨fun hyes => ?_, fun _ => ⟨fun _ => ⟨rfl, rfl⟩, rfl, rfl, rfl, rfl⟩⟩
      cases hdone.symm.trans hyes

end Sys2Proof.Machine
end

section
/-! Runs of `wait` and `poll` (O58; 30_encoding R128, 44_pipeline_control R332): a run whose host
transactions are reads of one offset never leaves IDLE and returns one word for each of them, so the
words decide how many reads the loop makes. -/

namespace Sys2Proof.Machine

/-! ### The step at an event that is no host write -/

/-- The engine's turn leaves the schedule. -/
theorem engineTurn_pending {s t : State} (h : engineTurn s = .next t) : t.pending = s.pending := by
  rcases engineTurn_cases h with ⟨-, rfl⟩ | ⟨i, -, -, -, rfl⟩
  · rfl
  · exact (sameInputs_complete i s).pending

/-- After the engine's turn the engine is IDLE (44_pipeline_control R331). -/
theorem engineTurn_phase {s t : State} (h : engineTurn s = .next t) : t.phase = .idle := by
  rcases engineTurn_cases h with ⟨hp, rfl⟩ | ⟨i, -, -, -, rfl⟩
  · exact hp
  · exact complete_phase _ _ _

/-- The host transactions of a schedule are reads of one offset. -/
def OnlyReads (a : Offset) (es : List Event) : Prop :=
  ∀ e ∈ es, isHostEvent e = true → e = .read a

theorem OnlyReads.tail {a : Offset} {es : List Event} {n : Nat} (h : OnlyReads a (es.take (n + 1))) :
    OnlyReads a (es.tail.take n) := by
  cases es with
  | nil => simpa using h
  | cons e es => exact (List.forall_mem_cons.mp h).2

/-- What the step of such a schedule does: it uses up its event, keeps an IDLE engine IDLE, and
either reads the offset or is no host transaction and returns no word. -/
theorem step_onlyReads {a : Offset} {n : Nat} {s u : State}
    (hr : OnlyReads a (s.pending.take (n + 1))) (h : step s = .next u) :
    u.pending = s.pending.tail ∧ (s.phase = .idle → u.phase = .idle) ∧
      ((s.pending = .read a :: s.pending.tail ∧
          wordsRead (n + 1) s = readData s a :: wordsRead n u) ∨
        ((s.pending.take (n + 1)).filter isHostEvent = (u.pending.take n).filter isHostEvent ∧
          wordsRead (n + 1) s = wordsRead n u)) := by
  have hstep := h
  unfold step at h
  cases hs : s.pending with
  | nil =>
    simp only [hs] at h
    have hu : u.pending = [] := (engineTurn_pending h).trans hs
    refine ⟨hu, fun _ => engineTurn_phase h, .inr ⟨by simp [hu], ?_⟩⟩
    exact wordsRead_other hstep (by simp [hs])
  | cons e rest =>
    simp only [hs] at h
    cases e with
    | read b =>
      rw [hs] at hr
      obtain rfl : b = a := by simpa using hr (.read b) (by simp) rfl
      cases h
      exact ⟨rfl, id, .inl ⟨rfl, wordsRead_read hstep hs⟩⟩
    | write b v strb =>
      rw [hs] at hr
      cases hr (.write b v strb) (by simp) rfl
    | engine =>
      have hu : u.pending = rest := engineTurn_pending h
      refine ⟨hu, fun _ => engineTurn_phase h, .inr ⟨by rw [hu]; rfl, ?_⟩⟩
      exact wordsRead_other hstep (by simp [hs])
    | reset =>
      cases h
      exact ⟨rfl, fun _ => rfl, .inr ⟨rfl, wordsRead_other hstep (by simp [hs])⟩⟩

/-! ### Runs of such steps -/

/-- Each read of the run returns one word. -/
theorem wordsRead_length {a : Offset} {n : Nat} {s t : State}
    (hr : OnlyReads a (s.pending.take n)) (h : steps n s = .next t) :
    (wordsRead n s).length = ((s.pending.take n).filter isHostEvent).length := by
  induction n generalizing s with
  | zero => rfl
  | succ n ih =>
    obtain ⟨u, hu, hn⟩ := steps_split h
    obtain ⟨hpend, -, hread | hother⟩ := step_onlyReads hr hu
    · obtain ⟨hs, hw⟩ := hread
      rw [hw, hs, List.length_cons, ih (hpend ▸ hr.tail) hn, hpend]
      rfl
    · obtain ⟨hf, hw⟩ := hother
      rw [hw, hf, ih (hpend ▸ hr.tail) hn]

/-- An IDLE engine is IDLE at the end of the run. -/
theorem steps_onlyReads_idle {a : Offset} {n : Nat} {s t : State}
    (hr : OnlyReads a (s.pending.take n)) (h : steps n s = .next t) (hp : s.phase = .idle) :
    t.phase = .idle := by
  induction n generalizing s with
  | zero =>
    cases h
    exact hp
  | succ n ih =>
    obtain ⟨u, hu, hn⟩ := steps_split h
    obtain ⟨hpend, hidle, -⟩ := step_onlyReads hr hu
    exact ih (hpend ▸ hr.tail) hn (hidle hp)

theorem readData_status (s : State) : readData s 0x020 = statusWord s := readData_reg s .status

/-- STATUS.BUSY is 0 exactly where the engine is IDLE (10_state R42). -/
theorem statusWord_bit0_eq_false {s : State} :
    (statusWord s).getLsbD 0 = false ↔ s.phase = .idle := by
  have hbit : (statusWord s).getLsbD 0 = busy s := statusWord_bit s 0 (by omega)
  rw [hbit]
  cases hp : s.phase <;> simp [busy, hp]

/-- A run that has read a STATUS word without BUSY ends IDLE. -/
theorem idle_of_read_status {n : Nat} {s t : State} (hr : OnlyReads 0x020 (s.pending.take n))
    (h : steps n s = .next t) {w : Word} (hw : w ∈ wordsRead n s) (hbit : w.getLsbD 0 = false) :
    t.phase = .idle := by
  induction n generalizing s with
  | zero => cases hw
  | succ n ih =>
    obtain ⟨u, hu, hn⟩ := steps_split h
    obtain ⟨hpend, -, hread | hother⟩ := step_onlyReads hr hu
    · rw [hread.2, List.mem_cons, readData_status] at hw
      rcases hw with rfl | hw
      · exact steps_onlyReads_idle hr h (statusWord_bit0_eq_false.mp hbit)
      · exact ih (hpend ▸ hr.tail) hn hw
    · rw [hother.2] at hw
      exact ih (hpend ▸ hr.tail) hn hw

/-! ### The loops -/

theorem and_one_eq_zero_iff (w : Word) : w &&& 1 = 0 ↔ w.getLsbD 0 = false := by
  have hone : w &&& 1 = (BitVec.ofBool (w.getLsbD 0)).setWidth 32 :=
    BitVec.and_one_eq_setWidth_ofBool_getLsbD
  rw [hone]
  cases w.getLsbD 0 <;> decide

theorem loopsAgain_wait_eq_poll : loopsAgain .wait = loopsAgain (.poll 0x020 1 0) := by
  funext w
  rw [Bool.eq_iff_iff]
  simp only [loopsAgain, bne_iff_ne, ne_eq, and_one_eq_zero_iff, Bool.not_eq_false]

/-- `wait` is `poll` of STATUS for BUSY = 0. -/
theorem runsPseudo_wait_eq_poll (s : State) (n : Nat) :
    runsPseudo .wait n s = runsPseudo (.poll 0x020 1 0) n s := by
  simp only [runsPseudo, expand, loopsAgain_wait_eq_poll]
  rfl

/-- A list of host events is the reads of a loop exactly where it has no other event and as many of
them as the loop makes. -/
theorem filter_eq_reads_iff {a : Offset} {es : List Event} {k : Nat} :
    es.filter isHostEvent = hostEvents (List.replicate k (.rd a)) ↔
      OnlyReads a es ∧ (es.filter isHostEvent).length = k := by
  simp only [hostEvents, List.map_replicate, hostEvent, List.eq_replicate_iff, List.mem_filter,
    OnlyReads, and_imp, and_comm]

/-- Steps are a whole run of `poll` exactly where their host transactions are reads of its offset
and the last word read, and none before it, is the one asked for. -/
theorem runsPseudo_poll_iff {s t : State} {a : Offset} {m x : Word} {n : Nat}
    (h : steps n s = .next t) :
    runsPseudo (.poll a m x) n s = true ↔
      OnlyReads a (s.pending.take n) ∧ ∃ (ws : List Word) (w : Word),
        wordsRead n s = ws ++ [w] ∧ (∀ u ∈ ws, u &&& m ≠ x) ∧ w &&& m = x := by
  have hwords : ∀ ws : List Word,
      loopReads (loopsAgain (.poll a m x)) ws = ws.length ↔ ∃ (l : List Word) (w : Word),
        ws = l ++ [w] ∧ (∀ u ∈ l, u &&& m ≠ x) ∧ w &&& m = x := fun ws => by
    simp only [loopReads_eq_length_iff, loopsAgain, bne_iff_ne, bne_eq_false_iff_eq]
  rw [runsPseudo, decide_eq_true_eq, expand, filter_eq_reads_iff, ← hwords]
  refine and_congr_right fun hr => ?_
  rw [wordsRead_length hr h, eq_comm]

/-- Any number of reads of STATUS while BUSY, the engine's step and one more read: the words read
are BUSY, and the last one is not. -/
theorem steps_reads_engine_read (k : Nat) {s : State} {rest : List Event} (hinv : Inv s)
    (hp : s.phase = .busy)
    (hs : s.pending = List.replicate k (.read 0x020) ++ .engine :: .read 0x020 :: rest) :
    ∃ t w, steps (k + 2) s = .next t ∧ t.phase = .idle ∧
      wordsRead (k + 2) s = List.replicate k (statusWord s) ++ [w] ∧ w.getLsbD 0 = false := by
  induction k generalizing s with
  | zero =>
    have hs : s.pending = .engine :: .read 0x020 :: rest := hs
    obtain ⟨u, hturn⟩ := (hinv.set_pending_reply (.read 0x020 :: rest) s.reply).engineTurn_next
    have hstep : step s = .next u := by
      simp only [step, hs, runEvent]
      exact hturn
    have hu : u.pending = .read 0x020 :: rest := engineTurn_pending hturn
    have hidle : u.phase = .idle := engineTurn_phase hturn
    refine ⟨_, statusWord u, (steps_succ 1 hstep).trans (steps_succ 0 (step_read hu)), hidle, ?_,
      statusWord_bit0_eq_false.mpr hidle⟩
    rw [wordsRead_other hstep (by simp [hs]), wordsRead_read (step_read hu) hu, readData_status]
    rfl
  | succ k ih =>
    have hs : s.pending = .read 0x020 :: (List.replicate k (.read 0x020) ++
        .engine :: .read 0x020 :: rest) := hs
    have hstep := step_read hs
    obtain ⟨t, w, hsteps, hidle, hwords, hbit⟩ := ih
      (s := { s with
        pending := List.replicate k (.read 0x020) ++ .engine :: .read 0x020 :: rest
        reply := some (.data (readData s 0x020) (busResp 0x020)) })
      (hinv.set_pending_reply _ _) hp rfl
    refine ⟨t, w, (steps_succ _ hstep).trans hsteps, hidle, ?_, hbit⟩
    rw [wordsRead_read hstep hs, hwords, readData_status]
    rfl

theorem onlyReads_reads_engine_read (k : Nat) (rest : List Event) :
    OnlyReads 0x020
      ((List.replicate k (Event.read 0x020) ++ .engine :: .read 0x020 :: rest).take (k + 2)) := by
  intro e he hhost
  have hmem : (k ≠ 0 ∧ e = .read 0x020) ∨ e = .engine ∨ e = .read 0x020 := by
    simpa [List.take_append] using he
  rcases hmem with ⟨-, rfl⟩ | rfl | rfl
  · rfl
  · cases hhost
  · rfl

/-- Settles O58: a whole run by `runsPseudo_poll_iff`, `wait` being `poll` of STATUS, and IDLE at its
end by `idle_of_read_status`. -/
theorem waitAndPollStopAtTheFirstWordAskedFor :
    Obligations.WaitAndPollStopAtTheFirstWordAskedFor := by
  unfold Obligations.WaitAndPollStopAtTheFirstWordAskedFor
  refine ⟨fun s k rest hinv hp hs => ?busy, fun s t n hrun h => ?wait,
    fun s t a m x n h => runsPseudo_poll_iff h, fun s a m x rest hs => ?single,
    runsPseudo_wait_eq_poll⟩
  case busy =>
    obtain ⟨t, w, h, hidle, hwords, hbit⟩ := steps_reads_engine_read k hinv hp hs
    refine ⟨?_, t, h, hidle⟩
    have hbusy : (statusWord s).getLsbD 0 ≠ false := fun hfalse => by
      cases hp.symm.trans (statusWord_bit0_eq_false.mp hfalse)
    rw [runsPseudo_wait_eq_poll, runsPseudo_poll_iff h]
    refine ⟨hs ▸ onlyReads_reads_engine_read k rest, _, w, hwords, fun u hu => ?_,
      (and_one_eq_zero_iff w).mpr hbit⟩
    rw [List.eq_of_mem_replicate hu]
    exact (and_one_eq_zero_iff _).not.mpr hbusy
  case wait =>
    rw [runsPseudo_wait_eq_poll, runsPseudo_poll_iff h] at hrun
    obtain ⟨hr, ws, w, hwords, -, hw⟩ := hrun
    exact idle_of_read_status hr h (hwords ▸ by simp) ((and_one_eq_zero_iff w).mp hw)
  case single =>
    have hstep := step_read hs
    have hwords : wordsRead 1 s = [readData s a] := wordsRead_read hstep hs
    have hreads : OnlyReads a (s.pending.take 1) := by simp [OnlyReads, hs]
    rw [runsPseudo_poll_iff (steps_succ 0 hstep), hwords, and_iff_right hreads]
    constructor
    · rintro ⟨ws, w, he, -, hw⟩
      obtain rfl : readData s a = w := by simpa using congrArg List.getLast? he
      exact hw
    · exact fun hw => ⟨[], _, rfl, nofun, hw⟩

end Sys2Proof.Machine
end

section
/-! `readout` binds the plaintext (O59; 30_encoding R128, 20_memory R84): the words read of the OUT
window, unpacked, are the bytes of OUT. -/

namespace Sys2Proof.Machine

/-! ### Unpacked words -/

theorem unpackWords_cons (w : Word) (ws : List Word) :
    unpackWords (w :: ws) = [lane w 0, lane w 1, lane w 2, lane w 3] ++ unpackWords ws := rfl

theorem unpackWords_length (ws : List Word) : (unpackWords ws).length = 4 * ws.length := by
  induction ws with
  | nil => rfl
  | cons w ws ih =>
    rw [unpackWords_cons, List.length_append, ih]
    simp only [List.length_cons, List.length_nil]
    omega

/-- Byte `i` of the unpacked words is lane `i % 4` of word `i / 4` (20_memory R84). -/
theorem unpackWords_getD (ws : List Word) (i : Nat) :
    (unpackWords ws).getD i 0 = lane (ws.getD (i / 4) 0) (i % 4) := by
  induction ws generalizing i with
  | nil => exact (BitVec.extractLsb'_zero).symm
  | cons w ws ih =>
    rw [unpackWords_cons]
    by_cases hi : i < 4
    · interval_cases i <;> rfl
    · obtain ⟨j, rfl⟩ : ∃ j, i = j + 4 := ⟨i - 4, by omega⟩
      rw [List.getD_append_right _ _ _ _ (by simp), Nat.add_div_right j (by omega),
        Nat.add_mod_right]
      exact ih j

theorem take_unpackWords {ws : List Word} {n : Nat} (h : n ≤ 4 * ws.length) :
    (unpackWords ws).take n = (List.range n).map fun i => lane (ws.getD (i / 4) 0) (i % 4) := by
  refine List.ext_getElem (by simp [unpackWords_length, h]) fun i hi _ => ?_
  rw [List.getElem_map, List.getElem_range, ← unpackWords_getD, List.getElem_take,
    List.getD_eq_getElem]

/-! ### The reads of a readout -/

/-- A valid plaintext fits the OUT window. -/
theorem Inv.outLen_lt {s : State} (h : Inv s) (ho : s.outValid = true) :
    s.outLen.toNat < 0x100000 := by
  obtain ⟨hout, -⟩ := h.out_on ho
  obtain ⟨-, hdec, hct⟩ := h.cont_on (h.key_cont (h.out_key ho))
  have hok := h.build_ok
  simp only [Build.ok, Bool.and_eq_true, decide_eq_true_eq] at hok
  obtain ⟨⟨-, -, hmax⟩, -⟩ := hok
  simp only [Build.maxDecLen] at hdec
  omega

/-- The offset of word `k` of the OUT window. -/
def outWordOffset (k : Nat) : Offset := BitVec.ofNat 22 (0x300000 + 4 * k)

theorem baseOut_add (k : Nat) : baseOut + BitVec.ofNat 22 (4 * k) = outWordOffset k := by
  rw [outWordOffset, BitVec.ofNat_add]
  rfl

/-- A lane of a word read of the OUT window is its byte of OUT. -/
theorem lane_readData_out {s : State} (ho : s.outValid = true) (hlt : s.outLen.toNat < 0x100000)
    {i : Nat} (hi : i < s.outLen.toNat) :
    lane (readData s (outWordOffset (i / 4))) (i % 4) = s.outBuf.read i := by
  have hbyte : 4 * (i / 4) + i % 4 = i := Nat.div_add_mod i 4
  have hlane := lane_readData_window s .out (o := 4 * (i / 4)) (k := i % 4) (by omega)
    (Nat.mod_lt _ (by omega)) (by simp only [Window.size]; omega)
  rw [hbyte] at hlane
  exact hlane.trans (by simp [winByte, ho, hi])

/-- The bytes that `readout` binds are OUT[0 : OUT_LEN]. -/
theorem readoutBytes_out {s : State} (ho : s.outValid = true) (hlt : s.outLen.toNat < 0x100000) :
    readoutBytes s.outLen.toNat
        ((List.range (readoutWords s.outLen.toNat)).map fun k => readData s (outWordOffset k)) =
      s.outBuf.readN 0 s.outLen.toNat := by
  have hfits : s.outLen.toNat ≤ 4 * readoutWords s.outLen.toNat := by
    simp only [readoutWords]
    omega
  rw [readoutBytes, take_unpackWords (by simpa using hfits), Memory.readN]
  refine List.map_congr_left fun i hi => ?_
  have hi := List.mem_range.mp hi
  have hword : i / 4 < readoutWords s.outLen.toNat := by omega
  rw [← lane_readData_out ho hlt (i := 0 + i) (by omega), Nat.zero_add]
  simp [List.getD, hword]

/-- A run of host reads is a run of a pseudo-instruction whose expansion it is. -/
theorem runsPseudo_of_reads {p : HostPseudo} {s : State} {l : List Offset} {rest : List Event}
    (hs : s.pending = l.map .read ++ rest)
    (hp : expand p (l.map (readData s)) = l.map .rd) : runsPseudo p l.length s = true := by
  obtain ⟨-, -, -, hwords⟩ := steps_reads l hs
  have htake : s.pending.take l.length = l.map .read := by
    rw [hs]
    exact List.take_left' (by simp)
  have hhost : (l.map Event.read).filter isHostEvent = l.map .read := by
    simp [List.filter_eq_self, isHostEvent]
  rw [runsPseudo, decide_eq_true_eq, hwords, hp, htake, hhost, hostEvents, List.map_map]
  rfl

/-- The offsets a readout of `n` bytes reads: OUT_LEN, then a word for every four bytes. -/
def readoutOffsets (n : Nat) : List Offset :=
  offOutLen :: (List.range (readoutWords n)).map outWordOffset

theorem readoutOffsets_length (n : Nat) : (readoutOffsets n).length = 1 + (n + 3) / 4 := by
  simp [readoutOffsets, readoutWords, Nat.add_comm]

theorem readData_outLen {s : State} (ho : s.outValid = true) : readData s offOutLen = s.outLen :=
  (readData_reg s .outLen).trans (if_pos ho)

/-- The words a readout reads: OUT_LEN, then the words of the OUT window. -/
theorem map_readData_readoutOffsets {s : State} (ho : s.outValid = true) (n : Nat) :
    (readoutOffsets n).map (readData s) =
      s.outLen :: (List.range (readoutWords n)).map fun k => readData s (outWordOffset k) := by
  rw [readoutOffsets, List.map_cons, readData_outLen ho, List.map_map]
  rfl

/-- Once OUT_LEN is read, the expansion of `readout` is the reads of these offsets. -/
theorem expand_readout (n : Word) (ws : List Word) :
    expand .readout (n :: ws) = (readoutOffsets n.toNat).map .rd := by
  simp [expand, readoutReads, readoutOffsets, baseOut_add]

/-- Settles O59: the transactions are host reads (`steps_reads`), and the words they return unpack to
the plaintext (`readoutBytes_out`). -/
theorem readoutBindsThePlaintext : Obligations.ReadoutBindsThePlaintext := by
  unfold Obligations.ReadoutBindsThePlaintext
  intro s n rest hinv ho hn hs
  have hs : s.pending = (readoutOffsets s.outLen.toNat).map .read ++ rest := by
    rw [hs, readoutOffsets, List.map_cons, List.map_map]
    rfl
  obtain rfl : n = (readoutOffsets s.outLen.toNat).length := hn.trans (readoutOffsets_length _).symm
  have hwords := map_readData_readoutOffsets ho s.outLen.toNat
  obtain ⟨t, hsteps, ht, hread⟩ := steps_reads _ hs
  refine ⟨runsPseudo_of_reads hs ?_, ?_, t, hsteps, ht⟩
  · rw [hwords, expand_readout]
  · rw [hread, hwords]
    exact readoutBytes_out ho (hinv.outLen_lt ho)

end Sys2Proof.Machine
end

section
/-! `loadin` places its text (O57; 30_encoding R128, R129, 20_memory R84): the words of the text, one
bus write each, store its bytes and the zeros that fill its last word. -/

namespace Sys2Proof.Machine

/-! ### Packed words -/

theorem packWords_length (text : List Byte) : (packWords text).length = (text.length + 3) / 4 := by
  induction text using packWords.induct with
  | case5 b0 b1 b2 b3 t ih =>
    simp only [packWords, List.length_cons, ih]
    omega
  | case1 | case2 | case3 | case4 => simp [packWords]

/-- Unpacking the words of a text gives its bytes, and 0 past its end (20_memory R84). -/
theorem unpackWords_packWords_getD (text : List Byte) (i : Nat) :
    (unpackWords (packWords text)).getD i 0 = text.getD i 0 := by
  induction text using packWords.induct generalizing i with
  | case1 => rfl
  | case5 b0 b1 b2 b3 t ih =>
    rw [packWords, unpackWords_cons, lane_wordOfLanes_0, lane_wordOfLanes_1, lane_wordOfLanes_2,
      lane_wordOfLanes_3]
    match i with
    | 0 | 1 | 2 | 3 => rfl
    | i + 4 => exact ih i
  | case2 | case3 | case4 => rcases i with _ | _ | _ | _ | i <;> simp [packWords, unpackWords]

/-! ### Storing words -/

/-- A buffer of `cap` bytes after bus writes of whole words at `o`, `o + 4` and so on. -/
def storeWords (cap : Nat) : Nat → List Word → Memory → Memory
  | _, [], m => m
  | o, w :: ws, m => storeWords cap (o + 4) ws (writeLanes m cap o w 0xF)

/-- A bus write of a whole word within capacity stores its four lanes. -/
theorem writeLanes_all_read {m : Memory} (hw : m.wf = true) {cap o : Nat} (hcap : o + 4 ≤ cap)
    (v : Word) (x : Nat) :
    (writeLanes m cap o v 0xF).read x = if o ≤ x ∧ x < o + 4 then lane v (x - o) else m.read x := by
  rw [writeLanes_read hw]
  by_cases hx : o ≤ x ∧ x < o + 4
  · have hstrb : (0xF : Strobe).getLsbD (x - o) = true := by
      have hlt : x - o < 4 := by omega
      interval_cases x - o <;> rfl
    rw [if_pos ⟨hx.1, hx.2, by omega, hstrb⟩, if_pos hx]
  · rw [if_neg (by tauto), if_neg hx]

/-- Words stored within capacity leave their unpacked bytes, and every other byte as it was. -/
theorem storeWords_read {cap o : Nat} {ws : List Word} {m : Memory} (hw : m.wf = true)
    (hcap : o + 4 * ws.length ≤ cap) (x : Nat) :
    (storeWords cap o ws m).read x =
      if o ≤ x ∧ x < o + 4 * ws.length then (unpackWords ws).getD (x - o) 0 else m.read x := by
  induction ws generalizing o m with
  | nil => rw [if_neg (by simp), storeWords]
  | cons w ws ih =>
    rw [List.length_cons] at hcap ⊢
    rw [storeWords, ih (writeLanes_wf hw _ _ _ _) (by omega), writeLanes_all_read hw (by omega),
      unpackWords_cons]
    by_cases hpast : o + 4 ≤ x
    · obtain ⟨d, rfl⟩ : ∃ d, x = o + 4 + d := ⟨x - (o + 4), by omega⟩
      have hd : o + 4 + d - o = d + 4 := by omega
      have hmem : ¬ (o ≤ o + 4 + d ∧ o + 4 + d < o + 4) := by omega
      rw [Nat.add_sub_cancel_left, hd, if_neg hmem]
      exact if_congr (by omega) rfl rfl
    · rw [if_neg (by omega)]
      by_cases hx : o ≤ x
      · obtain ⟨d, rfl⟩ : ∃ d, x = o + d := ⟨x - o, by omega⟩
        have hlt : d < 4 := by omega
        rw [if_pos (by omega), if_pos (by omega), Nat.add_sub_cancel_left]
        interval_cases d <;> rfl
      · rw [if_neg (by omega), if_neg (by omega)]

/-! ### The writes -/

theorem baseIn_add_toNat {k : Nat} (hk : k < 0x40000) :
    (baseIn + BitVec.ofNat 22 (4 * k)).toNat = 0x100000 + 4 * k := by
  have hadd : baseIn + BitVec.ofNat 22 (4 * k) = BitVec.ofNat 22 (0x100000 + 4 * k) := by
    rw [BitVec.ofNat_add]
    rfl
  rw [hadd, toNat_ofNat_offset (by omega)]

/-- While IDLE an aligned, strobed write reaches its target. -/
theorem step_write_idle {s : State} {a : Offset} {v : Word} {strb : Strobe} {rest : List Event}
    (hp : s.phase = .idle) (ha : a.toNat % 4 = 0) (hstrb : strb ≠ 0)
    (hs : s.pending = .write a v strb :: rest) :
    step s = writeTarget (target a) v strb
      { s with pending := rest, reply := some (.written (busResp a)) } :=
  (step_write hs).trans (hostWrite_idle v hp ha hstrb)

/-- While IDLE a write of a word of the IN window stores it. -/
theorem step_inWord {s : State} {k : Nat} {v : Word} {rest : List Event} (hp : s.phase = .idle)
    (hk : k < 0x40000) (hs : s.pending = .write (baseIn + BitVec.ofNat 22 (4 * k)) v 0xF :: rest) :
    ∃ r, step s = .next { s with
      inBuf := writeLanes s.inBuf s.build.maxB64Len (4 * k) v 0xF, pending := rest, reply := r } := by
  have hoff := baseIn_add_toNat hk
  rw [step_write_idle hp (by omega) (by decide) hs, target_input (by omega) (by omega), hoff,
    Nat.add_sub_cancel_left]
  exact ⟨_, rfl⟩

theorem merge_all (r v : Word) : merge r v 0xF = v := by
  simp [merge]

/-- While IDLE a write of a whole word to IN_LEN sets it. -/
theorem step_inLen {s : State} {v : Word} {rest : List Event} (hp : s.phase = .idle)
    (hs : s.pending = .write offInLen v 0xF :: rest) :
    ∃ r, step s = .next { s with inLen := v, pending := rest, reply := r } := by
  have htarget : target offInLen = .reg .inLen := rfl
  rw [step_write_idle hp rfl (by decide) hs, htarget, writeTarget, merge_all]
  exact ⟨_, rfl⟩

/-! ### The run -/

/-- The writes of words to the IN window, from word `k` on. -/
def inWrites (k : Nat) (ws : List Word) : List HostInstr :=
  (ws.zipIdx k).map fun wk => .wr (baseIn + BitVec.ofNat 22 (4 * wk.2)) wk.1

theorem inWrites_length (k : Nat) (ws : List Word) : (inWrites k ws).length = ws.length := by
  simp [inWrites]

theorem inWrites_cons (k : Nat) (w : Word) (ws : List Word) :
    hostEvents (inWrites k (w :: ws)) =
      .write (baseIn + BitVec.ofNat 22 (4 * k)) w 0xF :: hostEvents (inWrites (k + 1) ws) := rfl

theorem expand_loadin (text : List Byte) (ws : List Word) :
    expand (.loadin text) ws =
      inWrites 0 (packWords text) ++ [.wr offInLen (BitVec.ofNat 32 text.length)] := rfl

/-- While IDLE such writes are used up, one step each, and store their words. -/
theorem steps_inWrites {ws : List Word} {k : Nat} {s : State} {rest : List Event}
    (hp : s.phase = .idle) (hk : k + ws.length ≤ 0x40000)
    (hs : s.pending = hostEvents (inWrites k ws) ++ rest) (n : Nat) :
    ∃ r, steps (ws.length + n) s = steps n
      { s with
        inBuf := storeWords s.build.maxB64Len (4 * k) ws s.inBuf, pending := rest, reply := r } := by
  induction ws generalizing k s with
  | nil =>
    have hs : s.pending = rest := hs
    refine ⟨s.reply, ?_⟩
    rw [List.length_nil, Nat.zero_add, ← hs]
    rfl
  | cons w ws ih =>
    rw [List.length_cons] at hk ⊢
    rw [inWrites_cons, List.cons_append] at hs
    obtain ⟨r1, hstep⟩ := step_inWord hp (by omega) hs
    obtain ⟨r, hrun⟩ := ih (k := k + 1) (s := { s with
      inBuf := writeLanes s.inBuf s.build.maxB64Len (4 * k) w 0xF
      pending := hostEvents (inWrites (k + 1) ws) ++ rest, reply := r1 }) hp (by omega) rfl
    exact ⟨r, by rw [Nat.add_right_comm, steps_succ _ hstep]; exact hrun⟩

/-- While IDLE the transactions of `loadin` store the packed text, then its length. -/
theorem steps_loadin {s : State} {text : List Byte} {rest : List Event} (hp : s.phase = .idle)
    (hfit : (packWords text).length ≤ 0x40000)
    (hs : s.pending = hostEvents (expand (.loadin text) []) ++ rest) :
    ∃ r, steps (expand (.loadin text) []).length s = .next { s with
      inBuf := storeWords s.build.maxB64Len 0 (packWords text) s.inBuf
      inLen := BitVec.ofNat 32 text.length, pending := rest, reply := r } := by
  rw [expand_loadin, hostEvents, List.map_append, List.append_assoc] at hs
  rw [expand_loadin, List.length_append, inWrites_length]
  obtain ⟨r1, hwrites⟩ := steps_inWrites hp (by omega) hs 1
  obtain ⟨r, hlast⟩ := step_inLen (s := { s with
    inBuf := storeWords s.build.maxB64Len 0 (packWords text) s.inBuf
    pending := .write offInLen (BitVec.ofNat 32 text.length) 0xF :: rest, reply := r1 }) hp rfl
  exact ⟨r, hwrites.trans (steps_succ 0 hlast)⟩

/-- What loading a text leaves in the IN buffer: its bytes, zeros to the end of its last word, and
every other byte as it was. -/
theorem storeWords_packWords_read {m : Memory} (hw : m.wf = true) {cap : Nat} {text : List Byte}
    (hcap : 4 * ((text.length + 3) / 4) ≤ cap) (x : Nat) :
    (storeWords cap 0 (packWords text) m).read x =
      if x < 4 * ((text.length + 3) / 4) then text.getD x 0 else m.read x := by
  rw [storeWords_read hw (by rw [packWords_length]; omega), unpackWords_packWords_getD,
    packWords_length]
  simp

/-- The last word of a text that fits IN is within its capacity, a multiple of 4 (00_scope R9). -/
theorem words_fit_in {b : Build} (hb : b.ok = true) {n : Nat} (hn : n ≤ b.maxB64Len) :
    4 * ((n + 3) / 4) ≤ b.maxB64Len ∧ b.maxB64Len ≤ 0x100000 := by
  simp only [Build.ok, Bool.and_eq_true, decide_eq_true_eq, beq_iff_eq] at hb
  obtain ⟨⟨hmod, -, hmax⟩, -⟩ := hb
  omega

/-- A buffer whose first bytes are a text's reads as the text. -/
theorem Memory.readN_eq_of_getD {m : Memory} {text : List Byte}
    (h : ∀ i, i < text.length → m.read i = text.getD i 0) : m.readN 0 text.length = text := by
  refine List.ext_getElem (m.readN_length _ _) fun i hi hi' => ?_
  rw [← List.getD_eq_getElem _ 0#8 hi, Memory.readN_getD _ _ _ _ hi', Nat.zero_add, h i hi',
    List.getD_eq_getElem]

/-- Settles O57: the writes store the packed text (`steps_loadin`), which reads back as the text and
its fill (`storeWords_packWords_read`). -/
theorem loadinPlacesTheText : Obligations.LoadinPlacesTheText := by
  unfold Obligations.LoadinPlacesTheText
  intro s text rest hinv hp hfit hs
  obtain ⟨hcap, hmax⟩ := words_fit_in hinv.build_ok hfit
  have hread := storeWords_packWords_read hinv.in_wf (text := text) hcap
  have hlen : (BitVec.ofNat 32 text.length).toNat = text.length := toNat_ofNat_of_lt (by omega)
  obtain ⟨r, hrun⟩ := steps_loadin hp (by rw [packWords_length]; omega) hs
  refine ⟨_, hrun, rfl, ?text, fun o ho => ?fill, rfl⟩
  case text =>
    rw [opText, hlen]
    exact Memory.readN_eq_of_getD fun i hi => by rw [hread, if_pos (by omega)]
  case fill =>
    refine (hread o).trans ?_
    rw [List.getD_eq_default _ _ ho]

end Sys2Proof.Machine
end

section
/-! Base64 texts against R150 to R169 of 41_container_decoder.md: the alphabet, the first bad character,
a text as a body and its final `=`, what the bytes of a group read, and the encoder's texts. -/

namespace Sys2Proof.Machine

/-! ### The alphabet (R150 to R152, R164) -/

/-- The encoder's characters are the whole alphabet: each value has its one character. -/
theorem base64Val_eq_some_iff {c : Byte} {v : BitVec 6} :
    base64Val c = some v ↔ c = base64Char v := by
  have inverse : ∀ c : Byte, ∀ v ∈ base64Val c, c = base64Char v := by decide +kernel
  exact ⟨inverse c v, fun h => h ▸ base64Val_base64Char v⟩

/-- The alphabet as R150's table lists it. -/
def base64Table : List Nat :=
  List.range' 0x41 26 ++ List.range' 0x61 26 ++ List.range' 0x30 10 ++ [0x2B, 0x2F]

theorem base64Table_getElem? (v : BitVec 6) :
    base64Table[v.toNat]? = some (base64Char v).toNat := by
  revert v
  decide +kernel

/-- A character's value is its place in the table. -/
theorem base64Val_eq_some_iff_getElem? {c : Byte} {v : BitVec 6} :
    base64Val c = some v ↔ base64Table[v.toNat]? = some c.toNat := by
  rw [base64Table_getElem?, base64Val_eq_some_iff, Option.some_inj, BitVec.toNat_inj, eq_comm]

theorem base64Val_isSome_iff (c : Byte) :
    (base64Val c).isSome = true ↔
      (0x41 ≤ c.toNat ∧ c.toNat ≤ 0x5A) ∨ (0x61 ≤ c.toNat ∧ c.toNat ≤ 0x7A) ∨
        (0x30 ≤ c.toNat ∧ c.toNat ≤ 0x39) ∨ c = 0x2B ∨ c = 0x2F := by
  have plus : c = 0x2B ↔ c.toNat = 0x2B := BitVec.toNat_inj.symm
  have slash : c = 0x2F ↔ c.toNat = 0x2F := BitVec.toNat_inj.symm
  rw [plus, slash, base64Val]
  split_ifs <;> simp <;> omega

theorem legalChar_iff (c : Byte) :
    legalChar c = true ↔ (base64Val c).isSome = true ∨ c = padChar := by
  simp [legalChar]

theorem ne_padChar_of_isSome {c : Byte} (h : (base64Val c).isSome = true) : c ≠ padChar := by
  rintro rfl
  cases h

/-! ### The first bad character and the first pad (R164, R165) -/

theorem firstBadChar_eq_none_iff {t : List Byte} :
    firstBadChar t = none ↔ ∀ c ∈ t, legalChar c = true := by
  simp [firstBadChar]

theorem firstBadChar_eq_some {t : List Byte} {i : Nat} (hi : i < t.length)
    (hbad : legalChar (t.getD i 0) = false)
    (hfirst : ∀ j, j < i → legalChar (t.getD j 0) = true) : firstBadChar t = some i := by
  refine List.findIdx?_eq_some_iff_getElem.mpr ⟨hi, ?_, fun j hj => ?_⟩
  · simpa [hi] using hbad
  · simpa [hj.trans hi] using hfirst j hj

theorem padStart_eq {t : List Byte} {k : Nat} (hk : k < t.length) (hpad : t.getD k 0 = padChar)
    (hfirst : ∀ j, j < k → t.getD j 0 ≠ padChar) : padStart t = k := by
  refine (List.findIdx_eq hk).mpr ⟨?_, fun j hj => ?_⟩
  · simpa [hk] using hpad
  · simpa [hj.trans hk] using hfirst j hj

theorem padStart_append_replicate {body : List Byte} (hb : ∀ c ∈ body, c ≠ padChar) (q : Nat) :
    padStart (body ++ List.replicate q padChar) = body.length := by
  have hnone : body.findIdx (fun c => c == padChar) = body.length :=
    List.findIdx_eq_length.mpr fun c hc => by simpa using hb c hc
  cases q with
  | zero => simpa [padStart] using hnone
  | succ q => simp [padStart, List.findIdx_append, hnone, List.replicate_succ, List.findIdx_cons]

theorem padStart_le {t : List Byte} {i : Nat} (hi : i < t.length) (hpad : t[i] = padChar) :
    padStart t ≤ i := by
  by_contra hlt
  have := List.not_of_lt_findIdx (Nat.lt_of_not_le hlt)
  simp [hpad] at this

theorem badPadding_eq_false_iff {t : List Byte} :
    badPadding t (padStart t) = false ↔
      t.length ≤ padStart t + 2 ∧ ∀ c ∈ t.drop (padStart t), c = padChar := by
  have hle : padStart t ≤ t.length := List.findIdx_le_length
  rcases hle.lt_or_eq with hlt | heq
  · simp [badPadding, hlt]
  · simp [badPadding, heq]

/-- What BadPadding refuses: an `=` before the last two characters, or another character after it. -/
theorem badPadding_eq_true {t : List Byte} {k : Nat} (hk : k < t.length)
    (h : k + 2 < t.length ∨ ∃ j, k < j ∧ j < t.length ∧ t.getD j 0 ≠ padChar) :
    badPadding t k = true := by
  simp only [badPadding, hk, decide_true, Bool.true_and, Bool.or_eq_true, decide_eq_true_eq]
  refine h.imp_right fun ⟨j, hkj, hj, hne⟩ => ?_
  rw [List.any_eq_true]
  refine ⟨t[j], ?_, by simpa [hj] using hne⟩
  exact List.mem_drop_iff_getElem.mpr ⟨j - k, by omega, by congr 1; omega⟩

/-- A text with no bad padding is a body and its final pads. -/
theorem eq_append_replicate_of_badPadding {t : List Byte} (h : badPadding t (padStart t) = false) :
    ∃ (body : List Byte) (q : Nat), t = body ++ List.replicate q padChar ∧ q ≤ 2 ∧
      ∀ c ∈ body, c ≠ padChar := by
  obtain ⟨hlen, hpads⟩ := badPadding_eq_false_iff.mp h
  refine ⟨t.take (padStart t), t.length - padStart t, ?_, by omega, fun c hc => ?_⟩
  · rw [← List.length_drop, ← List.eq_replicate_length.mpr hpads, List.take_append_drop]
  · obtain ⟨j, hj, rfl⟩ := List.mem_take_iff_getElem.mp hc
    simpa using List.not_of_lt_findIdx (p := fun c => c == padChar) (lt_min_iff.mp hj).1

/-- A body and its final pads have no bad padding. -/
theorem badPadding_append_replicate (body : List Byte) {q : Nat} (hq : q ≤ 2) :
    badPadding (body ++ List.replicate q padChar) body.length = false := by
  simp [badPadding, hq]

/-! ### The bytes of a group (R165, R166) -/

/-- The first byte of a group leaves the low 4 bits of its second value unread. -/
theorem groupBits_byte0 (v0 v1 v2 v3 : BitVec 6) :
    (groupBits v0 v1 v2 v3).extractLsb' 16 8 =
      (v0.setWidth 8 <<< 2) ||| (v1 >>> 4).setWidth 8 := by
  apply BitVec.eq_of_getLsbD_eq
  intro i hi
  interval_cases i <;> simp [groupBits]

/-- The second byte of a group leaves the low 2 bits of its third value unread. -/
theorem groupBits_byte1 (v0 v1 v2 v3 : BitVec 6) :
    (groupBits v0 v1 v2 v3).extractLsb' 8 8 =
      (v1.setWidth 8 <<< 4) ||| (v2 >>> 2).setWidth 8 := by
  apply BitVec.eq_of_getLsbD_eq
  intro i hi
  interval_cases i <;> simp [groupBits]

/-- Cutting after whole groups and `m` bytes keeps those groups and cuts the rest to `m`. -/
theorem take_base64Groups_append {f x : List Byte} (hf : f.length % 4 = 0) (m : Nat) :
    (base64Groups (f ++ x)).take (3 * (f.length / 4) + m) =
      base64Groups f ++ (base64Groups x).take m := by
  rw [base64Groups_append hf, ← base64Groups_length, List.take_length_add_append]

/-! ### The encoder's texts -/

@[simp] theorem base64Quad_length (a b c : Byte) : (base64Quad a b c).length = 4 := rfl

theorem base64Quad_isSome {a b c x : Byte} (hx : x ∈ base64Quad a b c) :
    (base64Val x).isSome = true := by
  simp only [base64Quad, List.mem_cons, List.not_mem_nil, or_false] at hx
  rcases hx with rfl | rfl | rfl | rfl <;> rw [base64Val_base64Char] <;> rfl

/-- An encoded text is characters of the alphabet and then an `=` for each byte its length is short of
whole threes. -/
theorem base64Encode_shape (d : List Byte) :
    ∃ (body : List Byte) (q : Nat), base64Encode d = body ++ List.replicate q padChar ∧ q ≤ 2 ∧
      (∀ c ∈ body, (base64Val c).isSome = true) ∧ d.length + q = 3 * ((d.length + 2) / 3) := by
  induction d using base64Encode.induct with
  | case1 => exact ⟨[], 0, rfl, by omega, by simp, rfl⟩
  | case2 a =>
    refine ⟨(base64Quad a 0 0).take 2, 2, rfl, by omega, fun c hc => ?_, by simp⟩
    exact base64Quad_isSome (List.mem_of_mem_take hc)
  | case3 a b =>
    refine ⟨(base64Quad a b 0).take 3, 1, rfl, by omega, fun c hc => ?_, by simp⟩
    exact base64Quad_isSome (List.mem_of_mem_take hc)
  | case4 a b c t ih =>
    obtain ⟨body, q, ht, hq, hb, hlen⟩ := ih
    refine ⟨base64Quad a b c ++ body, q, by rw [base64Encode, ht, List.append_assoc], hq, ?_, ?_⟩
    · exact List.forall_mem_append.mpr ⟨fun _ => base64Quad_isSome, hb⟩
    · simp only [List.length_cons]
      omega

/-- The groups of an encoded byte sequence begin with it. -/
theorem take_base64Groups_base64Encode (d : List Byte) :
    (base64Groups (base64Encode d)).take d.length = d := by
  induction d using base64Encode.induct with
  | case1 => rfl
  | case2 a =>
    have h : (base64Groups (base64Quad a 0 0)).take 1 = [a] := by rw [base64Groups_quad]; rfl
    simpa [base64Quad, base64Encode, base64Groups, groupBits_byte0] using h
  | case3 a b =>
    have h : (base64Groups (base64Quad a b 0)).take 2 = [a, b] := by rw [base64Groups_quad]; rfl
    simpa [base64Quad, base64Encode, base64Groups, groupBits_byte0, groupBits_byte1] using h
  | case4 a b c t ih =>
    rw [base64Encode, base64Groups_append (by simp), base64Groups_quad]
    simpa using ih

end Sys2Proof.Machine
end

section
/-! What DECODE accepts and reports (O33, O34, O35; 41_container_decoder R160 to R169): the checks of a
text in their order, what its outcome rests on, and the completion. -/

namespace Sys2Proof.Machine

/-! ### DECODE's checks in their order (R169) -/

theorem decodeText_badLength {t : List Byte} (h4 : t.length % 4 ≠ 0) :
    decodeText t = .error (malformed 1 t.length) := by
  simp [decodeText, h4]

theorem decodeText_badCharacter {t : List Byte} {i : Nat} (h4 : t.length % 4 = 0)
    (h : firstBadChar t = some i) : decodeText t = .error (malformed 2 i) := by
  simp [decodeText, h4, h]

theorem decodeText_badPadding {t : List Byte} (h4 : t.length % 4 = 0)
    (hc : firstBadChar t = none) (h : badPadding t (padStart t) = true) :
    decodeText t = .error (malformed 3 (padStart t)) := by
  simp [decodeText, h4, hc, h]

/-- Of whole groups, legal characters and legal padding the least length decides: TooShort, or the
groups' bytes with one dropped for each `=` (R165, R167). -/
theorem decodeText_padded {t body : List Byte} {q : Nat} (ht : t = body ++ List.replicate q padChar)
    (hq : q ≤ 2) (hb : ∀ c ∈ body, (base64Val c).isSome = true) (h4 : t.length % 4 = 0) :
    decodeText t =
      if 3 * (t.length / 4) - q < 48 then .error (malformed 4 (3 * (t.length / 4) - q))
      else .ok ((base64Groups t).take (3 * (t.length / 4) - q)) := by
  have hk : padStart t = body.length :=
    ht ▸ padStart_append_replicate (fun c hc => ne_padChar_of_isSome (hb c hc)) q
  have hlegal : firstBadChar t = none := by
    refine firstBadChar_eq_none_iff.mpr fun c hc => (legalChar_iff c).mpr ?_
    rw [ht, List.mem_append] at hc
    exact hc.imp (hb c) List.eq_of_mem_replicate
  have hpadding : badPadding t (padStart t) = false :=
    hk ▸ ht ▸ badPadding_append_replicate body hq
  have hlen : t.length = body.length + q := by simp [ht]
  have hbytes : 3 * t.length / 4 - (t.length - padStart t) = 3 * (t.length / 4) - q := by omega
  simp [decodeText, h4, hlegal, hpadding, hbytes, Config.hdrLen]

/-- An accepted text passes every check but the least length. -/
theorem decodeText_ok_checks {t d : List Byte} (h : decodeText t = .ok d) :
    t.length % 4 = 0 ∧ firstBadChar t = none ∧ badPadding t (padStart t) = false := by
  by_cases h4 : t.length % 4 = 0
  · cases hc : firstBadChar t with
    | some i => cases (decodeText_badCharacter h4 hc).symm.trans h
    | none =>
      cases hp : badPadding t (padStart t) with
      | true => cases (decodeText_badPadding h4 hc hp).symm.trans h
      | false => exact ⟨h4, rfl, rfl⟩
  · cases (decodeText_badLength h4).symm.trans h

/-- In a legal text the characters before the final pads have values. -/
theorem isSome_of_legal {body t : List Byte} {q : Nat}
    (ht : t = body ++ List.replicate q padChar) (hb : ∀ c ∈ body, c ≠ padChar)
    (hlegal : ∀ c ∈ t, legalChar c = true) : ∀ c ∈ body, (base64Val c).isSome = true := by
  intro c hc
  have hct : c ∈ t := ht ▸ List.mem_append_left _ hc
  exact ((legalChar_iff c).mp (hlegal c hct)).resolve_right (hb c hc)

/-- The accepted texts and their containers (R162, R164, R165, R167). -/
theorem decodeText_eq_ok_iff {t d : List Byte} :
    decodeText t = .ok d ↔
      ∃ (body : List Byte) (q : Nat), t = body ++ List.replicate q padChar ∧ q ≤ 2 ∧
        (∀ c ∈ body, (base64Val c).isSome = true) ∧ t.length % 4 = 0 ∧
        48 + q ≤ 3 * (t.length / 4) ∧ d = (base64Groups t).take (3 * (t.length / 4) - q) := by
  constructor
  · intro h
    obtain ⟨h4, hlegal, hpadding⟩ := decodeText_ok_checks h
    obtain ⟨body, q, ht, hq, hne⟩ := eq_append_replicate_of_badPadding hpadding
    have hb := isSome_of_legal ht hne (firstBadChar_eq_none_iff.mp hlegal)
    rw [decodeText_padded ht hq hb h4] at h
    split_ifs at h with hshort
    cases h
    exact ⟨body, q, ht, hq, hb, h4, by omega, rfl⟩
  · rintro ⟨body, q, ht, hq, hb, h4, hlen, rfl⟩
    rw [decodeText_padded ht hq hb h4, if_neg (by omega)]

/-! ### What the outcome rests on -/

/-- The outcome of a text rests on which of its characters are legal, which are `=`, and the bytes
its container keeps. -/
theorem decodeText_congr {t u : List Byte} (hlegal : t.map legalChar = u.map legalChar)
    (hpad : t.map (· == padChar) = u.map (· == padChar))
    (hbytes : t.length % 4 = 0 →
      (base64Groups t).take (3 * t.length / 4 - (t.length - padStart t)) =
        (base64Groups u).take (3 * t.length / 4 - (t.length - padStart t))) :
    decodeText t = decodeText u := by
  have hlen : t.length = u.length := by simpa using congrArg List.length hlegal
  have hbad : firstBadChar t = firstBadChar u := by
    simpa [firstBadChar, List.findIdx?_map, Function.comp_def] using
      congrArg (List.findIdx? fun b => !b) hlegal
  have hstart : padStart t = padStart u := by
    simpa [padStart, List.findIdx_map, Function.comp_def] using congrArg (List.findIdx id) hpad
  have hany : ∀ k, ((t.drop k).any fun c => c != padChar) = (u.drop k).any fun c => c != padChar := by
    intro k
    simpa [← List.map_drop, List.any_map, Function.comp_def, bne] using
      congrArg (fun l : List Bool => (l.drop k).any fun b => !b) hpad
  have hpadding : ∀ k, badPadding t k = badPadding u k := by simp [badPadding, hany, hlen]
  by_cases h4 : t.length % 4 = 0
  · rw [hlen, hstart] at hbytes
    simp only [decodeText, hlen, hbad, hstart, hpadding, hbytes (hlen ▸ h4)]
  · rw [decodeText_badLength h4, decodeText_badLength (hlen ▸ h4), hlen]

/-- Texts that differ in a last group alone, with its legal characters and its `=` in the same places,
have the same outcome where `=` stands at `4 - q` of the group and its first `3 - q` bytes are the same,
since the container drops a byte for each character from the first `=` on (R165). -/
theorem decodeText_append_congr {front x y : List Byte} {q : Nat} (hx : x.length = 4)
    (hq : 0 < q) (hq3 : q ≤ 3) (hlegal : x.map legalChar = y.map legalChar)
    (hpad : x.map (· == padChar) = y.map (· == padChar)) (hxq : x[4 - q] = padChar)
    (hbytes : (base64Groups x).take (3 - q) = (base64Groups y).take (3 - q)) :
    decodeText (front ++ x) = decodeText (front ++ y) := by
  refine decodeText_congr (by simp [hlegal]) (by simp [hpad]) fun h4 => ?_
  have hlen : (front ++ x).length = front.length + 4 := by simp [hx]
  have hstart : padStart (front ++ x) ≤ front.length + (4 - q) :=
    padStart_le (by omega) (by simpa [List.getElem_append] using hxq)
  have hfront : front.length % 4 = 0 := by omega
  have htake : (base64Groups (front ++ x)).take (3 * (front.length / 4) + (3 - q)) =
      (base64Groups (front ++ y)).take (3 * (front.length / 4) + (3 - q)) := by
    rw [take_base64Groups_append hfront, take_base64Groups_append hfront, hbytes]
  have hle : 3 * (front ++ x).length / 4 - ((front ++ x).length - padStart (front ++ x)) ≤
      3 * (front.length / 4) + (3 - q) := by omega
  rw [← min_eq_left hle, ← List.take_take, ← List.take_take, htake]

/-! ### The round trip -/

/-- Every container is what its Base64 text decodes to. -/
theorem decodeText_base64Encode {d : List Byte} (hd : 48 ≤ d.length) :
    decodeText (base64Encode d) = .ok d := by
  obtain ⟨body, q, ht, hq, hb, hlen⟩ := base64Encode_shape d
  have htext := base64Encode_length d
  have hbytes : 3 * ((base64Encode d).length / 4) - q = d.length := by omega
  refine decodeText_eq_ok_iff.mpr ⟨body, q, ht, hq, hb, by omega, by omega, ?_⟩
  rw [hbytes, take_base64Groups_base64Encode]

/-! ### DECODE's completion -/

theorem decodeCore_lengthOutOfRange {s : State} (h : s.build.maxB64Len < s.inLen.toNat) :
    decodeCore s = .error { code := .lengthOutOfRange, info := 0x0000002C } := by
  simp [decodeCore, h]

theorem decodeCore_eq_decodeText {s : State} (h : s.inLen.toNat ≤ s.build.maxB64Len) :
    decodeCore s = decodeText (opText s) := by
  simp [decodeCore, Nat.not_lt.mpr h]

/-- BUSY, DECODE writes the container its core gives and is done (R160). -/
theorem exec_decode_ok {s : State} {d : List Byte} (hp : s.phase = .busy)
    (h : decodeCore s = .ok d) : exec .decode s = .next (doneComplete (writeCont d s)) := by
  have hr : resultOf .decode s = .ok (writeCont d s) := by simp [resultOf, decodeResult, h]
  rw [exec_busy rfl hp, complete_ok .decode hr]

/-- BUSY, DECODE ends with the error its core raises (R160). -/
theorem exec_decode_error {s : State} {e : Raise} (hp : s.phase = .busy)
    (h : decodeCore s = .error e) : exec .decode s = .next (errorComplete .decode e s) := by
  have hr : resultOf .decode s = .error e := by simp [resultOf, decodeResult, h]
  rw [exec_busy rfl hp, complete_error .decode hr]

/-- A text DECODE refuses ends it with MalformedContainer, the sub-cause in ERR_INFO[31:28] (R169). -/
theorem exec_decode_malformed {s : State} {sub value : Nat} {tag : Word} (hp : s.phase = .busy)
    (hin : s.inLen.toNat ≤ s.build.maxB64Len)
    (h : decodeText (opText s) = .error (malformed sub value))
    (htag : BitVec.ofNat 32 sub <<< 28 = tag) :
    exec .decode s = .next
      { s with
        errCode := 0x01, errInfo := tag ||| BitVec.ofNat 32 value
        err := true, phase := .idle } :=
  htag ▸ exec_decode_error hp ((decodeCore_eq_decodeText hin).trans h)

/-! ### The obligations -/

/-- Settles O33: the completion by `exec_decode_ok`, the round trip by `decodeText_base64Encode`. -/
theorem decodeRecoversEveryEncodedContainer :
    Obligations.DecodeRecoversEveryEncodedContainer := by
  unfold Obligations.DecodeRecoversEveryEncodedContainer
  refine ⟨fun s d hp hin h => ?_, fun d hd => decodeText_base64Encode hd⟩
  exact exec_decode_ok hp ((decodeCore_eq_decodeText hin).trans h)

/-- Settles O34: the accepted texts by `decodeText_eq_ok_iff`, the alphabet by its table, and the
discarded bits by `decodeText_append_congr`, the bytes kept of the last group reading none of them. -/
theorem acceptedTextsAreExactlyTheLegalOnes :
    Obligations.AcceptedTextsAreExactlyTheLegalOnes := by
  unfold Obligations.AcceptedTextsAreExactlyTheLegalOnes
  refine ⟨fun t d => decodeText_eq_ok_iff, fun c => ⟨base64Val_isSome_iff c, legalChar_iff c,
    fun v => base64Val_eq_some_iff_getElem?⟩, fun front c0 c1 c2 e u v he =>
    ⟨fun h1 huv => ?twoPads, fun h2 huv => ?onePad⟩, by decide, by decide⟩
  case twoPads =>
    obtain rfl := base64Val_eq_some_iff.mp he
    obtain rfl := base64Val_eq_some_iff.mp h1
    refine decodeText_append_congr (q := 2) rfl (by omega) (by omega) (by simp)
      (by simp [base64Char_ne_padChar]) rfl ?_
    simp [base64Groups, groupBits_byte0, huv]
  case onePad =>
    obtain rfl := base64Val_eq_some_iff.mp he
    obtain rfl := base64Val_eq_some_iff.mp h2
    refine decodeText_append_congr (q := 1) rfl (by omega) (by omega) (by simp)
      (by simp [base64Char_ne_padChar]) rfl ?_
    simp [base64Groups, groupBits_byte0, groupBits_byte1, huv]

/-- Settles O35: each failing check raises its own error (`exec_decode_malformed`). -/
theorem decodeReportsTheFirstFailure : Obligations.DecodeReportsTheFirstFailure := by
  unfold Obligations.DecodeReportsTheFirstFailure
  rintro s t hp rfl
  refine ⟨fun hout => ?range, fun hin h4 => ?length, fun hin h4 => ⟨fun i hi hbad hfirst => ?char,
    fun hlegal => ⟨fun k hk hpad hfirst hmis => ?padding, fun body q ht hq hb hshort => ?short⟩⟩⟩
  case range => exact exec_decode_error hp (decodeCore_lengthOutOfRange hout)
  case length => exact exec_decode_malformed hp hin (decodeText_badLength h4) rfl
  case char =>
    exact exec_decode_malformed hp hin
      (decodeText_badCharacter h4 (firstBadChar_eq_some hi hbad hfirst)) rfl
  case padding =>
    obtain rfl : padStart (opText s) = k := padStart_eq hk hpad hfirst
    exact exec_decode_malformed hp hin
      (decodeText_badPadding h4 (firstBadChar_eq_none_iff.mpr hlegal) (badPadding_eq_true hk hmis)) rfl
  case short =>
    have htext := decodeText_padded ht hq (isSome_of_legal ht hb hlegal) h4
    exact exec_decode_malformed hp hin (htext.trans (if_pos hshort)) rfl

end Sys2Proof.Machine
end

section
/-! The operands DECODE and DERIVE read (O56; 41_container_decoder R170, 42_key_derivation R201, R203). -/

namespace Sys2Proof.Machine

/-- Settles O56: the operands are equal (`Memory.readN_congr`), and the cores read nothing else. -/
theorem commandsReadOnlyTheirOperands : Obligations.CommandsReadOnlyTheirOperands := by
  unfold Obligations.CommandsReadOnlyTheirOperands
  refine fun s t => ⟨fun hlen hcap hin => ?decode, fun hvalid hlen hcap hpass hsalt => ?derive⟩
  case decode =>
    have htext : opText s = opText t := by
      rw [opText, opText, ← hlen]
      exact Memory.readN_congr (by simpa using hin)
    simp only [decodeCore, hlen, hcap, htext]
  case derive =>
    have hp : opPass s = opPass t := by
      rw [opPass, opPass, ← hlen]
      exact Memory.readN_congr (by simpa using hpass)
    have hs : opSalt s = opSalt t := Memory.readN_congr (by simpa [Config.saltLen] using hsalt)
    simp only [deriveCore, hvalid, hlen, hcap, hp, hs]

end Sys2Proof.Machine
end

section
/-! SHA-256's padding and message schedule (O39, O60; 42_key_derivation R211, R214, R216). -/

namespace Sys2Proof.Machine

/-! ### The padding -/

theorem shaZeros_fills (l : Nat) : (l + 1 + shaZeros l + 8) % 64 = 0 := by
  simp only [shaZeros]
  omega

theorem shaZeros_least {l j : Nat} (hj : j < shaZeros l) : (l + 1 + j + 8) % 64 ≠ 0 := by
  simp only [shaZeros] at hj
  omega

theorem shaPad_length (m : List Byte) :
    (shaPad m).length = m.length + 1 + shaZeros m.length + 8 := by
  simp only [shaPad, List.length_append, List.length_replicate, List.length_singleton, be64_length]

/-- Settles O39: the count is `shaZeros` of the length. -/
theorem shaPaddingFillsWholeBlocks : Obligations.ShaPaddingFillsWholeBlocks := by
  unfold Obligations.ShaPaddingFillsWholeBlocks
  refine fun m => ⟨shaZeros m.length, rfl, shaZeros_fills _, fun j => shaZeros_least, ?_⟩
  rw [shaPad_length, shaZeros_fills]

/-! ### The sixteen words of a block -/

@[simp] theorem be32_fromBE32 (b0 b1 b2 b3 : Byte) :
    be32 (fromBE32 b0 b1 b2 b3) = [b0, b1, b2, b3] := by
  have hlanes : ∀ x : Word, be32 x = [lane x 3, lane x 2, lane x 1, lane x 0] := fun _ => rfl
  simp [hlanes, fromBE32]

theorem wordsBE_length (blk : List Byte) : (wordsBE blk).length = blk.length / 4 := by
  induction blk using wordsBE.induct with
  | case1 b0 b1 b2 b3 t ih =>
    simp only [wordsBE, List.length_cons, ih]
    omega
  | case2 blk h =>
    match blk, h with
    | [], _ | [_], _ | [_, _], _ | [_, _, _], _ => simp [wordsBE]
    | b0 :: b1 :: b2 :: b3 :: t, h => exact absurd rfl (h b0 b1 b2 b3 t)

/-- Word `t` of a block is its four bytes from `4t` on, most significant first. -/
theorem be32_wordsBE_getD {blk : List Byte} {t : Nat} (ht : t < (wordsBE blk).length) :
    be32 ((wordsBE blk).getD t 0) = (blk.drop (4 * t)).take 4 := by
  induction blk using wordsBE.induct generalizing t with
  | case1 b0 b1 b2 b3 rest ih =>
    cases t with
    | zero => simp [wordsBE]
    | succ t => exact ih (Nat.lt_of_succ_lt_succ ht)
  | case2 blk h =>
    rw [wordsBE] at ht
    · cases ht
    · exact h

/-! ### The recurrence -/

/-- The word the recurrence of R214 adds to a schedule held newest word first. -/
def shaNextWord (ws : List Word) : Word :=
  shaSig1 (ws.getD 1 0) + ws.getD 6 0 + shaSig0 (ws.getD 14 0) + ws.getD 15 0

/-- The last word of an extension is the recurrence's, on top of the words before it. -/
theorem shaExtend_succ (n : Nat) (ws : List Word) :
    shaExtend (n + 1) ws = shaNextWord (shaExtend n ws) :: shaExtend n ws := by
  induction n generalizing ws with
  | zero => rfl
  | succ n ih => exact ih (shaNextWord ws :: ws)

theorem shaExtend_length (n : Nat) (ws : List Word) :
    (shaExtend n ws).length = n + ws.length := by
  induction n with
  | zero => simp [shaExtend]
  | succ n ih =>
    rw [shaExtend_succ, List.length_cons, ih]
    omega

/-- The words a schedule has stay below those added later. -/
theorem shaExtend_getD_later (n m i : Nat) (ws : List Word) :
    (shaExtend (n + m) ws).getD (m + i) 0 = (shaExtend n ws).getD i 0 := by
  induction m with
  | zero => simp
  | succ m ih => rw [← Nat.add_assoc, shaExtend_succ, Nat.add_right_comm, List.getD_cons_succ, ih]

section Block

variable {blk : List Byte} (hblk : blk.length = 64)

include hblk

theorem shaSchedule_length : (shaSchedule blk).length = 64 := by
  simp [shaSchedule, shaExtend_length, wordsBE_length, hblk]

/-- W_t is the `15 + n - t`-th newest word once `n` words are added to the sixteen. -/
theorem shaSchedule_getD {n t : Nat} (hn : n ≤ 48) (ht : t < 16 + n) :
    (shaSchedule blk).getD t 0 = (shaExtend n (wordsBE blk).reverse).getD (15 + n - t) 0 := by
  have hlen : (shaExtend 48 (wordsBE blk).reverse).length = 64 := by
    simp [shaExtend_length, wordsBE_length, hblk]
  have hlater := shaExtend_getD_later n (48 - n) (15 + n - t) (wordsBE blk).reverse
  rw [shaSchedule, List.getD_reverse t (by omega), hlen, ← hlater]
  congr 2 <;> omega

/-- The first sixteen words are the block's. -/
theorem shaSchedule_getD_of_lt {t : Nat} (ht : t < 16) :
    (shaSchedule blk).getD t 0 = (wordsBE blk).getD t 0 := by
  have hwords : (wordsBE blk).length = 16 := by rw [wordsBE_length, hblk]
  rw [shaSchedule_getD hblk (n := 0) (by omega) ht, shaExtend,
    List.getD_reverse _ (by omega), hwords]
  congr 1
  omega

/-- Every later word follows the recurrence of R214. -/
theorem shaSchedule_recurrence {t : Nat} (h16 : 16 ≤ t) (h64 : t < 64) :
    (shaSchedule blk).getD t 0 =
      shaSig1 ((shaSchedule blk).getD (t - 2) 0) + (shaSchedule blk).getD (t - 7) 0
        + shaSig0 ((shaSchedule blk).getD (t - 15) 0) + (shaSchedule blk).getD (t - 16) 0 := by
  obtain ⟨n, rfl⟩ := Nat.exists_eq_add_of_le h16
  have hback : ∀ i, 1 ≤ i → i ≤ 16 → (shaSchedule blk).getD (16 + n - i) 0 =
      (shaExtend n (wordsBE blk).reverse).getD (i - 1) 0 := fun i h1 hi => by
    rw [shaSchedule_getD hblk (n := n) (by omega) (by omega)]
    congr 1
    omega
  have hnew : 15 + (n + 1) - (16 + n) = 0 := by omega
  rw [shaSchedule_getD hblk (n := n + 1) (by omega) (by omega), shaExtend_succ, hnew,
    hback 2 (by omega) (by omega), hback 7 (by omega) (by omega), hback 15 (by omega) (by omega),
    hback 16 (by omega) (by omega)]
  rfl

end Block

/-- The digest of R216's example. -/
theorem sha256_abc : sha256 [0x61, 0x62, 0x63] =
    [0xba, 0x78, 0x16, 0xbf, 0x8f, 0x01, 0xcf, 0xea, 0x41, 0x41, 0x40, 0xde, 0x5d, 0xae, 0x22, 0x23,
     0xb0, 0x03, 0x61, 0xa3, 0x96, 0x17, 0x7a, 0x9c, 0xb4, 0x10, 0xff, 0x61, 0xf2, 0x00, 0x15,
     0xad] := by
  decide +kernel

/-- Settles O60: the block's own words by `be32_wordsBE_getD`, the later ones by
`shaSchedule_recurrence`. -/
theorem sha256SchedulesItsBlocksAndDigestsAbc :
    Obligations.Sha256SchedulesItsBlocksAndDigestsAbc := by
  unfold Obligations.Sha256SchedulesItsBlocksAndDigestsAbc
  refine ⟨fun blk hblk => ⟨shaSchedule_length hblk, fun t ht => ?words, fun t h16 h64 => ?later⟩,
    sha256_abc⟩
  case words =>
    rw [shaSchedule_getD_of_lt hblk ht]
    exact be32_wordsBE_getD (by rwa [wordsBE_length, hblk])
  case later => exact shaSchedule_recurrence hblk h16 h64

end Sys2Proof.Machine
end

section
/-! HMAC's key and PBKDF2's loop (O38, O40; 42_key_derivation R220, R230 to R232). -/

namespace Sys2Proof.Machine

/-! ### HMAC -/

/-- HMAC depends on its key through K0 alone. -/
theorem hmac_congr_key {k k' : List Byte} (h : hmacKey0 k = hmacKey0 k') (m : List Byte) :
    hmac k m = hmac k' m := by
  simp only [hmac, h]

/-- A key of at most one block is filled with zero bytes to 64. -/
theorem hmacKey0_of_le {k : List Byte} (hk : k.length ≤ 64) :
    hmacKey0 k = k ++ List.replicate (64 - k.length) 0 := by
  simp only [hmacKey0, hmacKey1, if_neg (Nat.not_lt.mpr hk)]

/-- A key over one block is replaced by its hash. -/
theorem hmacKey0_of_gt {k : List Byte} (hk : 64 < k.length) :
    hmacKey0 k = hmacKey0 (sha256 k) := by
  have hhash : (sha256 k).length ≤ 64 := by simp
  rw [hmacKey0_of_le hhash]
  simp only [hmacKey0, hmacKey1, if_pos hk]

/-- A zero byte at the end of a key under one block is one of the zeros that fill it. -/
theorem hmacKey0_append_zero {k : List Byte} (hk : k.length < 64) :
    hmacKey0 (k ++ [0]) = hmacKey0 k := by
  have hfill : 64 - k.length = 64 - (k.length + 1) + 1 := by omega
  rw [hmacKey0_of_le (by simpa using hk), hmacKey0_of_le (Nat.le_of_lt hk), hfill,
    List.replicate_succ]
  simp

/-- A pad is one byte at every place of the key. -/
theorem xorBytes_replicate (k : List Byte) (c : Byte) :
    xorBytes k (List.replicate k.length c) = k.map (· ^^^ c) := by
  induction k with
  | nil => rfl
  | cons b k ih => exact congrArg (_ :: ·) ih

/-- With a key of one block both pads act on the key's own bytes. -/
theorem hmac_of_block_key {k : List Byte} (hk : k.length = 64) (m : List Byte) :
    hmac k m = sha256 (k.map (· ^^^ 0x5C) ++ sha256 (k.map (· ^^^ 0x36) ++ m)) := by
  have hkey : hmacKey0 k = k := by
    rw [hmacKey0_of_le (Nat.le_of_eq hk), hk]
    simp
  simp only [hmac, hkey, ← xorBytes_replicate, hk]

/-- R220's example: the key `Jefe` and the message `what do ya want for nothing?`. -/
theorem hmac_jefe :
    hmac [0x4a, 0x65, 0x66, 0x65]
      [0x77, 0x68, 0x61, 0x74, 0x20, 0x64, 0x6f, 0x20, 0x79, 0x61, 0x20, 0x77, 0x61, 0x6e,
       0x74, 0x20, 0x66, 0x6f, 0x72, 0x20, 0x6e, 0x6f, 0x74, 0x68, 0x69, 0x6e, 0x67, 0x3f] =
    [0x5b, 0xdc, 0xc1, 0x46, 0xbf, 0x60, 0x75, 0x4e, 0x6a, 0x04, 0x24, 0x26, 0x08, 0x95, 0x75, 0xc7,
     0x5a, 0x00, 0x3f, 0x08, 0x9d, 0x27, 0x39, 0x83, 0x9d, 0xec, 0x58, 0xb9, 0x64, 0xec, 0x38,
     0x43] := by
  decide +kernel

/-- Settles O40: a long key and a short one by their K0, a key of one block by its pads. -/
theorem hmacHashesOnlyKeysOverOneBlock : Obligations.HmacHashesOnlyKeysOverOneBlock := by
  unfold Obligations.HmacHashesOnlyKeysOverOneBlock
  exact ⟨fun k m => ⟨fun hk => hmac_congr_key (hmacKey0_of_gt hk) m,
    fun hk => hmac_congr_key (hmacKey0_append_zero hk) m, fun hk => hmac_of_block_key hk m⟩,
    hmac_jefe⟩

/-! ### PBKDF2 -/

/-- `n` turns of the loop add the next `n` iterates of HMAC under the passphrase. -/
theorem pbkdf2Loop_eq_foldl (p : List Byte) (n : Nat) (u t : List Byte) :
    pbkdf2Loop p n u t =
      (List.range n).foldl (fun t j => xorBytes t ((hmac p)^[j + 1] u)) t := by
  induction n generalizing u t with
  | zero => rfl
  | succ n ih =>
    rw [pbkdf2Loop, ih, List.range_succ_eq_map, List.foldl_cons, List.foldl_map]
    rfl

/-- F is U_1 and `c - 1` iterates of HMAC after it. -/
theorem pbkdf2F_eq_foldl (p s : List Byte) (c i : Nat) :
    pbkdf2F p s c i =
      (List.range (c - 1)).foldl
        (fun t j => xorBytes t ((hmac p)^[j + 1] (hmac p (s ++ be32 (BitVec.ofNat 32 i)))))
        (hmac p (s ++ be32 (BitVec.ofNat 32 i))) :=
  pbkdf2Loop_eq_foldl p (c - 1) _ _

/-- Settles O38: `pbkdf2F_eq_foldl` at the one block and the iteration count of `deriveKey_eq`. -/
theorem derivedKeyXorsOneHundredThousandHmacs :
    Obligations.DerivedKeyXorsOneHundredThousandHmacs := by
  unfold Obligations.DerivedKeyXorsOneHundredThousandHmacs
  rintro p s _ rfl
  refine ⟨?_, deriveKey_length p s⟩
  have hiter : Config.iter - 1 = 99999 := rfl
  have hindex : be32 (BitVec.ofNat 32 1) = [0x00, 0x00, 0x00, 0x01] := rfl
  rw [deriveKey_eq, pbkdf2F_eq_foldl, hiter, hindex]

end Sys2Proof.Machine
end

section
/-! What DERIVE writes and reports (O36, O37; 42_key_derivation R200 to R202, R233). -/

namespace Sys2Proof.Machine

/-! ### DERIVE's checks in their order (R202) -/

theorem deriveCore_containerNotValid {s : State} (hc : s.contValid = false) :
    deriveCore s = .error { code := .containerNotValid, info := 0 } := by
  simp [deriveCore, hc]

theorem deriveCore_lengthOutOfRange {s : State} (hc : s.contValid = true)
    (h : s.build.maxPassLen < s.passLen.toNat) :
    deriveCore s = .error { code := .lengthOutOfRange, info := 0x00000030 } := by
  simp [deriveCore, hc, h]

theorem deriveCore_eq_deriveKey {s : State} (hc : s.contValid = true)
    (h : s.passLen.toNat ≤ s.build.maxPassLen) :
    deriveCore s = .ok (deriveKey (opPass s) (opSalt s)) := by
  simp [deriveCore, hc, Nat.not_lt.mpr h]

/-! ### DERIVE's completion -/

/-- BUSY, DERIVE writes the key its core gives and is done (R200, R233). -/
theorem exec_derive_ok {s : State} {dk : List Byte} (hp : s.phase = .busy)
    (h : deriveCore s = .ok dk) : exec .derive s = .next (doneComplete (writeKey dk s)) := by
  have hr : resultOf .derive s = .ok (writeKey dk s) := by simp [resultOf, deriveResult, h]
  rw [exec_busy rfl hp, complete_ok .derive hr]

/-- BUSY, DERIVE ends with the error its core raises (R200). -/
theorem exec_derive_error {s : State} {e : Raise} (hp : s.phase = .busy)
    (h : deriveCore s = .error e) : exec .derive s = .next (errorComplete .derive e s) := by
  have hr : resultOf .derive s = .error e := by simp [resultOf, deriveResult, h]
  rw [exec_busy rfl hp, complete_error .derive hr]

/-- Settles O36: the completion writes the key, and KEY holds its 32 bytes as they are. -/
theorem deriveWritesThePassphrasesKey : Obligations.DeriveWritesThePassphrasesKey := by
  unfold Obligations.DeriveWritesThePassphrasesKey
  intro s hp hc hpass
  exact ⟨_, exec_derive_ok hp (deriveCore_eq_deriveKey hc hpass), rfl,
    keyBytes_keyOfBytes _ (deriveKey_length _ _)⟩

/-- Settles O37: `exec_derive_error` at the outcome of each check. -/
theorem deriveReportsTheFirstFailure : Obligations.DeriveReportsTheFirstFailure := by
  unfold Obligations.DeriveReportsTheFirstFailure
  intro s hp
  exact ⟨fun hc => exec_derive_error hp (deriveCore_containerNotValid hc),
    fun hc hpass => exec_derive_error hp (deriveCore_lengthOutOfRange hc hpass)⟩

end Sys2Proof.Machine
end

section
/-! SBOX and INV_SBOX (O41, O42; 43_cipher_engine R251 to R253). -/

namespace Sys2Proof.Machine

/-! ### The affine map and its inverse -/

/-- The affine map of R252. -/
def sboxAffine (b : Byte) : Byte :=
  b ^^^ b.rotateLeft 1 ^^^ b.rotateLeft 2 ^^^ b.rotateLeft 3 ^^^ b.rotateLeft 4

/-- The affine map read backwards: (1 + x + x^2 + x^3 + x^4) (x + x^3 + x^6) is 1 modulo
x^8 + 1. -/
def sboxAffineInv (b : Byte) : Byte := b.rotateLeft 1 ^^^ b.rotateLeft 3 ^^^ b.rotateLeft 6

theorem sboxAffine_sboxAffineInv : ∀ b : Byte, sboxAffine (sboxAffineInv b) = b := by
  decide +kernel

/-- The byte whose affine image, plus 0x63, stands in the table at `x`. -/
def sboxPreimage (x : Byte) : Byte := sboxAffineInv (sbox x ^^^ 0x63)

theorem sbox_eq_sboxAffine (x : Byte) : sbox x = sboxAffine (sboxPreimage x) ^^^ 0x63 := by
  rw [sboxPreimage, sboxAffine_sboxAffineInv, BitVec.xor_assoc, BitVec.xor_self, BitVec.xor_zero]

/-- The table holds inverses in GF(2^8). -/
theorem gmul_sboxPreimage : ∀ x : Byte, x ≠ 0 → gmul x (sboxPreimage x) = 1 := by
  decide +kernel

/-- Settles O41: the inverse of `x` is `sboxPreimage x`. -/
theorem sboxIsTheAffineImageOfTheInverse : Obligations.SboxIsTheAffineImageOfTheInverse := by
  unfold Obligations.SboxIsTheAffineImageOfTheInverse
  have hzero : sboxPreimage 0 = 0 := by decide
  refine ⟨?zero, fun x hx => ⟨sboxPreimage x, gmul_sboxPreimage x hx, sbox_eq_sboxAffine x⟩⟩
  case zero => exact (sbox_eq_sboxAffine 0).trans (congrArg (sboxAffine · ^^^ 0x63) hzero)

/-! ### The inverse table -/

@[simp] theorem invSbox_sbox : ∀ x : Byte, invSbox (sbox x) = x := by
  decide +kernel

@[simp] theorem sbox_invSbox : ∀ x : Byte, sbox (invSbox x) = x := by
  decide +kernel

/-- Settles O42: both compositions, over the tables' 256 entries. -/
theorem inverseSboxUndoesSbox : Obligations.InverseSboxUndoesSbox :=
  fun x => ⟨invSbox_sbox x, sbox_invSbox x⟩

end Sys2Proof.Machine
end

section
/-! The inverse cipher is a bijection (O43; 43_cipher_engine R250, R256 to R261): each of its
transformations is one, so the rounds are. -/

namespace Sys2Proof.Machine

open Function

/-! ### Blocks and states (R250) -/

@[simp] theorem aesLoad_aesStore (s : Aes) : aesLoad (aesStore s) = s := rfl

theorem aesStore_aesLoad {b : List Byte} (hb : b.length = 16) : aesStore (aesLoad b) = b := by
  refine List.ext_getElem (by simp [hb]) fun i h _ => ?_
  rw [aesStore_length] at h
  interval_cases i <;> simp [aesStore, aesLoad, Col.bytes, hb]

/-! ### Maps of the four columns -/

/-- Apply a column map to each column of the state. -/
def Aes.map (f : Col → Col) (s : Aes) : Aes :=
  { c0 := f s.c0, c1 := f s.c1, c2 := f s.c2, c3 := f s.c3 }

theorem Aes.map_leftInverse {f g : Col → Col} (h : LeftInverse f g) :
    LeftInverse (Aes.map f) (Aes.map g) := fun s => by
  simp only [Aes.map, h _]

theorem Aes.map_bijective {f : Col → Col} (hf : Bijective f) : Bijective (Aes.map f) := by
  obtain ⟨g, hgf, hfg⟩ := bijective_iff_has_inverse.mp hf
  exact bijective_iff_has_inverse.mpr ⟨Aes.map g, Aes.map_leftInverse hgf, Aes.map_leftInverse hfg⟩

/-! ### AddRoundKey, InvShiftRows and InvSubBytes (R256 to R258) -/

theorem Col.xor_xor_cancel (x k : Col) : (x.xor k).xor k = x := by
  simp [Col.xor]

theorem addRoundKey_involutive (k : Aes) : Involutive (addRoundKey k) := fun s => by
  simp only [addRoundKey, Col.xor_xor_cancel]

/-- Row r moves by r columns, so four times is once around. -/
theorem invShiftRows_four (s : Aes) :
    invShiftRows (invShiftRows (invShiftRows (invShiftRows s))) = s := rfl

theorem invShiftRows_bijective : Bijective invShiftRows :=
  bijective_iff_has_inverse.mpr
    ⟨fun s => invShiftRows (invShiftRows (invShiftRows s)), invShiftRows_four, invShiftRows_four⟩

theorem Col.map_leftInverse {f g : Byte → Byte} (h : LeftInverse f g) :
    LeftInverse (Col.map f) (Col.map g) := fun x => by
  simp only [Col.map, h _]

theorem invSubBytes_bijective : Bijective invSubBytes :=
  Aes.map_bijective (f := Col.map invSbox) <| bijective_iff_has_inverse.mpr
    ⟨Col.map sbox, Col.map_leftInverse sbox_invSbox, Col.map_leftInverse invSbox_sbox⟩

/-! ### Multiplication in GF(2^8) is linear (R251) -/

theorem xtime_xor (a b : Byte) : xtime (a ^^^ b) = xtime a ^^^ xtime b := by
  have hred : ∀ x y : Bool, (if (x ^^ y) then 0x1B else 0x00 : Byte) =
      (if x then 0x1B else 0x00) ^^^ (if y then 0x1B else 0x00) := by decide
  simp only [xtime, BitVec.shiftLeft_xor_distrib, BitVec.getLsbD_xor, hred]
  ac_rfl

theorem xtimeN_xor (n : Nat) (a b : Byte) : xtimeN n (a ^^^ b) = xtimeN n a ^^^ xtimeN n b := by
  induction n with
  | zero => rfl
  | succ n ih => simp only [xtimeN, ih, xtime_xor]

/-- The sums `gmul` takes are added term by term. -/
theorem foldl_xor_distrib (f g h : Nat → Byte) (hfg : ∀ i, f i = g i ^^^ h i) (l : List Nat)
    (a b : Byte) :
    l.foldl (fun acc i => acc ^^^ f i) (a ^^^ b) =
      l.foldl (fun acc i => acc ^^^ g i) a ^^^ l.foldl (fun acc i => acc ^^^ h i) b := by
  induction l generalizing a b with
  | nil => rfl
  | cons i l ih =>
    have hstep : a ^^^ b ^^^ f i = (a ^^^ g i) ^^^ (b ^^^ h i) := by
      rw [hfg]
      ac_rfl
    simp only [List.foldl_cons, hstep, ih]

theorem gmul_xor (a b c : Byte) : gmul (a ^^^ b) c = gmul a c ^^^ gmul b c := by
  refine foldl_xor_distrib _ _ _ (fun i => ?_) (List.range 8) 0 0
  split
  · exact xtimeN_xor i a b
  · rfl

/-- A linear map that commutes with `xtime` commutes with a product. -/
theorem map_gmul {f : Byte → Byte} (hadd : ∀ a b, f (a ^^^ b) = f a ^^^ f b)
    (hxtime : ∀ a, f (xtime a) = xtime (f a)) (a c : Byte) : f (gmul a c) = gmul (f a) c := by
  have hzero : f 0 = 0 := by simpa using hadd 0 0
  have hterm : ∀ i, f (xtimeN i a) = xtimeN i (f a) := fun i => by
    induction i with
    | zero => rfl
    | succ i ih => rw [xtimeN, hxtime, ih, xtimeN]
  have hsum := List.foldl_hom f
    (g₁ := fun acc i => acc ^^^ (if c.getLsbD i then xtimeN i a else 0))
    (g₂ := fun acc i => acc ^^^ (if c.getLsbD i then xtimeN i (f a) else 0))
    (l := List.range 8) (init := 0) (fun acc i => by rw [hadd, apply_ite f, hterm, hzero])
  rw [hzero] at hsum
  exact hsum.symm

theorem gmul_right_comm (a b c : Byte) : gmul (gmul a b) c = gmul (gmul a c) b :=
  map_gmul (f := (gmul · c)) (fun x y => gmul_xor x y c)
    (fun x => (map_gmul xtime_xor (fun _ => rfl) x c).symm) a b

/-! ### InvMixColumns (R259) -/

/-- One row of `InvMixColumns`: the coefficients (0e 0b 0d 09) on four bytes. -/
def invMixRow (a b c d : Byte) : Byte :=
  gmul a 0x0e ^^^ gmul b 0x0b ^^^ gmul c 0x0d ^^^ gmul d 0x09

/-- The four rows are the one row on the column's rotations. -/
theorem invMixColumn_eq (x : Col) :
    invMixColumn x =
      { r0 := invMixRow x.r0 x.r1 x.r2 x.r3, r1 := invMixRow x.r1 x.r2 x.r3 x.r0
        r2 := invMixRow x.r2 x.r3 x.r0 x.r1, r3 := invMixRow x.r3 x.r0 x.r1 x.r2 } := by
  rw [invMixColumn, Col.mk.injEq]
  refine ⟨rfl, ?_, ?_, ?_⟩ <;> simp only [invMixRow] <;> ac_rfl

/-- One row of `InvMixColumns` done twice: the coefficients (05 00 04 00). -/
def invMixRowTwice (a c : Byte) : Byte := gmul a 0x05 ^^^ gmul c 0x04

/-- The products of two different coefficients, each of which the row done twice takes twice. -/
def invMixCross (a b c d : Byte) : Byte :=
  gmul (gmul a 0x09) 0x0b ^^^ gmul (gmul b 0x0b) 0x0e ^^^ gmul (gmul b 0x09) 0x0d ^^^
    gmul (gmul c 0x0d) 0x0e ^^^ gmul (gmul d 0x09) 0x0e ^^^ gmul (gmul d 0x0b) 0x0d

/-- The squares of the coefficients remain, and the cross products cancel. -/
theorem invMixRow_invMixRow (a b c d : Byte) :
    invMixRow (invMixRow a b c d) (invMixRow b c d a) (invMixRow c d a b) (invMixRow d a b c) =
      invMixRowTwice a c := by
  have hsquares0 : ∀ x : Byte, gmul (gmul x 0x0e) 0x0e ^^^ gmul (gmul x 0x0d) 0x0d =
      gmul x 0x05 := by decide +kernel
  have hsquares2 : ∀ x : Byte, gmul (gmul x 0x0b) 0x0b ^^^ gmul (gmul x 0x09) 0x09 =
      gmul x 0x04 := by decide +kernel
  calc invMixRow (invMixRow a b c d) (invMixRow b c d a) (invMixRow c d a b) (invMixRow d a b c)
      = (gmul (gmul a 0x0e) 0x0e ^^^ gmul (gmul a 0x0d) 0x0d) ^^^
          (gmul (gmul c 0x0b) 0x0b ^^^ gmul (gmul c 0x09) 0x09) ^^^
          (invMixCross a b c d ^^^ invMixCross a b c d) := by
        simp only [invMixRow, invMixCross, gmul_xor, gmul_right_comm]
        ac_rfl
    _ = invMixRowTwice a c := by
        rw [hsquares0, hsquares2, BitVec.xor_self, BitVec.xor_zero, invMixRowTwice]

/-- (05 00 04 00) twice is the identity: the squares add up to 1, and the cross products cancel. -/
theorem invMixRowTwice_invMixRowTwice (a c : Byte) :
    invMixRowTwice (invMixRowTwice a c) (invMixRowTwice c a) = a := by
  have hsquares : ∀ x : Byte, gmul (gmul x 0x05) 0x05 ^^^ gmul (gmul x 0x04) 0x04 = x := by
    decide +kernel
  calc invMixRowTwice (invMixRowTwice a c) (invMixRowTwice c a)
      = (gmul (gmul a 0x05) 0x05 ^^^ gmul (gmul a 0x04) 0x04) ^^^
          (gmul (gmul c 0x05) 0x04 ^^^ gmul (gmul c 0x05) 0x04) := by
        simp only [invMixRowTwice, gmul_xor, gmul_right_comm]
        ac_rfl
    _ = a := by rw [hsquares, BitVec.xor_self, BitVec.xor_zero]

/-- Four times is once around: `invMixRow_invMixRow` on each row, then
`invMixRowTwice_invMixRowTwice`. -/
theorem invMixColumn_four (x : Col) :
    invMixColumn (invMixColumn (invMixColumn (invMixColumn x))) = x := by
  simp only [invMixColumn_eq, invMixRow_invMixRow, invMixRowTwice_invMixRowTwice]

theorem invMixColumns_bijective : Bijective invMixColumns :=
  Aes.map_bijective (f := invMixColumn) <| bijective_iff_has_inverse.mpr
    ⟨fun x => invMixColumn (invMixColumn (invMixColumn x)), invMixColumn_four, invMixColumn_four⟩

/-! ### The rounds (R260) -/

theorem addRoundKey_bijective (k : Aes) : Bijective (addRoundKey k) :=
  (addRoundKey_involutive k).bijective

theorem aesRounds_bijective (w : List Col) (r : Nat) : Bijective (aesRounds w r) := by
  induction r with
  | zero => exact bijective_id
  | succ r ih =>
    exact ih.comp <| invMixColumns_bijective.comp <| (addRoundKey_bijective _).comp <|
      invSubBytes_bijective.comp invShiftRows_bijective

theorem aesDecState_bijective (w : List Col) : Bijective (aesDecState w) :=
  (addRoundKey_bijective _).comp <| invSubBytes_bijective.comp <| invShiftRows_bijective.comp <|
    (aesRounds_bijective w 13).comp (addRoundKey_bijective _)

/-! ### The cipher on blocks -/

theorem aesDecBlock_injective (w : List Col) {c d : List Byte} (hc : c.length = 16)
    (hd : d.length = 16) (h : aesDecBlock w c = aesDecBlock w d) : c = d := by
  have hstate : aesDecState w (aesLoad c) = aesDecState w (aesLoad d) := congrArg aesLoad h
  rw [← aesStore_aesLoad hc, ← aesStore_aesLoad hd, (aesDecState_bijective w).injective hstate]

theorem aesDecBlock_surjective (w : List Col) {p : List Byte} (hp : p.length = 16) :
    ∃ c, c.length = 16 ∧ aesDecBlock w c = p := by
  obtain ⟨s, hs⟩ := (aesDecState_bijective w).surjective (aesLoad p)
  exact ⟨aesStore s, aesStore_length s, by
    rw [aesDecBlock, aesLoad_aesStore, hs, aesStore_aesLoad hp]⟩

/-- The example of FIPS 197 C.3 (R261). -/
theorem aes256Dec_fips197 : aes256Dec ((List.range 32).map (BitVec.ofNat 8))
      [0x8e, 0xa2, 0xb7, 0xca, 0x51, 0x67, 0x45, 0xbf, 0xea, 0xfc, 0x49, 0x90, 0x4b, 0x49, 0x60,
       0x89] =
    [0x00, 0x11, 0x22, 0x33, 0x44, 0x55, 0x66, 0x77, 0x88, 0x99, 0xaa, 0xbb, 0xcc, 0xdd, 0xee,
     0xff] := by
  decide +kernel

/-- Settles O43: the state under the expanded key is permuted (`aesDecState_bijective`), and a block
is its state. -/
theorem inverseCipherIsABijection : Obligations.InverseCipherIsABijection := by
  unfold Obligations.InverseCipherIsABijection
  exact ⟨fun k _ => ⟨fun c => aesStore_length _,
    fun _ _ => aesDecBlock_injective (keyExpansion k),
    fun _ => aesDecBlock_surjective (keyExpansion k)⟩, aes256Dec_fips197⟩

end Sys2Proof.Machine
end

section
/-! CBC decryption, block by block (O44; 43_cipher_engine R270). -/

namespace Sys2Proof.Machine

/-- Block `j` of a text. -/
def blockAt (j : Nat) (c : List Byte) : List Byte := (c.drop (16 * j)).take 16

/-- Block `j + 1` of a text is block `j` of what follows its first block. -/
theorem blockAt_succ (j : Nat) (c : List Byte) : blockAt (j + 1) c = blockAt j (c.drop 16) := by
  rw [blockAt, blockAt, List.drop_drop, Nat.mul_succ, Nat.add_comm]

theorem blockAt_append_zero {b : List Byte} (hb : b.length = 16) (t : List Byte) :
    blockAt 0 (b ++ t) = b := List.take_left' hb

theorem blockAt_append_succ {b : List Byte} (hb : b.length = 16) (j : Nat) (t : List Byte) :
    blockAt (j + 1) (b ++ t) = blockAt j t := by
  rw [blockAt_succ, List.drop_left' hb]

/-- The value block `j` is chained with: the block before it, `prev` for block 0. -/
def chainAt (prev c : List Byte) (j : Nat) : List Byte :=
  if j = 0 then prev else blockAt (j - 1) c

/-- Past the first block the chaining goes on with that block as the value before. -/
theorem chainAt_succ (prev c : List Byte) (j : Nat) :
    chainAt prev c (j + 1) = chainAt (c.take 16) (c.drop 16) j := by
  cases j with
  | zero => rfl
  | succ j => exact blockAt_succ j c

/-- Every block of the loop's plaintext, from any chaining value. -/
theorem blockAt_cbcLoop {w : List Col} {n j : Nat} {prev c : List Byte} (hp : prev.length = 16)
    (hc : c.length = 16 * n) (hj : j < n) :
    blockAt j (cbcLoop w n prev c) = xorBytes (aesDecBlock w (blockAt j c)) (chainAt prev c j) := by
  induction n generalizing j prev c with
  | zero => cases hj
  | succ n ih =>
    have hfirst : (xorBytes (aesDecBlock w (c.take 16)) prev).length = 16 := by
      simp [aesDecBlock, hp]
    have hhead : (c.take 16).length = 16 := by simp; omega
    have htail : (c.drop 16).length = 16 * n := by simp; omega
    cases j with
    | zero => exact blockAt_append_zero hfirst _
    | succ j =>
      rw [cbcLoop, blockAt_append_succ hfirst, ih hhead htail (Nat.lt_of_succ_lt_succ hj),
        blockAt_succ, chainAt_succ]

/-- Settles O44: `blockAt_cbcLoop` with the IV as the first chaining value. -/
theorem cbcChainsThePreviousBlock : Obligations.CbcChainsThePreviousBlock := by
  unfold Obligations.CbcChainsThePreviousBlock
  intro k iv c n hiv hc
  refine ⟨(cbcDec_length k iv c hiv (by omega)).trans hc, fun j hj => ?_⟩
  have hblocks : c.length / 16 = n := by omega
  rw [cbcDec, hblocks]
  exact blockAt_cbcLoop hiv hc hj

end Sys2Proof.Machine
end

section
/-! The UTF-8 check and the table (O45, O46; 43_cipher_engine R290, R291). -/

namespace Sys2Proof.Machine

/-! ### One turn of the scan -/

@[simp] theorem utf8Scan_nil (fuel i : Nat) : utf8Scan fuel i [] = none := by
  cases fuel <;> rfl

/-- The scan stops at a text that begins with no sequence. -/
theorem utf8Scan_stop {t : List Byte} (hne : t ≠ []) (h : utf8SeqLen t = none) (fuel i : Nat) :
    utf8Scan (fuel + 1) i t = some i := by
  simp [utf8Scan, hne, h]

/-- The scan goes on behind a sequence. -/
theorem utf8Scan_seq {t : List Byte} {l : Nat} (hne : t ≠ []) (h : utf8SeqLen t = some l)
    (fuel i : Nat) : utf8Scan (fuel + 1) i t = utf8Scan fuel (i + l) (t.drop l) := by
  simp [utf8Scan, hne, h]

theorem utf8SeqLen_pos {t : List Byte} {l : Nat} (h : utf8SeqLen t = some l) : 0 < l := by
  obtain ⟨hseq, hl⟩ := utf8Seq_of_seqLen h
  simpa [hl] using (utf8SeqLen_append hseq []).2

/-! ### The scan and the well-formed texts -/

/-- A text that begins with a sequence is well-formed where the rest is. -/
theorem wellFormedUtf8_of_drop {t : List Byte} {l : Nat} (h : utf8SeqLen t = some l)
    (hrest : WellFormedUtf8 (t.drop l)) : WellFormedUtf8 t := by
  have hcons := WellFormedUtf8.cons _ _ (utf8Seq_of_seqLen h).1 hrest
  rwa [List.take_append_drop] at hcons

/-- A scan with fuel for every byte that finds no error has split the text into sequences. -/
theorem wellFormedUtf8_of_utf8Scan {fuel i : Nat} {t : List Byte} (hfuel : t.length ≤ fuel)
    (h : utf8Scan fuel i t = none) : WellFormedUtf8 t := by
  induction fuel generalizing i t with
  | zero =>
    obtain rfl := List.length_eq_zero_iff.mp (Nat.le_zero.mp hfuel)
    exact .nil
  | succ fuel ih =>
    by_cases hne : t = []
    · exact hne ▸ .nil
    cases hl : utf8SeqLen t with
    | none => simp [utf8Scan_stop hne hl] at h
    | some l =>
      rw [utf8Scan_seq hne hl] at h
      have hpos := utf8SeqLen_pos hl
      exact wellFormedUtf8_of_drop hl (ih (by simp; omega) h)

/-- A well-formed text has no error, whatever the fuel. -/
theorem utf8Scan_of_wellFormedUtf8 {t : List Byte} (h : WellFormedUtf8 t) (fuel i : Nat) :
    utf8Scan fuel i t = none := by
  induction h generalizing fuel i with
  | nil => exact utf8Scan_nil fuel i
  | cons q t hq _ ih =>
    obtain ⟨hlen, hpos⟩ := utf8SeqLen_append hq t
    have hne : q ++ t ≠ [] := by
      have := List.ne_nil_of_length_pos hpos
      simp [this]
    cases fuel with
    | zero => rfl
    | succ fuel =>
      rw [utf8Scan_seq hne hlen, List.drop_left]
      exact ih fuel _

theorem utf8FirstError_eq_none_iff (t : List Byte) : utf8FirstError t = none ↔ WellFormedUtf8 t :=
  ⟨wellFormedUtf8_of_utf8Scan (Nat.le_refl _), fun h => utf8Scan_of_wellFormedUtf8 h _ _⟩

/-- Settles O45: `utf8FirstError_eq_none_iff`. -/
theorem utf8CheckPassesExactlyTheWellFormedTexts :
    Obligations.Utf8CheckPassesExactlyTheWellFormedTexts :=
  utf8FirstError_eq_none_iff

/-! ### The error offset -/

/-- The sequence a text begins with, put before a well-formed prefix of what follows. -/
theorem wellFormedUtf8_take_add {t : List Byte} {l d : Nat} (h : utf8SeqLen t = some l)
    (hrest : WellFormedUtf8 ((t.drop l).take d)) : WellFormedUtf8 (t.take (l + d)) := by
  rw [List.take_add]
  exact .cons _ _ (utf8Seq_of_seqLen h).1 hrest

/-- Where the scan stops: `d` bytes on, behind a well-formed text and before no sequence. -/
theorem utf8Scan_eq_some {fuel i e : Nat} {t : List Byte} (h : utf8Scan fuel i t = some e) :
    ∃ d, e = i + d ∧ d < t.length ∧ WellFormedUtf8 (t.take d) ∧ utf8SeqLen (t.drop d) = none := by
  induction fuel generalizing i t with
  | zero => cases h
  | succ fuel ih =>
    by_cases hne : t = []
    · simp [hne] at h
    cases hl : utf8SeqLen t with
    | none =>
      rw [utf8Scan_stop hne hl] at h
      cases h
      exact ⟨0, rfl, List.length_pos_of_ne_nil hne, .nil, hl⟩
    | some l =>
      rw [utf8Scan_seq hne hl] at h
      obtain ⟨d, rfl, hd, hwf, hnone⟩ := ih h
      rw [List.length_drop] at hd
      rw [List.drop_drop] at hnone
      exact ⟨l + d, Nat.add_assoc .., by omega, wellFormedUtf8_take_add hl hwf, hnone⟩

/-- Settles O46: the check stops where `utf8SeqLen` finds no sequence, and it would find one of the
table. -/
theorem utf8ErrorOffsetIsTheFirstIllFormedSequence :
    Obligations.Utf8ErrorOffsetIsTheFirstIllFormedSequence := by
  unfold Obligations.Utf8ErrorOffsetIsTheFirstIllFormedSequence
  intro t e h
  obtain ⟨d, hd, hlt, hwf, hnone⟩ := utf8Scan_eq_some h
  obtain rfl : e = d := hd.trans (Nat.zero_add d)
  refine ⟨hlt, hwf, ?_⟩
  rintro ⟨q, rest, hq, hdrop⟩
  rw [hdrop, (utf8SeqLen_append hq rest).1] at hnone
  cases hnone

end Sys2Proof.Machine
end

section
/-! What DECRYPT writes and reports (O47, O48, O49; 43_cipher_engine R280 to R283, R292, R293, R300
to R304). -/

namespace Sys2Proof.Machine

/-! ### Truncation and the UTF-8 check -/

section Truncation

variable {b : List Byte} {p : Byte} (hlast : b.getLast? = some p)

include hlast

/-- The count truncation reads is the buffer's last byte. -/
theorem getD_pred_of_getLast? : b.getD (b.length - 1) 0 = p := by
  rw [List.getD_eq_getElem?_getD, ← List.getLast?_eq_getElem?, hlast, Option.getD_some]

/-- A count of 0 or over the buffer's length is a padding error (R281, R282). -/
theorem plaintextOf_outOfRange (h : p.toNat = 0 ∨ b.length < p.toNat) :
    plaintextOf b =
      .error { code := .paddingTruncationOutOfRange, info := padInfo b.length p } := by
  simp only [plaintextOf, truncateByLast, getD_pred_of_getLast? hlast, if_pos h]

/-- Any other count reaches the UTF-8 check with the text before the padding (R280). -/
theorem plaintextOf_inRange (h1 : 1 ≤ p.toNat) (h2 : p.toNat ≤ b.length) :
    plaintextOf b = checkText (b.take (b.length - p.toNat), p) := by
  have h : ¬ (p.toNat = 0 ∨ b.length < p.toNat) := by omega
  simp only [plaintextOf, truncateByLast, getD_pred_of_getLast? hlast, if_neg h]

end Truncation

theorem checkText_error {tp : List Byte × Byte} {e : Nat} (h : utf8FirstError tp.1 = some e) :
    checkText tp = .error { code := .textDecodingFailure, info := BitVec.ofNat 32 e } := by
  simp only [checkText, h]

theorem checkText_ok {tp : List Byte × Byte} (h : WellFormedUtf8 tp.1) : checkText tp = .ok tp := by
  simp only [checkText, (utf8FirstError_eq_none_iff _).mpr h]

/-! ### DECRYPT's checks in their order (R302) -/

theorem decryptCore_containerNotValid {s : State} (hc : s.contValid = false) :
    decryptCore s = .error { code := .containerNotValid, info := 0 } := by
  simp [decryptCore, hc]

section Checks

variable {s : State} (hc : s.contValid = true)

include hc

theorem decryptCore_keyNotValid (hk : s.keyValid = false) :
    decryptCore s = .error { code := .keyNotValid, info := 0 } := by
  simp [decryptCore, hc, hk]

variable (hk : s.keyValid = true)

include hk

theorem decryptCore_invalidLength (hl : s.ctLen.toNat = 0 ∨ s.ctLen.toNat % 16 ≠ 0) :
    decryptCore s = .error { code := .invalidCiphertextLength, info := s.ctLen } := by
  simp only [decryptCore, hc, hk, Config.block, Bool.true_eq_false, if_false]
  exact if_pos hl

/-- With a positive number of whole blocks the outcome is that of the decrypted buffer. -/
theorem decryptCore_eq_plaintextOf (hpos : 0 < s.ctLen.toNat) (hmod : s.ctLen.toNat % 16 = 0) :
    decryptCore s = plaintextOf (cbcDec (opKey s) (opIv s) (opCipher s)) := by
  have hl : ¬ (s.ctLen.toNat = 0 ∨ s.ctLen.toNat % 16 ≠ 0) := by omega
  simp only [decryptCore, hc, hk, Config.block, Bool.true_eq_false, if_false]
  exact if_neg hl

end Checks

/-- The decrypted buffer is as long as the ciphertext. -/
theorem decrypted_length {s : State} (hmod : s.ctLen.toNat % 16 = 0) :
    (cbcDec (opKey s) (opIv s) (opCipher s)).length = s.ctLen.toNat := by
  rw [cbcDec_length _ _ _ (opIv_length s) (by simpa using hmod), opCipher_length]

/-! ### DECRYPT's completion -/

/-- BUSY, DECRYPT writes the plaintext its core gives and is done (R300). -/
theorem exec_decrypt_ok {s : State} {tp : List Byte × Byte} (hp : s.phase = .busy)
    (h : decryptCore s = .ok tp) :
    exec .decrypt s = .next (doneComplete (writeOut tp.1 tp.2 s)) := by
  have hr : resultOf .decrypt s = .ok (writeOut tp.1 tp.2 s) := by
    simp [resultOf, decryptResult, h]
  rw [exec_busy rfl hp, complete_ok .decrypt hr]

/-- BUSY, DECRYPT ends with the error its core raises (R300). -/
theorem exec_decrypt_error {s : State} {e : Raise} (hp : s.phase = .busy)
    (h : decryptCore s = .error e) : exec .decrypt s = .next (errorComplete .decrypt e s) := by
  have hr : resultOf .decrypt s = .error e := by simp [resultOf, decryptResult, h]
  rw [exec_busy rfl hp, complete_error .decrypt hr]

/-- Settles O47: every check passes, and the completion writes the text before the padding. -/
theorem decryptWritesTheTruncatedPlaintext : Obligations.DecryptWritesTheTruncatedPlaintext := by
  unfold Obligations.DecryptWritesTheTruncatedPlaintext
  intro s b p hp hc hk hpos hmod hb hlast h1 hle hwf
  have hlen : b.length = s.ctLen.toNat := hb ▸ decrypted_length hmod
  have hcore : decryptCore s = .ok (b.take (b.length - p.toNat), p) :=
    calc decryptCore s = plaintextOf b := hb ▸ decryptCore_eq_plaintextOf hc hk hpos hmod
      _ = checkText (b.take (b.length - p.toNat), p) := plaintextOf_inRange hlast h1 hle
      _ = .ok (b.take (b.length - p.toNat), p) := checkText_ok hwf
  have htext : (b.take (b.length - p.toNat)).length = s.ctLen.toNat - p.toNat := by
    rw [List.length_take, hlen]
    omega
  rw [exec_decrypt_ok hp hcore, doneComplete, writeOut, htext]

/-- Settles O48: `exec_decrypt_error` at the outcome of each check. -/
theorem decryptReportsTheFirstFailure : Obligations.DecryptReportsTheFirstFailure := by
  unfold Obligations.DecryptReportsTheFirstFailure
  intro s b p hp hb
  refine ⟨fun hc => exec_decrypt_error hp (decryptCore_containerNotValid hc),
    fun hc hk => exec_decrypt_error hp (decryptCore_keyNotValid hc hk),
    fun hc hk => ⟨fun hl => exec_decrypt_error hp (decryptCore_invalidLength hc hk hl),
      fun hpos hmod hlast => ?_⟩⟩
  have hlen : b.length = s.ctLen.toNat := hb ▸ decrypted_length hmod
  have hcore : decryptCore s = plaintextOf b := hb ▸ decryptCore_eq_plaintextOf hc hk hpos hmod
  rw [← hlen]
  refine ⟨fun hrange => ?padding, fun h1 hle e he => ?text⟩
  case padding =>
    have hinfo : padInfo b.length p = (s.ctLen <<< 8) ||| p.setWidth 32 := by
      rw [padInfo, hlen, BitVec.ofNat_toNat, BitVec.setWidth_eq]
    rw [exec_decrypt_error hp (hcore.trans (plaintextOf_outOfRange hlast hrange)), hinfo]
    rfl
  case text =>
    exact exec_decrypt_error hp
      ((hcore.trans (plaintextOf_inRange hlast h1 hle)).trans (checkText_error he))

/-! ### DECRYPT again -/

/-- DECRYPT's acceptance sets everything it writes to fixed values, so it sets nothing anew. -/
theorem acceptEngine_decrypt_idem (s : State) :
    acceptEngine .decrypt (acceptEngine .decrypt s) = acceptEngine .decrypt s := rfl

/-- DECRYPT's acceptance sets everything a completion of DECRYPT writes. -/
theorem acceptEngine_decrypt_complete (s : State) :
    acceptEngine .decrypt (complete .decrypt (resultOf .decrypt s) s) =
      acceptEngine .decrypt s := by
  cases hr : resultOf .decrypt s with
  | ok t =>
    obtain ⟨tp, -, rfl⟩ := decryptResult_ok hr
    rfl
  | error e => rfl

/-- What DECRYPT keeps of the state it is accepted in (R304). -/
theorem complete_decrypt_keeps (s : State) :
    let t := complete .decrypt (resultOf .decrypt s) s
    t.key = s.key ∧ t.keyValid = s.keyValid ∧ t.decBuf = s.decBuf ∧ t.decLen = s.decLen ∧
      t.ctLen = s.ctLen ∧ t.contValid = s.contValid := by
  intro t
  cases hr : resultOf .decrypt s with
  | ok u =>
    obtain ⟨tp, -, rfl⟩ := decryptResult_ok hr
    simp [t, complete, hr, doneComplete]
  | error e => simp [t, complete, hr, errorComplete, recordError]

/-- Settles O49: the repeat completes from the same accepted state
(`acceptEngine_decrypt_complete`, `acceptEngine_decrypt_idem`). -/
theorem decryptCanBeRepeated : Obligations.DecryptCanBeRepeated := by
  unfold Obligations.DecryptCanBeRepeated
  intro s t hp h
  rw [command_idle rfl hp] at h
  cases h
  obtain ⟨hkey, hkv, hdec, hdl, hct, hcv⟩ := complete_decrypt_keeps (acceptEngine .decrypt s)
  refine ⟨hkey, hkv, hdec, hdl, hct, hcv, ?_⟩
  rw [command_idle rfl (complete_phase ..), acceptEngine_decrypt_complete,
    acceptEngine_decrypt_idem]

end Sys2Proof.Machine
end

section
/-! The life of a command as the host starts it (O28, O29, O30, O31, O32, O54; 44_pipeline_control
R330, R331, R340, R341, R345): which command a step runs, what each acceptance changes, and what no
engine command changes. -/

namespace Sys2Proof.Machine

/-! ### The command a step runs -/

/-- On an empty schedule a step is the engine's turn (log 3). -/
theorem step_of_empty {s : State} (hs : s.pending = []) : step s = engineTurn s := by
  simp only [step, hs]

/-- Otherwise a step runs the schedule's next event (20_memory R94). -/
theorem step_event {s : State} {e : Event} {rest : List Event} (hs : s.pending = e :: rest) :
    step s = runEvent e { s with pending := rest } := by
  simp only [step, hs]

/-- The word of a legal command runs it (R330). -/
theorem accept_ok {w : Word} {i : Instr} (h : decode w = .ok i) (s : State) :
    accept w s = exec i s := by
  rw [accept, h]

/-- Any other word is illegal (R345). -/
theorem accept_error {w : Word} {e : DecodeError} (h : decode w = .error e) (s : State) :
    accept w s = .next (illegalComplete w s) := by
  rw [accept, h]

/-- While IDLE a strobed write to CMD accepts the masked word (20_memory R87). -/
theorem hostWrite_cmd {s : State} {strb : Strobe} (v : Word) (hp : s.phase = .idle)
    (hs : strb ≠ 0) : hostWrite 0x01C v strb s = accept (mask v strb) s :=
  hostWrite_idle v hp rfl hs

/-- The step that runs such a write adds the schedule's advance and the OKAY response. -/
theorem step_cmd {s : State} {v : Word} {strb : Strobe} {rest : List Event} (hp : s.phase = .idle)
    (hstrb : strb ≠ 0) (hs : s.pending = .write 0x01C v strb :: rest) :
    step s = accept (mask v strb) { s with pending := rest, reply := some (.written .okay) } :=
  step_write_idle hp rfl hstrb hs

/-- BUSY, the engine's turn runs the command in PEND_CMD (R331). -/
theorem engineTurn_runs {s : State} {i : Instr} (hp : s.phase = .busy)
    (hd : decode s.pendCmd = .ok i) (hr : runsInEngine i = true) : engineTurn s = exec i s := by
  rw [engineTurn_busy hp (eq_encode_of_decode hd) hr, exec_busy hr hp]

/-- The response of a transaction by its offset (20_memory R83). -/
theorem busResp_eq (a : Offset) : busResp a = if a.toNat % 4 = 0 then .okay else .slverr := by
  split
  · next ha => exact busResp_of_mod ha
  · next ha => exact busResp_of_misaligned ha

/-- Settles O28: the host's write by `step_cmd`, the engine's turn by `engineTurn_runs`,
any write by `step_write`. -/
theorem stepRunsTheDecodedCommand : Obligations.StepRunsTheDecodedCommand := by
  unfold Obligations.StepRunsTheDecodedCommand
  refine ⟨fun s v strb rest i hs hp hstrb hd _ => ?write,
    fun s i hp hd _ hr => ⟨fun hs => ?empty, fun rest hs => ?engine⟩,
    fun s a v strb rest hs => ?any⟩
  case write =>
    rw [step_cmd hp hstrb hs, accept_ok hd]
  case empty => exact (step_of_empty hs).trans (engineTurn_runs hp hd hr)
  case engine => exact (step_event hs).trans (engineTurn_runs hp hd hr)
  case any => rw [step_write hs, busResp_eq]

/-! ### Acceptance -/

/-- Settles O29: each command's acceptance (`exec_idle`) is its row of the table. -/
theorem acceptanceClearsTheTablesGroups : Obligations.AcceptanceClearsTheTablesGroups := by
  unfold Obligations.AcceptanceClearsTheTablesGroups
  exact fun s hp => ⟨exec_idle rfl hp, exec_idle rfl hp, exec_idle rfl hp, exec_idle rfl hp⟩

/-- CLEAR gives every field its reset value but the engine's phase, which it finds IDLE, and the
fields R341 excepts. -/
theorem clearComplete_acceptHead (s : State) :
    clearComplete (acceptHead (encode .clear) s) =
      { State.resetOf s.build with
        phase := s.phase
        ie := s.ie, pendCmd := encode .clear, done := true
        pending := s.pending, reply := s.reply } := rfl

/-- Settles O30: `clearComplete_acceptHead` in an IDLE state. -/
theorem clearLeavesTheResetStateButThreeFields :
    Obligations.ClearLeavesTheResetStateButThreeFields := by
  unfold Obligations.ClearLeavesTheResetStateButThreeFields
  intro s hp
  rw [exec_clear_idle hp, clearComplete_acceptHead, hp]
  rfl

/-- Settles O32: BUSY, CLEAR is the dropped write. -/
theorem clearWhileBusyOnlySetsWerr : Obligations.ClearWhileBusyOnlySetsWerr := by
  unfold Obligations.ClearWhileBusyOnlySetsWerr
  exact fun s hp => exec_clear_busy hp

/-! ### Illegal words -/

/-- An illegal word written to CMD while IDLE ends at once with IllegalCommand (R345). -/
theorem hostWrite_cmd_illegal {s : State} {w : Word} {e : DecodeError} (hp : s.phase = .idle)
    (hd : decode w = .error e) : hostWrite 0x01C w 0xF s = .next (illegalComplete w s) := by
  have hmask : mask w 0xF = w := merge_all 0 w
  rw [hostWrite_cmd w hp (by decide), hmask, accept_error hd]

/-- Settles O31: `hostWrite_cmd_illegal`, and the three registers read after the word 6. -/
theorem illegalWordEndsWithIllegalCommand : Obligations.IllegalWordEndsWithIllegalCommand := by
  unfold Obligations.IllegalWordEndsWithIllegalCommand
  refine ⟨fun s w e hp hd => hostWrite_cmd_illegal hp hd, ?_⟩
  have hsix : decode 0x00000006 = .error .unknownOpcode := rfl
  exact ⟨_, hostWrite_cmd_illegal rfl hsix, readData_reg _ .status, readData_reg _ .errCode,
    readData_reg _ .errInfo⟩

/-! ### The frame of the engine's commands -/

/-- Acceptance and completion leave what no command writes; only acceptance writes PEND_CMD. -/
theorem sameInputs_exec {i : Instr} (hr : runsInEngine i = true) {s t : State}
    (h : exec i s = .next t) :
    SameInputs { s with pendCmd := t.pendCmd } t ∧ (s.phase = .busy → t.pendCmd = s.pendCmd) := by
  cases hp : s.phase with
  | idle =>
    rw [exec_idle hr hp] at h
    cases h
    exact ⟨by constructor <;> simp, nofun⟩
  | busy =>
    rw [exec_busy hr hp] at h
    cases h
    have hsame := sameInputs_complete i s
    exact ⟨{ hsame with pendCmd := rfl }, fun _ => hsame.pendCmd⟩

/-- Settles O54: `sameInputs_exec`, field by field. -/
theorem commandsLeaveTheInputsAlone : Obligations.CommandsLeaveTheInputsAlone := by
  unfold Obligations.CommandsLeaveTheInputsAlone
  intro i s t hr h
  obtain ⟨hsame, hpend⟩ := sameInputs_exec hr h
  exact ⟨fun a => congrArg (·.read a) hsame.inBuf, fun a => congrArg (·.read a) hsame.passBuf,
    hsame.inLen, hsame.passLen, hsame.ie, hsame.werr, hsame.build, hsame.pending, hsame.reply,
    hpend⟩

end Sys2Proof.Machine
end

section
/-! How BUSY ends (O9, O10; 44_pipeline_control R331 to R334, 70_reset R401): a step of a BUSY
engine is a reset, a completion with exactly one of DONE and ERR, or a host transaction, which uses up one
event and leaves the engine BUSY. -/

namespace Sys2Proof.Machine

/-- A command is reported: exactly one of DONE and ERR is set (R334). -/
def Reported (t : State) : Prop :=
  (t.done = true ∧ t.err = false) ∨ (t.done = false ∧ t.err = true)

/-- With neither flag set before, a completion sets exactly one. -/
theorem complete_reported (i : Instr) {s : State} (hd : s.done = false) (he : s.err = false) :
    Reported (complete i (resultOf i s) s) := by
  cases hr : resultOf i s with
  | ok t => exact .inl ⟨rfl, (flags_resultOf hr).1.trans he⟩
  | error e => exact .inr ⟨(errorComplete_done i e s).trans hd, errorComplete_err i e s⟩

/-- A BUSY engine's turn completes the command and reports it. -/
theorem Inv.engineTurn_completes {s t : State} (h : Inv s) (hp : s.phase = .busy)
    (ht : engineTurn s = .next t) : t.phase = .idle ∧ Reported t := by
  obtain ⟨hd, he, -⟩ := h.busy_flags hp
  rcases engineTurn_cases ht with ⟨hidle, -⟩ | ⟨i, -, -, -, rfl⟩
  · cases hp.symm.trans hidle
  · exact ⟨complete_phase _ _ _, complete_reported i hd he⟩

/-- What a step of a BUSY engine can do. -/
inductive BusyStep (s t : State) : Prop
  | reset (rest : List Event) (hs : s.pending = .reset :: rest)
      (ht : t = resetEvent { s with pending := rest })
  | completes (hs : s.pending = [] ∨ ∃ rest, s.pending = .engine :: rest)
      (hidle : t.phase = .idle) (hflags : Reported t)
  | host (e : Event) (hs : s.pending = e :: t.pending) (hbusy : t.phase = .busy)

/-- A host transaction changes at most IE, WERR and the reply, so not the phase. -/
theorem busyStep_of_inv {s t : State} (h : Inv s) (hp : s.phase = .busy)
    (hstep : step s = .next t) : BusyStep s t := by
  obtain ⟨hd, he, -⟩ := h.busy_flags hp
  have hhost {e : Event} {rest : List Event} (hs : s.pending = e :: rest)
      (hev : isHostEvent e = true) : BusyStep s t := by
    rw [step_event hs] at hstep
    obtain ⟨ie, werr, r, hrun⟩ := runEvent_host_busy (s := { s with pending := rest }) hp hd he hev
    cases hstep.symm.trans hrun
    exact .host e hs hp
  cases hs : s.pending with
  | nil =>
    rw [step_of_empty hs] at hstep
    obtain ⟨hidle, hflags⟩ := h.engineTurn_completes hp hstep
    exact .completes (.inl hs) hidle hflags
  | cons e rest =>
    cases e with
    | read a => exact hhost hs rfl
    | write a v strb => exact hhost hs rfl
    | engine =>
      rw [step_event hs] at hstep
      have hsched : Inv { s with pending := rest } := { h with }
      obtain ⟨hidle, hflags⟩ := hsched.engineTurn_completes hp hstep
      exact .completes (.inr ⟨rest, hs⟩) hidle hflags
    | reset =>
      rw [step_event hs] at hstep
      cases hstep
      exact .reset rest hs rfl

/-- Settles O9: of the three things a step of a BUSY engine can do (`busyStep_of_inv`), a host
transaction leaves it BUSY. -/
theorem busyEndsOnlyByCompletionOrReset : Obligations.BusyEndsOnlyByCompletionOrReset := by
  unfold Obligations.BusyEndsOnlyByCompletionOrReset
  intro s t h hp hstep hidle
  cases busyStep_of_inv h hp hstep with
  | reset rest hs ht => exact .inl ⟨rest, hs, ht⟩
  | completes hs _ hflags => exact .inr ⟨hs, hflags⟩
  | host e _ hbusy => cases hbusy.symm.trans hidle

/-- Settles O10, by induction on the schedule: a host transaction shortens it, and anything else but
a reset completes the command. -/
theorem busyCompletesUnderEverySchedule : Obligations.BusyCompletesUnderEverySchedule := by
  unfold Obligations.BusyCompletesUnderEverySchedule
  intro s
  induction hes : s.pending generalizing s with
  | nil =>
    intro h hp _
    obtain ⟨t, hstep⟩ := h.step_next
    cases busyStep_of_inv h hp hstep with
    | completes _ hidle hflags => exact ⟨1, t, by simp, steps_succ 0 hstep, hidle, hflags⟩
    | reset rest hs | host e hs => cases hes.symm.trans hs
  | cons e es ih =>
    intro h hp hno
    obtain ⟨t, hstep⟩ := h.step_next
    cases busyStep_of_inv h hp hstep with
    | reset rest hs =>
      cases hes.symm.trans hs
      exact absurd rfl (hno .reset (by simp))
    | completes _ hidle hflags => exact ⟨1, t, by simp, steps_succ 0 hstep, hidle, hflags⟩
    | host e' hs hbusy =>
      cases hes.symm.trans hs
      obtain ⟨k, u, hk, hrun, hdone⟩ := ih t rfl (h.step (step_effect hstep)) hbusy
        fun e' he' => hno e' (List.mem_cons_of_mem _ he')
      exact ⟨k + 1, u, Nat.succ_le_succ hk, (steps_succ k hstep).trans hrun, hdone⟩

end Sys2Proof.Machine
end

section
/-! RUN (O50, O51, O52; 44_pipeline_control R335 to R337): its three stages in terms of the cores of
DECODE, DERIVE and DECRYPT, and its outcome beside that of the three commands in turn. -/

namespace Sys2Proof.Machine

/-! ### The stages -/

section Stages

variable {s : State} {d dk : List Byte}

/-- RUN ends with the error of its first stage. -/
theorem runResult_decode_error {e : Raise} (h : decodeCore s = .error e) :
    runResult s = .error e := by
  simp only [runResult, decodeResult, h]

variable (hd : decodeCore s = .ok d)

include hd

/-- With a container decoded, RUN ends with the error of its second stage. -/
theorem runResult_derive_error {e : Raise} (h : deriveCore (writeCont d s) = .error e) :
    runResult s = .error e := by
  simp only [runResult, decodeResult, hd, deriveResult, h]

variable (hk : deriveCore (writeCont d s) = .ok dk)

include hk

/-- With a container decoded and a key derived, RUN's result is that of its third stage. -/
theorem runResult_eq_decryptResult :
    runResult s = decryptResult (writeKey dk (writeCont d s)) := by
  simp only [runResult, decodeResult, hd, deriveResult, hk]

theorem runResult_decrypt_error {e : Raise}
    (h : decryptCore (writeKey dk (writeCont d s)) = .error e) : runResult s = .error e := by
  simp only [runResult_eq_decryptResult hd hk, decryptResult, h]

theorem runResult_decrypt_ok {tp : List Byte × Byte}
    (h : decryptCore (writeKey dk (writeCont d s)) = .ok tp) :
    runResult s = .ok (writeOut tp.1 tp.2 (writeKey dk (writeCont d s))) := by
  simp only [runResult_eq_decryptResult hd hk, decryptResult, h]

end Stages

/-- An error of RUN is one of its stages', each behind the results of the earlier ones (R337). -/
theorem runResult_error {s : State} {e : Raise} (h : runResult s = .error e) :
    decodeCore s = .error e ∨
      (∃ d, deriveCore (writeCont d s) = .error e) ∨
      ∃ d dk, decryptCore (writeKey dk (writeCont d s)) = .error e := by
  cases hd : decodeCore s with
  | error e' =>
    rw [runResult_decode_error hd] at h
    cases h
    exact .inl rfl
  | ok d =>
    cases hk : deriveCore (writeCont d s) with
    | error e' =>
      rw [runResult_derive_error hd hk] at h
      cases h
      exact .inr (.inl ⟨d, hk⟩)
    | ok dk =>
      rw [runResult_eq_decryptResult hd hk] at h
      exact .inr (.inr ⟨d, dk, decryptResult_error h⟩)

/-- BUSY, RUN ends with its result and is done (R335). -/
theorem exec_run_ok {s u : State} (hp : s.phase = .busy) (h : runResult s = .ok u) :
    exec .run s = .next (doneComplete u) := by
  have hr : resultOf .run s = .ok u := h
  rw [exec_busy rfl hp, complete_ok .run hr]

/-- BUSY, RUN ends with the error of the stage that fails (R336). -/
theorem exec_run_error {s : State} {e : Raise} (hp : s.phase = .busy) (h : runResult s = .error e) :
    exec .run s = .next (errorComplete .run e s) := by
  have hr : resultOf .run s = .error e := h
  rw [exec_busy rfl hp, complete_error .run hr]

/-! ### What each stage can report -/

/-- Every refusal of a text is MalformedContainer (R169). -/
theorem decodeText_error_code {t : List Byte} {e : Raise} (h : decodeText t = .error e) :
    e.code = .malformedContainer := by
  simp only [decodeText] at h
  by_cases h4 : t.length % 4 ≠ 0
  · rw [if_pos h4] at h
    cases h
    rfl
  rw [if_neg h4] at h
  split at h
  · cases h
    rfl
  · split_ifs at h with hpad hmin <;> cases h <;> rfl

/-- A decrypted buffer is refused for its padding count or for its text (R302). -/
theorem plaintextOf_error_code {b : List Byte} {e : Raise} (h : plaintextOf b = .error e) :
    e.code = .paddingTruncationOutOfRange ∨ e.code = .textDecodingFailure := by
  unfold plaintextOf at h
  split at h
  · next ht =>
    simp only [truncateByLast] at ht
    split_ifs at ht
    cases ht
    cases h
    exact .inl rfl
  · unfold checkText at h
    split at h
    · cases h
      exact .inr rfl
    · cases h

/-- DECODE reports LengthOutOfRange or MalformedContainer (R169). -/
theorem decodeCore_error_code {s : State} {e : Raise} (h : decodeCore s = .error e) :
    e.code = .lengthOutOfRange ∨ e.code = .malformedContainer := by
  unfold decodeCore at h
  split at h
  · cases h
    exact .inl rfl
  · exact .inr (decodeText_error_code h)

/-- With a valid container DERIVE reports LengthOutOfRange only (R202). -/
theorem deriveCore_error_code {s : State} {e : Raise} (hc : s.contValid = true)
    (h : deriveCore s = .error e) : e.code = .lengthOutOfRange := by
  by_cases hpass : s.passLen.toNat ≤ s.build.maxPassLen
  · cases (deriveCore_eq_deriveKey hc hpass).symm.trans h
  · cases (deriveCore_lengthOutOfRange hc (Nat.lt_of_not_le hpass)).symm.trans h
    rfl

/-- With a valid container and a valid key DECRYPT reports one of the cipher's three errors
(R302). -/
theorem decryptCore_error_code {s : State} {e : Raise} (hc : s.contValid = true)
    (hk : s.keyValid = true) (h : decryptCore s = .error e) :
    e.code = .invalidCiphertextLength ∨ e.code = .paddingTruncationOutOfRange ∨
      e.code = .textDecodingFailure := by
  by_cases hl : s.ctLen.toNat = 0 ∨ s.ctLen.toNat % 16 ≠ 0
  · cases (decryptCore_invalidLength hc hk hl).symm.trans h
    exact .inl rfl
  · rw [decryptCore_eq_plaintextOf hc hk (by omega) (by omega)] at h
    exact .inr (plaintextOf_error_code h)

/-- RUN reports neither ContainerNotValid nor KeyNotValid: DERIVE runs behind a container written,
and DECRYPT behind a key written too (R337). -/
theorem runResult_error_code {s : State} {e : Raise} (h : runResult s = .error e) :
    e.code.code ≠ 0x11 ∧ e.code.code ≠ 0x12 := by
  rcases runResult_error h with hd | ⟨d, hk⟩ | ⟨d, dk, hp⟩
  · rcases decodeCore_error_code hd with hcode | hcode <;> rw [hcode] <;> decide
  · rw [deriveCore_error_code rfl hk]
    decide
  · rcases decryptCore_error_code rfl rfl hp with hcode | hcode | hcode <;> rw [hcode] <;> decide

/-- Settles O52: a result leaves ERR_CODE at 0, and an error is none of the two
(`runResult_error_code`). -/
theorem runNeverLacksContainerOrKey : Obligations.RunNeverLacksContainerOrKey := by
  unfold Obligations.RunNeverLacksContainerOrKey
  intro s t hp hcode h
  rcases exec_busy_cases rfl hp h with ⟨u, hr, rfl⟩ | ⟨e, hr, rfl⟩
  · have hzero : (doneComplete u).errCode = 0 := (flags_resultOf hr).2.trans hcode
    rw [hzero]
    decide
  · exact runResult_error_code hr

/-! ### RUN and the three commands in turn -/

/-- The two phases of a command in a row. -/
theorem command_of_exec {i : Instr} (hi : runsInEngine i = true) {s t : State}
    (hp : s.phase = .idle) (h : exec i (acceptEngine i s) = .next t) : command i s = .next t := by
  rw [command, if_pos hi, exec_idle hi hp]
  exact h

/-- DECODE reads nothing an acceptance writes. -/
theorem decodeCore_acceptEngine (i : Instr) (s : State) :
    decodeCore (acceptEngine i s) = decodeCore s := by
  cases i <;> rfl

/-- DONE and the engine's phase are acceptance's to set. -/
theorem acceptEngine_doneComplete (i : Instr) (s : State) :
    acceptEngine i (doneComplete s) = acceptEngine i s := by
  cases i <;> rfl

/-- A state with another PEND_CMD. -/
def setPendCmd (w : Word) (s : State) : State := { s with pendCmd := w }

section InTurn

variable (s : State) (d dk : List Byte)

/-- Where a DECODE that succeeds ends. -/
def afterDecode : State := doneComplete (writeCont d (acceptEngine .decode s))

/-- Where a DERIVE behind it ends that succeeds too. -/
def afterDerive : State := doneComplete (writeKey dk (acceptEngine .derive (afterDecode s d)))

/-- DECODE is accepted in the state RUN is, but for PEND_CMD (R330). -/
theorem acceptEngine_decode_eq_run :
    acceptEngine .decode s = setPendCmd (encode .decode) (acceptEngine .run s) := rfl

/-- DERIVE, accepted behind DECODE, starts from what RUN's second stage starts from, but for
PEND_CMD. -/
theorem acceptEngine_derive_afterDecode :
    acceptEngine .derive (afterDecode s d) =
      setPendCmd (encode .derive) (writeCont d (acceptEngine .run s)) := by
  rw [afterDecode, acceptEngine_doneComplete]
  rfl

/-- DECRYPT, accepted behind DERIVE, starts from what RUN's third stage starts from, but for
PEND_CMD. -/
theorem acceptEngine_decrypt_afterDerive :
    acceptEngine .decrypt (afterDerive s d dk) =
      setPendCmd (encode .decrypt) (writeKey dk (writeCont d (acceptEngine .run s))) := by
  rw [afterDerive, acceptEngine_doneComplete, acceptEngine_derive_afterDecode]
  rfl

variable {s d dk} {e : Raise}

/-- So DERIVE succeeds behind DECODE where RUN's second stage does. -/
theorem command_derive_afterDecode_ok
    (h : deriveCore (writeCont d (acceptEngine .run s)) = .ok dk) :
    command .derive (afterDecode s d) = .next (afterDerive s d dk) := by
  refine command_of_exec rfl rfl (exec_derive_ok rfl ?_)
  rw [acceptEngine_derive_afterDecode]
  exact h

/-- And it raises what that stage raises. -/
theorem command_derive_afterDecode_error
    (h : deriveCore (writeCont d (acceptEngine .run s)) = .error e) :
    command .derive (afterDecode s d) =
      .next (errorComplete .derive e (acceptEngine .derive (afterDecode s d))) := by
  refine command_of_exec rfl rfl (exec_derive_error rfl ?_)
  rw [acceptEngine_derive_afterDecode]
  exact h

/-- So DECRYPT succeeds behind DERIVE where RUN's third stage does. -/
theorem command_decrypt_afterDerive_ok {tp : List Byte × Byte}
    (h : decryptCore (writeKey dk (writeCont d (acceptEngine .run s))) = .ok tp) :
    command .decrypt (afterDerive s d dk) =
      .next (doneComplete (writeOut tp.1 tp.2
        (setPendCmd (encode .decrypt) (writeKey dk (writeCont d (acceptEngine .run s)))))) := by
  refine command_of_exec rfl rfl ?_
  rw [acceptEngine_decrypt_afterDerive]
  exact exec_decrypt_ok rfl h

/-- And it raises what that stage raises. -/
theorem command_decrypt_afterDerive_error
    (h : decryptCore (writeKey dk (writeCont d (acceptEngine .run s))) = .error e) :
    command .decrypt (afterDerive s d dk) =
      .next (errorComplete .decrypt e (acceptEngine .decrypt (afterDerive s d dk))) := by
  refine command_of_exec rfl rfl (exec_decrypt_error rfl ?_)
  rw [acceptEngine_decrypt_afterDerive]
  exact h

end InTurn

/-- An error of RUN ends as the same error of another command does, but for the groups cleared and
PEND_CMD, where that command started behind stages of RUN's (R336). -/
theorem errorComplete_run_eq {i : Instr} (hi : i ≠ .run) {r x y : State} {w : Word}
    (hx : x = setPendCmd w y) (hy : clearGroups .run y = clearGroups .run r) (e : Raise) :
    errorComplete .run e r = setPendCmd r.pendCmd (clearGroups .run (errorComplete i e x)) := by
  have hclear : clearGroups .run (errorComplete i e x) =
      { recordError e (setPendCmd w (clearGroups .run y)) with phase := .idle } := by
    rw [hx]
    cases i with
    | run => exact absurd rfl hi
    | decode | derive | decrypt | clear => rfl
  rw [hclear, hy]
  rfl

/-- Settles O51, by the outcome of each stage: the commands in turn succeed and fail as the stages
do (`command_derive_afterDecode_ok` and the lemmas behind it), and of an error RUN keeps nothing but
the report (`errorComplete_run_eq`). -/
theorem runEqualsTheThreeCommandsInTurn : Obligations.RunEqualsTheThreeCommandsInTurn := by
  unfold Obligations.RunEqualsTheThreeCommandsInTurn
  intro s hp
  have hrun {t : State} := command_of_exec (i := .run) (t := t) rfl hp
  have hdecode {t : State} := command_of_exec (i := .decode) (t := t) rfl hp
  have hcore (i : Instr) := decodeCore_acceptEngine i s
  cases hd : decodeCore s with
  | error e =>
    have hrunErr := hrun (exec_run_error rfl (runResult_decode_error ((hcore .run).trans hd)))
    have hdecodeErr := hdecode (exec_decode_error rfl ((hcore .decode).trans hd))
    have hend := errorComplete_run_eq (i := .decode) (r := acceptEngine .run s) nofun
      (acceptEngine_decode_eq_run s) rfl e
    exact ⟨_, _, hrunErr, hdecodeErr, fun _ => ⟨rfl, hend⟩, nofun⟩
  | ok d =>
    have hd1 := (hcore .run).trans hd
    have hdecodeOk : command .decode s = .next (afterDecode s d) :=
      hdecode (exec_decode_ok rfl ((hcore .decode).trans hd))
    cases hk : deriveCore (writeCont d (acceptEngine .run s)) with
    | error e =>
      have hrunErr := hrun (exec_run_error rfl (runResult_derive_error hd1 hk))
      have hderiveErr := command_derive_afterDecode_error hk
      have hend := errorComplete_run_eq (i := .derive) (r := acceptEngine .run s) nofun
        (acceptEngine_derive_afterDecode s d) rfl e
      exact ⟨_, _, hrunErr, hdecodeOk, nofun, fun _ => ⟨rfl, _, hderiveErr, rfl, rfl, rfl, rfl,
        fun _ => ⟨rfl, hend⟩, nofun⟩⟩
    | ok dk =>
      have hderiveOk := command_derive_afterDecode_ok hk
      cases hx : decryptCore (writeKey dk (writeCont d (acceptEngine .run s))) with
      | error e =>
        have hrunErr := hrun (exec_run_error rfl (runResult_decrypt_error hd1 hk hx))
        have hdecryptErr := command_decrypt_afterDerive_error hx
        have hend := errorComplete_run_eq (i := .decrypt) (r := acceptEngine .run s) nofun
          (acceptEngine_decrypt_afterDerive s d dk) rfl e
        exact ⟨_, _, hrunErr, hdecodeOk, nofun, fun _ => ⟨rfl, _, hderiveOk, rfl, rfl, rfl, rfl,
          nofun, fun _ => ⟨rfl, _, hdecryptErr, rfl, rfl, rfl, rfl, rfl, rfl,
            fun _ => ⟨rfl, hend⟩, nofun⟩⟩⟩
      | ok tp =>
        have hrunOk := hrun (exec_run_ok rfl (runResult_decrypt_ok hd1 hk hx))
        have hdecryptOk := command_decrypt_afterDerive_ok hx
        exact ⟨_, _, hrunOk, hdecodeOk, nofun, fun _ => ⟨rfl, _, hderiveOk, rfl, rfl, rfl, rfl,
          nofun, fun _ => ⟨rfl, _, hdecryptOk, rfl, rfl, rfl, rfl, rfl, rfl,
            nofun, fun _ => ⟨rfl, rfl⟩⟩⟩⟩

/-! ### RUN on a whole container -/

section Container

variable {s : State} {d : List Byte} (hw : s.decBuf.wf = true) (hlen : 48 ≤ d.length)

include hw hlen

/-- The salt of a container just written is its first 32 bytes. -/
theorem opSalt_writeCont : opSalt (writeCont d s) = d.take 32 := by
  have h := Memory.readN_writeN_sub hw d 0 32 (by omega)
  rwa [List.drop_zero] at h

/-- Its initialization vector is the 16 bytes behind the salt. -/
theorem opIv_writeCont : opIv (writeCont d s) = (d.drop 32).take 16 :=
  Memory.readN_writeN_sub hw d 32 16 (by omega)

/-- Its ciphertext is the rest. -/
theorem opCipher_writeCont (hlt : d.length < 2 ^ 32) : opCipher (writeCont d s) = d.drop 48 := by
  have hct : (writeCont d s).ctLen.toNat = d.length - 48 :=
    toNat_ofNat_of_lt (n := d.length - 48) (by omega)
  have hrest : (d.drop 48).length = d.length - 48 := List.length_drop
  calc opCipher (writeCont d s) = (s.decBuf.writeN 0 d).readN 48 (d.length - 48) := by
        rw [opCipher, hct]
        rfl
    _ = (d.drop 48).take (d.length - 48) := Memory.readN_writeN_sub hw d 48 _ (by omega)
    _ = d.drop 48 := by rw [← hrest, List.take_length]

end Container

/-- The cipher key of a key just written. -/
theorem opKey_writeKey {dk : List Byte} (h : dk.length = 32) (s : State) :
    opKey (writeKey dk s) = dk := keyBytes_keyOfBytes dk h

/-- Settles O50: the three cores succeed in turn, each on what the stage before it wrote. -/
theorem runDecryptsTheWholeContainer : Obligations.RunDecryptsTheWholeContainer := by
  unfold Obligations.RunDecryptsTheWholeContainer
  intro s d dk b p hp hw hin htext hlen hmod hpass hdk hb hlast h1 hle hwf
  have hdec : decodeText (opText s) = .ok d := htext ▸ decodeText_base64Encode hlen.le
  have hlt : d.length < 2 ^ 32 := by
    have hmax := (decodeText_length hdec).2
    have hreg := s.inLen.isLt
    rw [opText_length] at hmax
    omega
  have hct : (writeCont d s).ctLen.toNat = d.length - 48 :=
    toNat_ofNat_of_lt (n := d.length - 48) (by omega)
  have hdk32 : dk.length = 32 := hdk ▸ deriveKey_length _ _
  have hdecode : decodeCore s = .ok d := (decodeCore_eq_decodeText hin).trans hdec
  have hderive : deriveCore (writeCont d s) = .ok dk := by
    rw [hdk, ← opSalt_writeCont hw hlen.le]
    exact deriveCore_eq_deriveKey rfl hpass
  have hbuf : cbcDec (opKey (writeKey dk (writeCont d s))) (opIv (writeCont d s))
      (opCipher (writeCont d s)) = b := by
    rw [opKey_writeKey hdk32, opIv_writeCont hw hlen.le, opCipher_writeCont hw hlen.le hlt, hb]
  have hdecrypt : decryptCore (writeKey dk (writeCont d s)) =
      .ok (b.take (b.length - p.toNat), p) :=
    calc decryptCore (writeKey dk (writeCont d s)) = plaintextOf b := by
          rw [← hbuf]
          exact decryptCore_eq_plaintextOf rfl rfl (by rw [writeKey_ctLen, hct]; omega)
            (by rw [writeKey_ctLen, hct]; omega)
      _ = checkText (b.take (b.length - p.toNat), p) := plaintextOf_inRange hlast h1 hle
      _ = .ok (b.take (b.length - p.toNat), p) := checkText_ok hwf
  have htaken : (b.take (b.length - p.toNat)).length = b.length - p.toNat := by
    rw [List.length_take]
    omega
  refine ⟨_, exec_run_ok hp (runResult_decrypt_ok hdecode hderive hdecrypt), ?_,
    opKey_writeKey hdk32 s⟩
  rw [doneComplete, writeOut, htaken]
  rfl

end Sys2Proof.Machine
end
